-- ==== Sys2Proof/Word.lean ====
section
/-! DEFINITION. The widths of the CORE's values (`00_scope.md` R9, R10, R12; `10_state.md` R31 to R36).
Bit 0 is the least significant bit of every value, and every value is unsigned (R12, R15). -/

namespace Sys2Proof

/-- One byte lane of a bus word (R65). -/
abbrev Byte := BitVec 8

/-- A 32-bit bus word: a command word, a window register word, a slice register (R61, R90, R34). -/
abbrev Word := BitVec 32

/-- A 64-bit block; block bit `i` is bit `i mod 8` of byte `i div 8` (R12). -/
abbrev Block := BitVec 64

/-- The 80-bit key register; key byte 9 holds bits 79..72 (R12, R32). -/
abbrev Key := BitVec 80

/-- What a host variable of R97 holds: wide enough for a bus word, for a 64-bit block and for the 80-bit
key that `RDKEY` assembles (R98); a narrower value is zero-extended (log entry 23). -/
abbrev HostVal := BitVec 80

/-- A 5-bit round index (R9, R36, R92). -/
abbrev Round := BitVec 5

/-- A batch of 32 blocks, `BLK[0..31]` (R33). -/
abbrev Batch := Vector Block 32

/-- The slice file `SLICE[0..63]`: register `i` bit `j` is bit `i` of block `j` (R34, R140). -/
abbrev Slices := Vector Word 64

end Sys2Proof
end

