-- ==== Sys2Proof/Machine/State.lean ====
section
/-! DEFINITION. The state of the CORE (`10_state.md` R30), the state of the two agents that move it
from outside (the host program of `30_encoding.md` R97 and the order of events of `44_control_fsm.md`
R195), the reasons a step can stop, and reset. Plain data throughout. -/

namespace Sys2Proof.Machine

/-- `phase`, the state of the control state machine (R35). Encoding 7 is never held, so it is no
constructor (R35, R209). -/
inductive Phase where
  | idle
  | seRound
  | seFinal
  | bsIn
  | bsRound
  | bsFinal
  | bsOut
  deriving DecidableEq, Repr

/-- The complete state of the CORE: exactly the tuple of R30. `BUSY` is a function of `phase` (R37)
and `CMD` holds nothing (R42), so neither is a field. -/
structure CoreRegs where
  /-- `STATE`, the scalar engine's block (R31). -/
  state : Block
  /-- `KEY`, the key register both engines share (R3, R32). -/
  key : Key
  /-- `BLK[0..31]`, the batch buffer (R33). -/
  blk : Batch
  /-- `SLICE[0..63]`, the bit-slice register file (R34). -/
  slice : Slices
  /-- `phase` (R35). -/
  phase : Phase
  /-- `rnd`, the round counter (R36). -/
  rnd : Round
  /-- `DONE` (R38). -/
  done : Bool
  /-- `ERR_CMD` (R39). -/
  errCmd : Bool
  /-- `ERR_BUSY` (R40). -/
  errBusy : Bool
  deriving DecidableEq, Repr

/-- One register word of the window (the rows of the address map R61). -/
inductive Port where
  | cmd
  | status
  | key0
  | key1
  | key2
  | sdata0
  | sdata1
  /-- `BATCH[w]`: half `w mod 2` of block `w div 2`. -/
  | batch (w : Fin 64)
  | slice (i : Fin 64)
  deriving DecidableEq, Repr

/-- One operation of a host program (R97, and the assignments that the expansions of R98 make). `W32` and
`R32` are the accesses of size 4; the other sizes
are the host's liberty to issue too (R272). Offsets are window offsets (R60). Variables and labels
are numbers here: a label is the index of the line it marks (log entry 6). -/
inductive HostOp where
  /-- `MemWrite(off, size, v)` (R68). -/
  | write (off size : Nat) (v : Word)
  /-- `var <- MemRead(off, size)` (R67). -/
  | read (off size : Nat) (var : Nat)
  /-- `BNZ var, bit, target` (R97). -/
  | bnz (var : Nat) (bit : Fin 80) (target : Nat)
  /-- `var = b : a`, the last line of `RDSTATE` and `RDBLK` (R98). -/
  | joinBlock (var a b : Nat)
  /-- `var = c[15:0] : b : a`, the last line of `RDKEY` (R98). -/
  | joinKey (var a b c : Nat)
  deriving DecidableEq, Repr

/-- The host agent: its program, the next line, and its variables, sorted by variable and without
repeats. A variable that no read has assigned is not listed (log entry 5). -/
structure HostState where
  prog : List HostOp
  pc : Nat
  vars : List (Nat × HostVal)
  deriving DecidableEq, Repr

/-- Whose event comes next (R195): the host's next operation, an engine step, or reset. -/
inductive Turn where
  | host
  | engine
  | reset
  deriving DecidableEq, Repr

/-- The machine: the CORE and what moves it. `turns` is the interleaving R195 and R74 leave free, as
data: the events to come in their one total order (log entry 2). -/
structure State where
  /-- The CORE (R30). -/
  regs : CoreRegs
  /-- The host agent (R97). The model's own field, not the CORE's. -/
  host : HostState
  /-- The order of the events to come. The model's own field, not the CORE's. -/
  turns : List Turn
  deriving DecidableEq, Repr

/-- Why a step can stop with a fault. -/
inductive Fault where
  /-- Raised by a host access of a size other than 4, at an offset that is not a multiple of 4, or at
  a reserved offset of the window (R62, R63, R233). The CORE changed nothing, and the host's
  reaction is the open parameter `HOST_BUS_ERROR`. Safe: the run stops where R273 stops it. -/
  | busError (off : Nat)
  deriving DecidableEq, Repr

/-- Why a step can be refused. -/
inductive Refusal where
  /-- Raised by `exec` for an instruction that has no meaning yet. Safe. -/
  | notModelled (mnemonic : String)
  /-- Raised by a host access outside the window: it is not the CORE's and the spec says nothing of
  it (R60). Safe: nothing is claimed of what it does. -/
  | outsideWindow (off : Nat)
  deriving DecidableEq, Repr

/-- Every piece of the CORE's state after reset (R47, R261). -/
def CoreRegs.reset : CoreRegs where
  state := 0
  key := 0
  blk := Vector.replicate 32 0
  slice := Vector.replicate 64 0
  phase := .idle
  rnd := 0
  done := false
  errCmd := false
  errBusy := false

/-- A host that has no program (log entry 3). -/
def HostState.empty : HostState where
  prog := []
  pc := 0
  vars := []

/-- The machine right after reset: the CORE as R47 says, and no host program or event to come. -/
def State.reset : State where
  regs := .reset
  host := .empty
  turns := []

end Sys2Proof.Machine
end

