-- ==== Sys2Proof/Machine/Flags.lean ====
section
/-! DEFINITION. The flags and the `STATUS` register (`10_state.md` R35 to R41, `20_memory.md` R71). -/

namespace Sys2Proof.Machine

/-- The 3-bit encoding of `phase` (R35). -/
def Phase.code : Phase → BitVec 3
  | .idle => 0
  | .seRound => 1
  | .seFinal => 2
  | .bsIn => 3
  | .bsRound => 4
  | .bsFinal => 5
  | .bsOut => 6

/-- One of the two phases that carry a round index (R36, R209). -/
def Phase.isRound : Phase → Bool
  | .seRound | .bsRound => true
  | .idle | .seFinal | .bsIn | .bsFinal | .bsOut => false

/-- `BUSY`: 1 exactly when `phase != IDLE` (R37). -/
def CoreRegs.busy (c : CoreRegs) : Bool := c.phase != .idle

/-- A flag as a word, at its bit of `STATUS` (R41). -/
def flagAt (b : Bool) (bit : Nat) : Word := (BitVec.ofBool b).setWidth 32 <<< bit

/-- The word `STATUS` reads as (R41). -/
def CoreRegs.statusWord (c : CoreRegs) : Word :=
  flagAt c.busy 0 ||| flagAt c.done 1 ||| flagAt c.errCmd 2 ||| flagAt c.errBusy 3 |||
    c.phase.code.setWidth 32 <<< 8 ||| c.rnd.setWidth 32 <<< 16

/-- Write-1-to-clear (R71): bits 1, 2 and 3 of `v` clear `DONE`, `ERR_CMD` and `ERR_BUSY`; a 0 leaves
its flag as it is, and every other bit is ignored (R41, R64). -/
def CoreRegs.clearStatus (c : CoreRegs) (v : Word) : CoreRegs :=
  { c with
    done := c.done && !v.getLsbD 1
    errCmd := c.errCmd && !v.getLsbD 2
    errBusy := c.errBusy && !v.getLsbD 3 }

end Sys2Proof.Machine
end

