-- ==== Sys2Proof/Machine/Operands.lean ====
section
/-! DEFINITION. The register words of the window: which part of which register a port is, read and
written (`20_memory.md` R61, R64, R65, R66). A command's only operand is its round index, which the
decoder reads (`30_encoding.md` R92). -/

namespace Sys2Proof.Machine

/-- Bits `hi:lo` of a 64-bit value, as the word half `h` (0 low, 1 high) of it (R61). -/
def blockHalf (h : Nat) (b : Block) : Word := b.extractLsb' (32 * h) 32

/-- `b with [32h+31:32h] = v` (R68), for `h` 0 (low) or 1 (high). -/
def setBlockHalf (h : Nat) (b : Block) (v : Word) : Block :=
  if h = 0 then b.extractLsb' 32 32 ++ v else v ++ b.extractLsb' 0 32

/-- The word a port reads as while the CORE is idle (R67). -/
def CoreRegs.readPort (c : CoreRegs) : Port → Word
  | .cmd => 0
  | .status => c.statusWord
  | .key0 => c.key.extractLsb' 0 32
  | .key1 => c.key.extractLsb' 32 32
  | .key2 => (c.key.extractLsb' 64 16).setWidth 32
  | .sdata0 => blockHalf 0 c.state
  | .sdata1 => blockHalf 1 c.state
  | .batch w => blockHalf (w.val % 2) (c.blk[w.val / 2]'(by omega))
  | .slice i => c.slice[i]

/-- Replacing the register word of a data port (R68). `CMD` and `STATUS` store no word: their writes are
the command decoder and write-1-to-clear (R42, R71, `Machine/Window.lean`). -/
def CoreRegs.writePort (c : CoreRegs) (p : Port) (v : Word) : CoreRegs :=
  match p with
  | .cmd | .status => c
  | .key0 => { c with key := c.key.extractLsb' 32 48 ++ v }
  | .key1 => { c with key := c.key.extractLsb' 64 16 ++ v ++ c.key.extractLsb' 0 32 }
  | .key2 => { c with key := v.extractLsb' 0 16 ++ c.key.extractLsb' 0 64 }
  | .sdata0 => { c with state := setBlockHalf 0 c.state v }
  | .sdata1 => { c with state := setBlockHalf 1 c.state v }
  | .batch w =>
    { c with
      blk := c.blk.set (w.val / 2) (setBlockHalf (w.val % 2) (c.blk[w.val / 2]'(by omega)) v) }
  | .slice i => { c with slice := c.slice.set i v }

/-- Byte lane `m` of a bus word: bits `8m+7:8m` (R65). -/
def wordLane (m : Nat) (v : Word) : Byte := v.extractLsb' (8 * m) 8

/-- Byte `k` of a block: bits `8k+7:8k` (R12, R31). -/
def blockByte (k : Nat) (b : Block) : Byte := b.extractLsb' (8 * k) 8

/-- Byte `k` of the key: bits `8k+7:8k` (R12, R32). -/
def keyByte (k : Nat) (b : Key) : Byte := b.extractLsb' (8 * k) 8

end Sys2Proof.Machine
end

