-- ==== Sys2Proof/Machine/Ops.lean ====
section
/-! DEFINITION. The shared operations every command is written with: writing a register, recording an
error, presenting a command, completing and starting one (`44_control_fsm.md` R196 to R200,
`60_exceptions.md` R230 to R236). -/

namespace Sys2Proof.Machine

/-- `STATE <- v` (R31). -/
def CoreRegs.setState (c : CoreRegs) (v : Block) : CoreRegs := { c with state := v }

/-- `KEY <- v` (R32). -/
def CoreRegs.setKey (c : CoreRegs) (v : Key) : CoreRegs := { c with key := v }

/-- `BLK <- v` (R33). -/
def CoreRegs.setBlk (c : CoreRegs) (v : Batch) : CoreRegs := { c with blk := v }

/-- `SLICE <- v` (R34). -/
def CoreRegs.setSlice (c : CoreRegs) (v : Slices) : CoreRegs := { c with slice := v }

/-- `phase <- p; rnd <- r` (R35, R36). -/
def CoreRegs.setControl (c : CoreRegs) (p : Phase) (r : Round) : CoreRegs :=
  { c with phase := p, rnd := r }

/-- `DONE <- b` (R38). -/
def CoreRegs.setDone (c : CoreRegs) (b : Bool) : CoreRegs := { c with done := b }

/-- Taking the "illegal command" error: `ERR_CMD <- 1` and nothing else (R231). The CORE has no trap
entry: an error saves no state, changes no mode and transfers control nowhere (R235). -/
def CoreRegs.takeErrCmd (c : CoreRegs) : CoreRegs := { c with errCmd := true }

/-- Taking the "access while busy" error: `ERR_BUSY <- 1` and nothing else (R70, R232, R235). -/
def CoreRegs.takeErrBusy (c : CoreRegs) : CoreRegs := { c with errBusy := true }

/-- The return from an error is the host's write of 1 to the sticky bit: the CORE has no
return-from-trap operation (R236), so this is write-1-to-clear (R71). -/
def CoreRegs.leaveErrors (c : CoreRegs) (v : Word) : CoreRegs := c.clearStatus v

/-- The machine with the CORE replaced: the host and the order of events stay. -/
def State.withRegs (s : State) (c : CoreRegs) : State := { s with regs := c }

/-- `Perform`: a primitive command runs whole, `DONE` cleared at acceptance and set at completion
(R196, R199). -/
def perform (f : CoreRegs → CoreRegs) (c : CoreRegs) : CoreRegs := (f (c.setDone false)).setDone true

/-- `Start`: a compound command is accepted, its first phase and round index set and no data register
changed (R196, R200). -/
def start (p : Phase) (r : Round) (c : CoreRegs) : CoreRegs := (c.setDone false).setControl p r

/-- A command presented at `CMD` (R196, R234): turned away with `ERR_BUSY` while busy, refused with
`ERR_CMD` where it has no legal word, otherwise accepted. -/
def present (isLegal : Bool) (accept : CoreRegs → CoreRegs) (s : State) :
    Host.Outcome State Fault Refusal :=
  .next (s.withRegs
    (if s.regs.busy then s.regs.takeErrBusy
     else if isLegal then accept s.regs
     else s.regs.takeErrCmd))

end Sys2Proof.Machine
end

