-- ==== Sys2Proof/Config.lean ====
section
/-! DEFINITION. What is fixed for this hardware (`00_scope.md` R9 to R11) and the one value the spec
leaves open that a run can meet. The bus address `CORE_BASE` is an argument of the operations that
use it (`Machine/Window.lean`), so that every statement about it holds for every base (R11, D31). -/

namespace Sys2Proof.Config

/-- The number of full rounds, `NR = 31` (R9). -/
def rounds : Nat := 31

/-- The window is `0x400` bytes (R11, R60). -/
def windowBytes : Nat := 0x400

/-- The only access size the window takes: the data bus is 32 bits wide (R11, R62). -/
def accessBytes : Nat := 4

/-- What a host variable of R97 holds before any read has assigned it. The variables are the host's,
not the CORE's, and no rule gives them a first value: a free value, log entry 5. -/
opaque hostVarInit : Nat → HostVal

end Sys2Proof.Config
end

