-- ==== Sys2Proof/Machine/Bits.lean ====
section
/-! DEFINITION. Building a value bit by bit (`00_scope.md` R12, R13). -/

namespace Sys2Proof.Machine

/-- The `n`-bit value whose bit `i` is `f i` (R12). -/
def ofBits : (n : Nat) → (Nat → Bool) → BitVec n
  | 0, _ => 0#0
  | n + 1, f => BitVec.cons (f n) (ofBits n f)

end Sys2Proof.Machine
end

