-- ==== Sys2Proof/Machine/Cipher.lean ====
section
/-! DEFINITION. The pure functions of the PRESENT round and the key schedule (`40_scalar_engine.md`
R110 to R117, R123, R124; `43_key_schedule.md` R180 to R184). -/

namespace Sys2Proof.Machine

/-- The S-box table (R110). -/
def sboxTable : List (BitVec 4) :=
  [0xC, 0x5, 0x6, 0xB, 0x9, 0x0, 0xA, 0xD, 0x3, 0xE, 0xF, 0x8, 0x4, 0x7, 0x1, 0x2]

/-- `SBOX[x]` (R110). -/
def sbox (x : BitVec 4) : BitVec 4 := sboxTable.getD x.toNat 0

/-- Nibble `n` of a block: bits `4n+3` to `4n` (R111). -/
def nibble (n : Nat) (s : Block) : BitVec 4 := s.extractLsb' (4 * n) 4

/-- `SubLayer(s)`: every nibble replaced by its S-box entry (R112). -/
def subLayer (s : Block) : Block :=
  ofBits 64 fun i => (sbox (nibble (i / 4) s)).getLsbD (i % 4)

/-- `P(b)`, where the permutation moves position `b` (R113). -/
def permIndex (b : Nat) : Nat := b / 4 + b % 4 * 16

/-- The position that `P` moves to `q` (the inverse that follows from R113; `95_test_vectors.md` V-P2). -/
def permSource (q : Nat) : Nat := 4 * (q % 16) + q / 16

/-- `PLayer(s)`: output bit `P(b)` is bit `b`, so output bit `q` comes from `permSource q` (R114). -/
def pLayer (s : Block) : Block := ofBits 64 fun q => s.getLsbD (permSource q)

/-- `RK(K) = K[79:16]` (R115). -/
def roundKey (k : Key) : Block := k.extractLsb' 16 64

/-- `ARK(s, K)` (R116). -/
def ark (s : Block) (k : Key) : Block := s ^^^ roundKey k

/-- `SRound(s, K)` (R117). -/
def sRound (s : Block) (k : Key) : Block := pLayer (subLayer (ark s k))

/-- `Rot(K) = K[18:0] : K[79:19]` (R181; the direction is settled by `90_conflicts.md` C1). -/
def rot (k : Key) : Key := k.extractLsb' 0 19 ++ k.extractLsb' 19 61

/-- `Splice(K) = K with [79:76] = SBOX[K[79:76]]` (R182). -/
def splice (k : Key) : Key := sbox (k.extractLsb' 76 4) ++ k.extractLsb' 0 76

/-- `Inject(K, r) = K with [19:15] = K[19:15] ^ r` (R183). -/
def inject (k : Key) (r : Round) : Key :=
  k.extractLsb' 20 60 ++ (k.extractLsb' 15 5 ^^^ r) ++ k.extractLsb' 0 15

/-- `KSAdvance(K, r)` (R184). -/
def ksAdvance (k : Key) (r : Round) : Key := inject (splice (rot k)) r

/-- The key register after `n` advances with `r = 1, ..., n`: `K_{n+1}` of R124. -/
def keyAfter (k : Key) : Nat → Key
  | 0 => k
  | n + 1 => ksAdvance (keyAfter k n) (BitVec.ofNat 5 (n + 1))

/-- The block after rounds `1, ..., n` of R123, without the trailing key mix. -/
def blockAfter (p : Block) (k : Key) : Nat → Block
  | 0 => p
  | n + 1 => sRound (blockAfter p k n) (keyAfter k n)

/-- `PRESENT80(p, K0)`: the ciphertext and the final key (R123). -/
def present80 (p : Block) (k : Key) : Block × Key :=
  (ark (blockAfter p k Config.rounds) (keyAfter k Config.rounds), keyAfter k Config.rounds)

end Sys2Proof.Machine
end

