-- ==== Sys2Proof/Machine/Sliced.lean ====
section
/-! DEFINITION. The pure functions of the bit-sliced round and the layout converter
(`41_bitsliced_engine.md` R141 to R148, `42_layout_converter.md` R170, R171). -/

namespace Sys2Proof.Machine

/-- `ALL_ONES` for `W = 32` (R141). -/
def allOnesWord : Word := 0xFFFFFFFF

/-- `bcast(b)` (R141). -/
def bcast (b : Bool) : Word := if b then allOnesWord else 0

/-- `BSArk(R, K)` (R142). -/
def bsArk (r : Slices) (k : Key) : Slices :=
  Vector.ofFn fun i => r[i] ^^^ bcast (k.getLsbD (16 + i))

/-- `y0` of R143. -/
def bsY0 (x0 x1 x2 x3 : Word) : Word := x0 ^^^ (x1 &&& x2) ^^^ x2 ^^^ x3

/-- `y1` of R143. -/
def bsY1 (x0 x1 x2 x3 : Word) : Word :=
  ((x0 &&& x1) &&& (x2 ^^^ x3)) ^^^ (x3 &&& x1) ^^^ x1 ^^^ (x0 &&& (x2 &&& x3)) ^^^ (x2 &&& x3) ^^^ x3

/-- `y2` of R143. -/
def bsY2 (x0 x1 x2 x3 : Word) : Word :=
  (x0 &&& x1) ^^^ ((x0 &&& x3) &&& x1) ^^^ (x3 &&& x1) ^^^ x2 ^^^ (x0 &&& x3) ^^^
    ((x0 &&& x3) &&& x2) ^^^ x3 ^^^ allOnesWord

/-- `y3` of R143. -/
def bsY3 (x0 x1 x2 x3 : Word) : Word :=
  ((x1 &&& x2) &&& x0) ^^^ ((x3 &&& x0) &&& (x1 ^^^ x2)) ^^^ x0 ^^^ x1 ^^^ (x1 &&& x2) ^^^ x3 ^^^
    allOnesWord

/-- `BSSbox4(x0, x1, x2, x3)`, its four outputs by number: the four fixed Boolean formulas (R143). -/
def bsSbox4 (x0 x1 x2 x3 : Word) (t : Nat) : Word :=
  match t with
  | 0 => bsY0 x0 x1 x2 x3
  | 1 => bsY1 x0 x1 x2 x3
  | 2 => bsY2 x0 x1 x2 x3
  | _ => bsY3 x0 x1 x2 x3

/-- `BSSub(R)`: register `4g + t` becomes output `t` of group `g` (R144). -/
def bsSub (r : Slices) : Slices :=
  Vector.ofFn fun i : Fin 64 =>
    bsSbox4 (r[4 * (i.val / 4)]'(by omega)) (r[4 * (i.val / 4) + 1]'(by omega))
      (r[4 * (i.val / 4) + 2]'(by omega)) (r[4 * (i.val / 4) + 3]'(by omega)) (i.val % 4)

/-- `BSPerm(R)`: register `P(i)` becomes register `i` (R145). -/
def bsPerm (r : Slices) : Slices :=
  Vector.ofFn fun q : Fin 64 => r[permSource q.val]'(by unfold permSource; omega)

/-- `BSRound(R, K)` (R146). -/
def bsRound (r : Slices) (k : Key) : Slices := bsPerm (bsSub (bsArk r k))

/-- The slice file after rounds `1, ..., n` of R147, without the trailing key mix. -/
def slicesAfter (r : Slices) (k : Key) : Nat → Slices
  | 0 => r
  | n + 1 => bsRound (slicesAfter r k n) (keyAfter k n)

/-- `BSEncrypt(R, K0)`: the slice file and the final key (R147). -/
def bsEncryptSlices (r : Slices) (k : Key) : Slices × Key :=
  (bsArk (slicesAfter r k Config.rounds) (keyAfter k Config.rounds), keyAfter k Config.rounds)

/-- `lane_j(R)`: the block whose bit `i` is bit `j` of register `i` (R140, R148). -/
def lane (r : Slices) (j : Nat) : Block :=
  ofBits 64 fun i => if h : i < 64 then r[i].getLsbD j else false

/-- `toSliced(B)`: bit `j` of register `i` is bit `i` of block `j` (R170). -/
def toSliced (b : Batch) : Slices :=
  Vector.ofFn fun i : Fin 64 => ofBits 32 fun j => if h : j < 32 then b[j].getLsbD i else false

/-- `fromSliced(R)`: block `j` is lane `j` (R171, R148). -/
def fromSliced (r : Slices) : Batch := Vector.ofFn fun j : Fin 32 => lane r j

end Sys2Proof.Machine
end

