-- ==== Sys2Proof/Syntax.lean ====
section
/-! DEFINITION. The command set: one constructor for each row of `spec/opcode_table.json`
(`30_encoding.md` R93). -/

namespace Sys2Proof

/-- A command of the CORE (R93). The three commands with a round operand carry the 5-bit field `R`
as it stands in the word (R91, R92). -/
inductive Instr where
  /-- `NOP` (R198). -/
  | nop
  /-- `SE_ARK` (R118). -/
  | seArk
  /-- `SE_SBOX` (R119). -/
  | seSbox
  /-- `SE_PERM` (R120). -/
  | sePerm
  /-- `SE_ROUND r` (R121). -/
  | seRound (r : Round)
  /-- `SE_ENCRYPT` (R122). -/
  | seEncrypt
  /-- `KS_ADV r` (R187). -/
  | ksAdv (r : Round)
  /-- `BS_ENSLICE` (R174). -/
  | bsEnslice
  /-- `BS_UNSLICE` (R175). -/
  | bsUnslice
  /-- `BS_ARK` (R150). -/
  | bsArk
  /-- `BS_SBOX` (R151). -/
  | bsSbox
  /-- `BS_PERM` (R152). -/
  | bsPerm
  /-- `BS_ROUND r` (R153). -/
  | bsRound (r : Round)
  /-- `BS_ENCRYPT` (R154). -/
  | bsEncrypt
  deriving DecidableEq, Repr

end Sys2Proof
end

