-- ==== Sys2Proof/WellFormed.lean ====
section
/-! DEFINITION. Which commands have a legal word (`30_encoding.md` R94, R95, R99). -/

namespace Sys2Proof

/-- A round index is in 1..31: a 5-bit field that is not 0 (R94, D13). -/
def Round.inDomain (r : Round) : Bool := r != 0

/-- The command has a legal word: a round operand is in 1..31 (R94). The commands without an operand
have exactly one word each, so nothing can be wrong with them. -/
def Instr.wellFormed : Instr → Bool
  | .seRound r => r.inDomain
  | .ksAdv r => r.inDomain
  | .bsRound r => r.inDomain
  | .nop | .seArk | .seSbox | .sePerm | .seEncrypt => true
  | .bsEnslice | .bsUnslice | .bsArk | .bsSbox | .bsPerm | .bsEncrypt => true

end Sys2Proof
end

