-- ==== Sys2Proof/Machine/BitSlicedEngine.lean ====
section
/-! DEFINITION. The bit-sliced commands (`41_bitsliced_engine.md` section 3). -/

namespace Sys2Proof.Machine

/-- `SLICE <- BSArk(SLICE, KEY)` (R150, R206). -/
def CoreRegs.mixKeySliced (c : CoreRegs) : CoreRegs := c.setSlice (bsArk c.slice c.key)

/-- `let K = KEY; SLICE <- BSRound(SLICE, K); KEY <- KSAdvance(K, r)` (R153, R205). -/
def CoreRegs.slicedRound (r : Round) (c : CoreRegs) : CoreRegs :=
  (c.setSlice (bsRound c.slice c.key)).setKey (ksAdvance c.key r)

/-- `BS_ARK` (R150). -/
def execBsArk (s : State) : Host.Outcome State Fault Refusal :=
  present true (perform .mixKeySliced) s

/-- `BS_SBOX`: `SLICE <- BSSub(SLICE)` (R151). -/
def execBsSbox (s : State) : Host.Outcome State Fault Refusal :=
  present true (perform fun c => c.setSlice (bsSub c.slice)) s

/-- `BS_PERM`: `SLICE <- BSPerm(SLICE)` (R152). -/
def execBsPerm (s : State) : Host.Outcome State Fault Refusal :=
  present true (perform fun c => c.setSlice (bsPerm c.slice)) s

/-- `BS_ROUND r`; `ERR_CMD` if `r = 0` (R153). -/
def execBsRound (r : Round) (s : State) : Host.Outcome State Fault Refusal :=
  present r.inDomain (perform (.slicedRound r)) s

/-- `BS_ENCRYPT`: acceptance; the 34 engine steps follow (R154, R200, `Machine/EngineStep.lean`). -/
def execBsEncrypt (s : State) : Host.Outcome State Fault Refusal :=
  present true (start .bsIn 0) s

end Sys2Proof.Machine
end

