-- ==== Sys2Proof/Machine/LayoutConverter.lean ====
section
/-! DEFINITION. The layout commands (`42_layout_converter.md` section 2). -/

namespace Sys2Proof.Machine

/-- `SLICE <- toSliced(BLK)` (R174, R204). -/
def CoreRegs.sliceBatch (c : CoreRegs) : CoreRegs := c.setSlice (toSliced c.blk)

/-- `BLK <- fromSliced(SLICE)` (R175, R207). -/
def CoreRegs.unsliceBatch (c : CoreRegs) : CoreRegs := c.setBlk (fromSliced c.slice)

/-- `BS_ENSLICE` (R174). -/
def execBsEnslice (s : State) : Host.Outcome State Fault Refusal :=
  present true (perform .sliceBatch) s

/-- `BS_UNSLICE` (R175). -/
def execBsUnslice (s : State) : Host.Outcome State Fault Refusal :=
  present true (perform .unsliceBatch) s

end Sys2Proof.Machine
end

