-- ==== Sys2Proof/Machine/ScalarEngine.lean ====
section
/-! DEFINITION. The scalar commands (`40_scalar_engine.md` section 2). -/

namespace Sys2Proof.Machine

/-- `STATE <- ARK(STATE, KEY)` (R118, R203). -/
def CoreRegs.mixKey (c : CoreRegs) : CoreRegs := c.setState (ark c.state c.key)

/-- `let K = KEY; STATE <- SRound(STATE, K); KEY <- KSAdvance(K, r)` (R121, R202). -/
def CoreRegs.scalarRound (r : Round) (c : CoreRegs) : CoreRegs :=
  (c.setState (sRound c.state c.key)).setKey (ksAdvance c.key r)

/-- `SE_ARK` (R118). -/
def execSeArk (s : State) : Host.Outcome State Fault Refusal := present true (perform .mixKey) s

/-- `SE_SBOX`: `STATE <- SubLayer(STATE)` (R119). -/
def execSeSbox (s : State) : Host.Outcome State Fault Refusal :=
  present true (perform fun c => c.setState (subLayer c.state)) s

/-- `SE_PERM`: `STATE <- PLayer(STATE)` (R120). -/
def execSePerm (s : State) : Host.Outcome State Fault Refusal :=
  present true (perform fun c => c.setState (pLayer c.state)) s

/-- `SE_ROUND r`; `ERR_CMD` if `r = 0` (R121). -/
def execSeRound (r : Round) (s : State) : Host.Outcome State Fault Refusal :=
  present r.inDomain (perform (.scalarRound r)) s

/-- `SE_ENCRYPT`: acceptance; the 32 engine steps follow (R122, R200, `Machine/EngineStep.lean`). -/
def execSeEncrypt (s : State) : Host.Outcome State Fault Refusal :=
  present true (start .seRound 1) s

end Sys2Proof.Machine
end

