-- ==== Sys2Proof/Machine/EngineStep.lean ====
section
/-! DEFINITION. The round state machine: one engine step (`44_control_fsm.md` section 3). -/

namespace Sys2Proof.Machine

/-- After the round with index `r`: on to `last` with `rnd <- 0` if `r = 31`, else `rnd <- r + 1` (R202,
R205). -/
def CoreRegs.nextRound (last : Phase) (c : CoreRegs) : CoreRegs :=
  if c.rnd = 31 then c.setControl last 0 else c.setControl c.phase (c.rnd + 1)

/-- The last step of a compound command: `phase <- IDLE; DONE <- 1`. No rule makes it write `rnd`, which
is already 0 (R203, R207, R209). -/
def CoreRegs.complete (c : CoreRegs) : CoreRegs := (c.setControl .idle c.rnd).setDone true

/-- `EngineStep()` (R201 to R207). With `phase = IDLE` the engine has no step, and nothing changes. -/
def CoreRegs.engineStep (c : CoreRegs) : CoreRegs :=
  match c.phase with
  | .idle => c
  | .seRound => (c.scalarRound c.rnd).nextRound .seFinal
  | .seFinal => c.mixKey.complete
  | .bsIn => c.sliceBatch.setControl .bsRound 1
  | .bsRound => (c.slicedRound c.rnd).nextRound .bsFinal
  | .bsFinal => c.mixKeySliced.setControl .bsOut c.rnd
  | .bsOut => c.unsliceBatch.complete

end Sys2Proof.Machine
end

