-- ==== Sys2Proof/Decode.lean ====
section
/-! DEFINITION. Command words: fields, decoder, legality, encoder, opcode table and disassembly
(`30_encoding.md` R90 to R96, R99, R100). -/

namespace Sys2Proof

/-- Field `OPC`, bits 7:0 (R91). -/
def opcOf (c : Word) : BitVec 8 := c.extractLsb' 0 8

/-- Field `R`, bits 12:8: the round operand, used as it is (R91, R92). -/
def rOf (c : Word) : Round := c.extractLsb' 8 5

/-- Field `Z`, bits 31:13, which must be 0 (R91). -/
def zOf (c : Word) : BitVec 19 := c.extractLsb' 13 19

/-- Why a word is no command (R95). The hardware records the same `ERR_CMD` for all of them (R231). -/
inductive DecodeError where
  /-- `Z != 0`. -/
  | reservedBits
  /-- An `OPC` value that R93 does not list. -/
  | unknownOpcode
  /-- `R != 0` for an opcode without an operand. -/
  | operandNotZero
  /-- `R = 0` for `SE_ROUND`, `KS_ADV` or `BS_ROUND`. -/
  | operandZero
  /-- Fewer than four bytes: a command is exactly one 32-bit word (R90). -/
  | truncated
  deriving DecidableEq, Repr

/-- A command without an operand: its `R` field must be 0 (R91). -/
def decodePlain (i : Instr) (r : Round) : Except DecodeError Instr :=
  if r = 0 then .ok i else .error .operandNotZero

/-- A command with a round operand: its `R` field must be in 1..31 (R91, R94). -/
def decodeRound (i : Round → Instr) (r : Round) : Except DecodeError Instr :=
  if r = 0 then .error .operandZero else .ok (i r)

/-- The opcode map (R93): what an `OPC` value makes of the round field. -/
def decodeOpcode (opc : Nat) (r : Round) : Except DecodeError Instr :=
  match opc with
  | 0x00 => decodePlain .nop r
  | 0x01 => decodePlain .seArk r
  | 0x02 => decodePlain .seSbox r
  | 0x03 => decodePlain .sePerm r
  | 0x04 => decodeRound .seRound r
  | 0x05 => decodePlain .seEncrypt r
  | 0x10 => decodeRound .ksAdv r
  | 0x20 => decodePlain .bsEnslice r
  | 0x21 => decodePlain .bsUnslice r
  | 0x22 => decodePlain .bsArk r
  | 0x23 => decodePlain .bsSbox r
  | 0x24 => decodePlain .bsPerm r
  | 0x25 => decodeRound .bsRound r
  | 0x26 => decodePlain .bsEncrypt r
  | _ => .error .unknownOpcode

/-- The command decoder, total on all words (R94). -/
def decode (c : Word) : Except DecodeError Instr :=
  if zOf c = 0 then decodeOpcode (opcOf c).toNat (rOf c) else .error .reservedBits

/-- The word whose byte lanes are `b0` (lane 0, least significant) to `b3` (R65). -/
def wordOfLanes (b0 b1 b2 b3 : Byte) : Word := b3 ++ b2 ++ b1 ++ b0

/-- The decoder on bytes in lane order (R65): one command is four bytes, and the rest is handed back. -/
def decodeBytes : List Byte → Except DecodeError (Instr × List Byte)
  | b0 :: b1 :: b2 :: b3 :: rest =>
    match decode (wordOfLanes b0 b1 b2 b3) with
    | .ok i => .ok (i, rest)
    | .error e => .error e
  | _ => .error .truncated

/-- `Legal(c)`, written as R94 writes it and independently of the decoder. -/
def legal (c : Word) : Bool :=
  let opc := (opcOf c).toNat
  let r := rOf c
  if zOf c != 0 then false
  else if opc ∈ [0x04, 0x10, 0x25] then r != 0
  else if opc ∈ [0x00, 0x01, 0x02, 0x03, 0x05, 0x20, 0x21, 0x22, 0x23, 0x24, 0x26] then r == 0
  else false

/-- `OPC(MNEMONIC)` (R93). -/
def Instr.opc : Instr → BitVec 8
  | .nop => 0x00
  | .seArk => 0x01
  | .seSbox => 0x02
  | .sePerm => 0x03
  | .seRound _ => 0x04
  | .seEncrypt => 0x05
  | .ksAdv _ => 0x10
  | .bsEnslice => 0x20
  | .bsUnslice => 0x21
  | .bsArk => 0x22
  | .bsSbox => 0x23
  | .bsPerm => 0x24
  | .bsRound _ => 0x25
  | .bsEncrypt => 0x26

/-- The command takes a round operand (R93). -/
def Instr.takesRound : Instr → Bool
  | .seRound _ | .ksAdv _ | .bsRound _ => true
  | .nop | .seArk | .seSbox | .sePerm | .seEncrypt => false
  | .bsEnslice | .bsUnslice | .bsArk | .bsSbox | .bsPerm | .bsEncrypt => false

/-- The `R` field of the command's word: its operand, or 0 where it takes none (R91). -/
def Instr.operand : Instr → Round
  | .seRound r | .ksAdv r | .bsRound r => r
  | .nop | .seArk | .seSbox | .sePerm | .seEncrypt => 0
  | .bsEnslice | .bsUnslice | .bsArk | .bsSbox | .bsPerm | .bsEncrypt => 0

/-- The mnemonic, letter for letter as R93 has it. -/
def Instr.mnemonic : Instr → String
  | .nop => "NOP"
  | .seArk => "SE_ARK"
  | .seSbox => "SE_SBOX"
  | .sePerm => "SE_PERM"
  | .seRound _ => "SE_ROUND"
  | .seEncrypt => "SE_ENCRYPT"
  | .ksAdv _ => "KS_ADV"
  | .bsEnslice => "BS_ENSLICE"
  | .bsUnslice => "BS_UNSLICE"
  | .bsArk => "BS_ARK"
  | .bsSbox => "BS_SBOX"
  | .bsPerm => "BS_PERM"
  | .bsRound _ => "BS_ROUND"
  | .bsEncrypt => "BS_ENCRYPT"

/-- `encode(MNEMONIC, r)` for any `r`, legal or not: `zext_32(r) << 8 | zext_32(OPC)` (R99). -/
def encodeWord (opc : BitVec 8) (r : Round) : Word :=
  (r.setWidth 32 <<< 8) ||| opc.setWidth 32

/-- The word of a command (R99). -/
def encode (i : Instr) : Word := encodeWord i.opc i.operand

/-- One row of the opcode table (R96): a word belongs to it when its bits under `mask` are `pattern`
and, where the row takes an operand, the operand field is not 0. -/
structure OpcodeRow where
  mnemonic : String
  pattern : Word
  mask : Word
  takesRound : Bool
  deriving DecidableEq, Repr

/-- The word belongs to the row (R96). -/
def OpcodeRow.covers (row : OpcodeRow) (c : Word) : Bool :=
  (c &&& row.mask == row.pattern) && (!row.takesRound || rOf c != 0)

/-- `spec/opcode_table.json`, row by row with its `match` and `mask` (R96). -/
def opcodeTable : List OpcodeRow :=
  [⟨"NOP", 0x00000000, 0xFFFFFFFF, false⟩,
   ⟨"SE_ARK", 0x00000001, 0xFFFFFFFF, false⟩,
   ⟨"SE_SBOX", 0x00000002, 0xFFFFFFFF, false⟩,
   ⟨"SE_PERM", 0x00000003, 0xFFFFFFFF, false⟩,
   ⟨"SE_ROUND", 0x00000004, 0xFFFFE0FF, true⟩,
   ⟨"SE_ENCRYPT", 0x00000005, 0xFFFFFFFF, false⟩,
   ⟨"KS_ADV", 0x00000010, 0xFFFFE0FF, true⟩,
   ⟨"BS_ENSLICE", 0x00000020, 0xFFFFFFFF, false⟩,
   ⟨"BS_UNSLICE", 0x00000021, 0xFFFFFFFF, false⟩,
   ⟨"BS_ARK", 0x00000022, 0xFFFFFFFF, false⟩,
   ⟨"BS_SBOX", 0x00000023, 0xFFFFFFFF, false⟩,
   ⟨"BS_PERM", 0x00000024, 0xFFFFFFFF, false⟩,
   ⟨"BS_ROUND", 0x00000025, 0xFFFFE0FF, true⟩,
   ⟨"BS_ENCRYPT", 0x00000026, 0xFFFFFFFF, false⟩]

/-- One hexadecimal digit. The spec prints its digits in capitals; R100 does not say (log entry 9). -/
def hexDigit (n : BitVec 4) : Char :=
  ['0', '1', '2', '3', '4', '5', '6', '7', '8', '9', 'A', 'B', 'C', 'D', 'E', 'F'].getD n.toNat '0'

/-- The eight hexadecimal digits of a word, most significant first (R13). -/
def hexDigits (c : Word) : List Char :=
  [7, 6, 5, 4, 3, 2, 1, 0].map fun k => hexDigit (c.extractLsb' (4 * k) 4)

/-- The disassembler (R100): a legal word prints as its mnemonic and, for the three operand-taking
opcodes, a space and the operand in decimal; any other word prints as data and is not a command. -/
def disassemble (c : Word) : String :=
  match decode c with
  | .ok i => if i.takesRound then i.mnemonic ++ " " ++ Nat.repr i.operand.toNat else i.mnemonic
  | .error _ => ".word 0x" ++ String.ofList (hexDigits c)

/-- The decoder's reading of the `nbits`-bit instruction `w`, laid out in its four byte lanes; bits
above `nbits` are 0. A word of more than 32 bits is no command (R90). -/
def decodeTableWord (nbits w : Nat) : Option Instr :=
  let v := w % 2 ^ nbits
  if v < 2 ^ 32 then
    let c := BitVec.ofNat 32 v
    match decodeBytes [c.extractLsb' 0 8, c.extractLsb' 8 8, c.extractLsb' 16 8, c.extractLsb' 24 8] with
    | .ok (i, _) => some i
    | .error _ => none
  else none

end Sys2Proof
end

