-- ==== Sys2Proof/Machine/ControlUnit.lean ====
section
/-! DEFINITION. The command that no engine runs (`44_control_fsm.md` section 2). -/

namespace Sys2Proof.Machine

/-- `NOP`: no state changes, `DONE` included (R198). -/
def execNop (s : State) : Host.Outcome State Fault Refusal := present true (fun c => c) s

end Sys2Proof.Machine
end

