-- ==== Sys2Proof/Machine/KeyScheduleUnit.lean ====
section
/-! DEFINITION. The key-schedule command (`43_key_schedule.md` section 2). -/

namespace Sys2Proof.Machine

/-- `KS_ADV r`: `KEY <- KSAdvance(KEY, r)`; `ERR_CMD` if `r = 0` (R187). -/
def execKsAdv (r : Round) (s : State) : Host.Outcome State Fault Refusal :=
  present r.inDomain (perform fun c => c.setKey (ksAdvance c.key r)) s

end Sys2Proof.Machine
end

