-- ==== Sys2Proof/Machine/Dispatch.lean ====
section
/-! DEFINITION. A command presented at `CMD`, one arm per row of the opcode map (`30_encoding.md` R93). -/

namespace Sys2Proof.Machine

def exec (i : Instr) (s : State) : Host.Outcome State Fault Refusal :=
  match i with
  | .nop => Sys2Proof.Machine.execNop s
  | .seArk => Sys2Proof.Machine.execSeArk s
  | .seSbox => Sys2Proof.Machine.execSeSbox s
  | .sePerm => Sys2Proof.Machine.execSePerm s
  | .seRound r => Sys2Proof.Machine.execSeRound r s
  | .seEncrypt => Sys2Proof.Machine.execSeEncrypt s
  | .ksAdv r => Sys2Proof.Machine.execKsAdv r s
  | .bsEnslice => Sys2Proof.Machine.execBsEnslice s
  | .bsUnslice => Sys2Proof.Machine.execBsUnslice s
  | .bsArk => Sys2Proof.Machine.execBsArk s
  | .bsSbox => Sys2Proof.Machine.execBsSbox s
  | .bsPerm => Sys2Proof.Machine.execBsPerm s
  | .bsRound r => Sys2Proof.Machine.execBsRound r s
  | .bsEncrypt => Sys2Proof.Machine.execBsEncrypt s

end Sys2Proof.Machine
end

