-- ==== Sys2Proof/Machine/Window.lean ====
section
/-! DEFINITION. The register window: the address map, the host's reads and writes, and the command
port (`20_memory.md` R60 to R72, `44_control_fsm.md` R196). -/

namespace Sys2Proof.Machine

/-- The address map (R61): the register word at an aligned offset, or none where it is reserved. -/
def portAt (off : Nat) : Option Port :=
  if off = 0x000 then some .cmd
  else if off = 0x004 then some .status
  else if off = 0x010 then some .key0
  else if off = 0x014 then some .key1
  else if off = 0x018 then some .key2
  else if off = 0x020 then some .sdata0
  else if off = 0x024 then some .sdata1
  else if h : 0x100 ≤ off ∧ off ≤ 0x1FC then some (.batch ⟨(off - 0x100) / 4, by omega⟩)
  else if h : 0x200 ≤ off ∧ off ≤ 0x2FC then some (.slice ⟨(off - 0x200) / 4, by omega⟩)
  else none

/-- Which register word an access of `size` bytes at `off` reaches. A wrong size, a misaligned offset
and a reserved offset end with a bus error (R62, R63, R234); an offset outside the window is no
access of the CORE's (R60). -/
def access (off size : Nat) : Host.Outcome Port Fault Refusal :=
  if Config.windowBytes ≤ off then .refused (.outsideWindow off)
  else if size ≠ Config.accessBytes ∨ off % 4 ≠ 0 then .fault (.busError off)
  else
    match portAt off with
    | some p => .next p
    | none => .fault (.busError off)

/-- What a read of a register word returns: `CMD` reads 0 and `STATUS` its word in every phase; a data
register reads 0 while busy (R67, R69). -/
def CoreRegs.readWord (c : CoreRegs) (p : Port) : Word :=
  match p with
  | .cmd | .status => c.readPort p
  | .key0 | .key1 | .key2 | .sdata0 | .sdata1 | .batch _ | .slice _ =>
    if c.busy then 0 else c.readPort p

/-- `MemRead(off, n)` (R67). A read changes no state (R72), so it returns the word alone. -/
def memRead (off size : Nat) (c : CoreRegs) : Host.Outcome Word Fault Refusal :=
  match access off size with
  | .next p => .next (c.readWord p)
  | .fault f => .fault f
  | .refused r => .refused r

/-- `Command(c)`: an illegal word sets `ERR_CMD`, a legal one is the command's meaning (R196). -/
def command (c : Word) (s : State) : Host.Outcome State Fault Refusal :=
  match decode c with
  | .ok i => exec i s
  | .error _ => .next (s.withRegs s.regs.takeErrCmd)

/-- A write of a register word: write-1-to-clear for `STATUS` in every phase; while busy every other
write is turned away with `ERR_BUSY`; otherwise `CMD` runs the decoder and a data register word is
replaced (R68, R70, R234). -/
def writeWord (p : Port) (v : Word) (s : State) : Host.Outcome State Fault Refusal :=
  match p with
  | .status => .next (s.withRegs (s.regs.leaveErrors v))
  | .cmd => if s.regs.busy then .next (s.withRegs s.regs.takeErrBusy) else command v s
  | .key0 | .key1 | .key2 | .sdata0 | .sdata1 | .batch _ | .slice _ =>
    .next (s.withRegs (if s.regs.busy then s.regs.takeErrBusy else s.regs.writePort p v))

/-- `MemWrite(off, n, v)` (R68). -/
def memWrite (off size : Nat) (v : Word) (s : State) : Host.Outcome State Fault Refusal :=
  match access off size with
  | .next p => writeWord p v s
  | .fault f => .fault f
  | .refused r => .refused r

/-- The window offset of a bus address, for a window placed at `base` (`CORE_BASE`); none outside the
window (R60). -/
def windowOffset (base addr : Nat) : Option Nat :=
  if base ≤ addr ∧ addr < base + Config.windowBytes then some (addr - base) else none

/-- A bus read at an address: none where it is not the CORE's (R60), else `MemRead` at its offset. -/
def busRead (base addr size : Nat) (c : CoreRegs) : Option (Host.Outcome Word Fault Refusal) :=
  (windowOffset base addr).map fun off => memRead off size c

/-- A bus write at an address: none where it is not the CORE's (R60), else `MemWrite` at its offset. -/
def busWrite (base addr size : Nat) (v : Word) (s : State) :
    Option (Host.Outcome State Fault Refusal) :=
  (windowOffset base addr).map fun off => memWrite off size v s

end Sys2Proof.Machine
end

