-- ==== Sys2Proof/Machine/HostAgent.lean ====
section
/-! DEFINITION. The agents' turns: the host's next operation, an engine step, reset
(`44_control_fsm.md` R195, `30_encoding.md` R97, `70_reset_and_hazards.md` R260, R261), and the
pseudo-instructions of `30_encoding.md` R98. -/

namespace Sys2Proof.Machine

/-- The value of a host variable; one that no read has assigned holds a free value (log entry 5). -/
def varsGet (vars : List (Nat × HostVal)) (x : Nat) : HostVal :=
  match vars with
  | [] => Config.hostVarInit x
  | (y, w) :: rest => if x = y then w else varsGet rest x

/-- Assigning a host variable, keeping the list sorted and without repeats. -/
def varsSet (vars : List (Nat × HostVal)) (x : Nat) (v : HostVal) : List (Nat × HostVal) :=
  match vars with
  | [] => [(x, v)]
  | (y, w) :: rest =>
    if x < y then (x, v) :: (y, w) :: rest
    else if x = y then (x, v) :: rest
    else (y, w) :: varsSet rest x v

/-- The canonical form of the host's variables: strictly rising. -/
def varsSorted : List (Nat × HostVal) → Bool
  | [] => true
  | [_] => true
  | (x, _) :: (y, w) :: rest => x < y && varsSorted ((y, w) :: rest)

/-- The host moves on to line `n`. -/
def State.jump (s : State) (n : Nat) : State := { s with host := { s.host with pc := n } }

/-- The host moves on to its next line. -/
def State.advance (s : State) : State := s.jump (s.host.pc + 1)

/-- `<name> <- v` in the host (R97). -/
def State.setVar (s : State) (x : Nat) (v : HostVal) : State :=
  { s with host := { s.host with vars := varsSet s.host.vars x v } }

/-- The word in a host variable: its low 32 bits (R98, log entry 23). -/
def State.varWord (s : State) (x : Nat) : Word := (varsGet s.host.vars x).extractLsb' 0 32

/-- `b : a`, the block of two words (R98). -/
def blockOfWords (a b : Word) : Block := b ++ a

/-- `c[15:0] : b : a`, the key of three words (R98). -/
def keyOfWords (a b c : Word) : Key := c.extractLsb' 0 16 ++ b ++ a

/-- One line of the host program (R97, R98). -/
def hostOp (op : HostOp) (s : State) : Host.Outcome State Fault Refusal :=
  match op with
  | .write off size v => memWrite off size v s.advance
  | .read off size x =>
    match memRead off size s.regs with
    | .next v => .next (s.advance.setVar x (v.setWidth 80))
    | .fault f => .fault f
    | .refused r => .refused r
  | .bnz x bit target =>
    .next (if (varsGet s.host.vars x).getLsbD bit then s.jump target else s.advance)
  | .joinBlock x a b =>
    .next (s.advance.setVar x ((blockOfWords (s.varWord a) (s.varWord b)).setWidth 80))
  | .joinKey x a b c =>
    .next (s.advance.setVar x (keyOfWords (s.varWord a) (s.varWord b) (s.varWord c)))

/-- The host's turn: its next operation, or nothing once its program is done (R273, R243). -/
def hostTurn (s : State) : Host.Outcome State Fault Refusal :=
  match s.host.prog[s.host.pc]? with
  | some op => hostOp op s
  | none => .next s

/-- The engine's turn: one engine step (R201). -/
def engineTurn (s : State) : Host.Outcome State Fault Refusal :=
  .next (s.withRegs s.regs.engineStep)

/-- The reset event, at any time and in any phase (R260 to R262). It resets the CORE, not the host. -/
def resetTurn (s : State) : Host.Outcome State Fault Refusal := .next (s.withRegs .reset)

/-- The event of one turn (R195). -/
def takeTurn (t : Turn) (s : State) : Host.Outcome State Fault Refusal :=
  match t with
  | .host => hostTurn s
  | .engine => engineTurn s
  | .reset => resetTurn s

/-- Whose turn it is when `turns` names nobody: the engine while it has a step, so that it is fair
(R210), else the host (log entry 2). -/
def defaultTurn (s : State) : Turn := if s.regs.busy then .engine else .host

/-- One event: the first of `turns`, or the default turn when none is left (R195). -/
def nextEvent (s : State) : Host.Outcome State Fault Refusal :=
  match s.turns with
  | [] => takeTurn (defaultTurn s) s
  | t :: rest => takeTurn t { s with turns := rest }

/-- The host program with one line put in place at line `n`, the rest as it was. -/
def progWithLine (prog : List HostOp) (n : Nat) (op : HostOp) : List HostOp :=
  prog.take n ++ op :: prog.drop (n + 1)

/-- The machine about to run one host operation: the operation stands at the host's next line (behind
the last line, for a host whose program is done), and the host's turn comes first. -/
def State.withHostOp (s : State) (op : HostOp) : State :=
  let n := min s.host.pc s.host.prog.length
  { s with
    host := { s.host with prog := progWithLine s.host.prog n op, pc := n }
    turns := .host :: s.turns }

/-- `W32 <off>, <v>` (R97). -/
def w32 (off : Nat) (v : Word) : HostOp := .write off 4 v

/-- `R32 <off> -> <x>` (R97). -/
def r32 (off : Nat) (x : Nat) : HostOp := .read off 4 x

/-- `CMD <MNEMONIC> <r>`: `W32 0x000, encode(MNEMONIC, r)` for any mnemonic and any `r`, legal or not
(R98, R99). `m` is any command that has the mnemonic. -/
def pseudoCmdWith (m : Instr) (r : Round) : List HostOp := [w32 0x000 (encodeWord m.opc r)]

/-- `CMD <MNEMONIC>`: `W32 0x000, encode(MNEMONIC, 0)` (R98). -/
def pseudoCmd (m : Instr) : List HostOp := pseudoCmdWith m 0

/-- `WAIT` on line `l`, through the host variable `t` (R98). -/
def pseudoWait (l t : Nat) : List HostOp := [r32 0x004 t, .bnz t 0 l]

/-- `LDKEY <k>` (R98). -/
def pseudoLdKey (k : Key) : List HostOp :=
  [w32 0x010 (k.extractLsb' 0 32), w32 0x014 (k.extractLsb' 32 32),
   w32 0x018 ((k.extractLsb' 64 16).setWidth 32)]

/-- `RDKEY -> <n>`, through the host variables `a`, `b`, `c` (R98). -/
def pseudoRdKey (n a b c : Nat) : List HostOp :=
  [r32 0x010 a, r32 0x014 b, r32 0x018 c, .joinKey n a b c]

/-- `LDSTATE <v>` (R98). -/
def pseudoLdState (v : Block) : List HostOp :=
  [w32 0x020 (v.extractLsb' 0 32), w32 0x024 (v.extractLsb' 32 32)]

/-- `RDSTATE -> <n>`, through the host variables `a`, `b` (R98). -/
def pseudoRdState (n a b : Nat) : List HostOp := [r32 0x020 a, r32 0x024 b, .joinBlock n a b]

/-- `LDBLK <j>, <v>` (R98). -/
def pseudoLdBlk (j : Nat) (v : Block) : List HostOp :=
  [w32 (0x100 + 8 * j) (v.extractLsb' 0 32), w32 (0x104 + 8 * j) (v.extractLsb' 32 32)]

/-- `RDBLK <j> -> <n>`, through the host variables `a`, `b` (R98). -/
def pseudoRdBlk (j n a b : Nat) : List HostOp :=
  [r32 (0x100 + 8 * j) a, r32 (0x104 + 8 * j) b, .joinBlock n a b]

/-- `CLRST` (R98). -/
def pseudoClrSt : List HostOp := [w32 0x004 0x0000000E]

end Sys2Proof.Machine
end

