-- ==== Sys2Proof/Machine/Step.lean ====
section
/-! DEFINITION. One step of the machine: one atomic event (`44_control_fsm.md` R195, `20_memory.md`
R73, R74). -/

namespace Sys2Proof.Machine

/-- One event of the one total order of R195. -/
def step (s : State) : Host.Outcome State Fault Refusal := nextEvent s

/-- The machine whose next event is the host's write of the `nbits`-bit command word `w` to `CMD`, which
is how a command reaches the CORE (R77, R90). -/
def State.withFetchWord (s : State) (nbits w : Nat) : State :=
  s.withHostOp (w32 0x000 (BitVec.ofNat 32 (w % 2 ^ nbits)))

end Sys2Proof.Machine
end

