-- ==== Sys2Proof/Safety.lean ====
section
/-! DEFINITION. What counts as a safe run, in the terms claims use: the control invariant
(`44_control_fsm.md` R209), the clean end of a run (`70_reset_and_hazards.md` R273) and the launch
premises (`93_implementation_defined.md` part 3). -/

namespace Sys2Proof

open Machine

/-- The control invariant (R209): `rnd` is in 1..31 exactly when `phase` is `SE_ROUND` or `BS_ROUND`, and
0 otherwise. -/
def Machine.CoreRegs.controlOk (c : CoreRegs) : Bool :=
  if c.phase.isRound then c.rnd != 0 else c.rnd == 0

/-- The invariant of the whole machine: the control invariant, and the host's variables in their
canonical form. -/
def Machine.State.inv (s : State) : Bool := s.regs.controlOk && varsSorted s.host.vars

/-- The host has performed the last operation of its program (R273). -/
def Machine.State.finished (s : State) : Bool := s.host.prog.length ≤ s.host.pc

/-- A clean end: the program is done, and `BUSY = 0`, `ERR_CMD = 0` and `ERR_BUSY = 0` (R273). -/
def Machine.State.cleanEnd (s : State) : Bool :=
  s.finished && !s.regs.busy && !s.regs.errCmd && !s.regs.errBusy

/-- The run of the host program from `s` ends in `t`: after `n` events the host has performed its last
operation, and after no fewer (R273). Events after the last operation are no part of the run. A run in
which an access received a bus error has no end: it stopped there. -/
def runEnds (n : Nat) (s t : State) : Prop :=
  core.run n s = .next t ∧ t.finished = true ∧
    ∀ m u, m < n → core.run m s = .next u → u.finished = false

/-- The run of the host program from `s` is clean and ends in `t` (R273). -/
def cleanRun (n : Nat) (s t : State) : Prop := runEnds n s t ∧ t.cleanEnd = true

/-- Launch premise: idle at start, no command in flight (part 3). -/
def Machine.State.idleAtStart (s : State) : Bool := !s.regs.busy

/-- Launch premise: no errors recorded at start (part 3). -/
def Machine.State.noErrorsAtStart (s : State) : Bool := !s.regs.errCmd && !s.regs.errBusy

/-- Launch premise: no reset during the run, that is, among the events to come (part 3). -/
def Machine.State.noResetAhead (s : State) : Bool := !s.turns.contains .reset

/-- Whose event the next step is (R195): the first of `turns`, or the default turn. -/
def Machine.State.currentTurn (s : State) : Turn :=
  match s.turns with
  | [] => defaultTurn s
  | t :: _ => t

/-- The host operation the next step performs, if it performs one (R97). -/
def Machine.State.currentOp (s : State) : Option HostOp :=
  match s.currentTurn with
  | .host => s.host.prog[s.host.pc]?
  | .engine | .reset => none

/-- The reserved offsets of the window (R61). -/
def reservedOffset (off : Nat) : Bool :=
  (0x008 ≤ off && off ≤ 0x00F) || (0x01C ≤ off && off ≤ 0x01F) || (0x028 ≤ off && off ≤ 0x0FF) ||
    (0x300 ≤ off && off ≤ 0x3FF)

/-- The access is one the window takes: inside it, of size 4, aligned, and not reserved (R61 to R63). -/
def goodAccess (off size : Nat) : Bool :=
  off < 0x400 && size == 4 && off % 4 == 0 && !reservedOffset off

/-- Commands presented one after another, as a host that issues primitive commands does (R266). -/
def execAll : List Instr → State → Host.Outcome State Fault Refusal
  | [], s => .next s
  | i :: rest, s =>
    match exec i s with
    | .next t => execAll rest t
    | .fault f => .fault f
    | .refused r => .refused r

/-- The CORE after `n` engine steps with no other event between them. -/
def Machine.CoreRegs.engineSteps (c : CoreRegs) : Nat → CoreRegs
  | 0 => c
  | n + 1 => (c.engineSteps n).engineStep

/-- The 31 round indices in schedule order (R185). -/
def roundIndices : List Round := (List.range 31).map fun k => BitVec.ofNat 5 (k + 1)

end Sys2Proof
end

