-- ==== Sys2Proof/Certificates/Slice0/Obligations.lean ====
section
/-! DEFINITION. The statements for the provers. Each docstring names the rule of the spec it formalises.
`phase = .idle` is `BUSY = 0` (R37). A statement that gives a whole next state gives its frame too:
what the record update does not name is unchanged. -/

open Sys2Proof Sys2Proof.Machine

/-! ### Reset, the invariant, the step -/

/-- R47: the reset value of every piece of state (zero by the decision D21 of the spec, item I18). -/
def Obligations.ResetClearsEveryRegister : Prop :=
  State.reset.regs.state = 0 ∧ State.reset.regs.key = 0 ∧
  (∀ j (h : j < 32), State.reset.regs.blk[j] = 0) ∧
  (∀ i (h : i < 64), State.reset.regs.slice[i] = 0) ∧
  State.reset.regs.phase = .idle ∧ State.reset.regs.rnd = 0 ∧ State.reset.regs.done = false ∧
  State.reset.regs.errCmd = false ∧ State.reset.regs.errBusy = false ∧
  State.reset.regs.busy = false ∧ State.reset.regs.statusWord = 0x00000000

/-- The model's invariant holds at reset (R209 for the control part; the host's empty variable list is
the model's choice, log entry 3). -/
def Obligations.InvariantHoldsAtReset : Prop := State.reset.inv = true

/-- R68, R195, R196: when the host's turn writes a word to `CMD` that decodes to `i`, the step is `exec
i`, with the host moved on to its next line; and a word put in place by `withFetchWord` runs as the very
next event, whatever the state. Two things are the model's own choice: that the turn is used up (the order
of events as data, log entry 2), and that `withFetchWord` stands for the load of a host line (log
entry 3). -/
def Obligations.StepRunsTheDecodedCommand : Prop :=
  (∀ (s : State) (w : Word) (i : Instr),
    s.currentTurn = .host → s.host.prog[s.host.pc]? = some (.write 0x000 4 w) → decode w = .ok i →
    step s = exec i { s with
      host := { s.host with pc := s.host.pc + 1 }
      turns := s.turns.tail }) ∧
  (∀ (s : State) (w : Word) (i : Instr), decode w = .ok i →
    ∃ u : State, u.regs = s.regs ∧ u.turns = s.turns ∧ u.host.vars = s.host.vars ∧
      step (s.withFetchWord 32 w.toNat) = exec i u)

/-- R209: the control invariant, established by reset and kept by every event from every state that
has it; and that the primitive commands and the host's accesses other than a `CMD` write do not write
`phase` or `rnd`. -/
def Obligations.RoundIndexInvariant : Prop :=
  ((State.reset.regs.phase = .seRound ∨ State.reset.regs.phase = .bsRound) ↔
    1 ≤ State.reset.regs.rnd.toNat) ∧
  (∀ s t : State, step s = .next t →
    ((s.regs.phase = .seRound ∨ s.regs.phase = .bsRound) ↔
      (1 ≤ s.regs.rnd.toNat ∧ s.regs.rnd.toNat ≤ 31)) →
    ((t.regs.phase = .seRound ∨ t.regs.phase = .bsRound) ↔
      (1 ≤ t.regs.rnd.toNat ∧ t.regs.rnd.toNat ≤ 31)) ∧
    (¬(t.regs.phase = .seRound ∨ t.regs.phase = .bsRound) → t.regs.rnd = 0)) ∧
  (∀ (i : Instr) (s t : State), i ≠ .seEncrypt → i ≠ .bsEncrypt → exec i s = .next t →
    t.regs.phase = s.regs.phase ∧ t.regs.rnd = s.regs.rnd) ∧
  (∀ (s t : State) (off n : Nat) (v : Word), off ≠ 0x000 → memWrite off n v s = .next t →
    t.regs.phase = s.regs.phase ∧ t.regs.rnd = s.regs.rnd) ∧
  (∀ (s t : State) (off n x : Nat), hostOp (.read off n x) s = .next t →
    t.regs.phase = s.regs.phase ∧ t.regs.rnd = s.regs.rnd) ∧
  (∀ p : Phase, p.code ≠ 7)

/-- R195, R97, R260 to R262: every agent can act when it is its turn. Reset clears the CORE from any
state; the engine has a step exactly while busy; the host's line moves the host alone or is the
access it names, its branch, or the assignment that an expansion of R98 ends with. The model's own
choices: that an engine turn while idle changes nothing and that each step uses up a turn (log entry 2),
that a host without a further line changes nothing (log entry 21), that a reset leaves the host as it is
(log entry 11), what a host variable holds (log entry 23), and the canonical form of the variables (log
entry 5). -/
def Obligations.TurnsActAsTheirAgents : Prop :=
  (∀ s : State, s.currentTurn = .reset →
    step s = .next { s with regs := State.reset.regs, turns := s.turns.tail }) ∧
  (∀ s : State, s.currentTurn = .engine → s.regs.phase = .idle →
    step s = .next { s with turns := s.turns.tail }) ∧
  (∀ s : State, s.currentTurn = .engine →
    step s = .next { s with regs := s.regs.engineStep, turns := s.turns.tail }) ∧
  (∀ (s : State) (off size : Nat) (v : Word), s.currentOp = some (.write off size v) →
    step s = memWrite off size v
      { s with host := { s.host with pc := s.host.pc + 1 }, turns := s.turns.tail }) ∧
  (∀ (s : State) (off size x : Nat) (v : Word), s.currentOp = some (.read off size x) →
    memRead off size s.regs = .next v →
    ∃ t : State, step s = .next t ∧ t.regs = s.regs ∧ t.turns = s.turns.tail ∧
      t.host.prog = s.host.prog ∧ t.host.pc = s.host.pc + 1 ∧ varsGet t.host.vars x = v.setWidth 80 ∧
      ∀ y, y ≠ x → varsGet t.host.vars y = varsGet s.host.vars y) ∧
  (∀ (s : State) (x : Nat) (bit : Fin 80) (target : Nat), s.currentOp = some (.bnz x bit target) →
    step s = .next { s with
      host := { s.host with
        pc := if (varsGet s.host.vars x).getLsbD bit then target else s.host.pc + 1 }
      turns := s.turns.tail }) ∧
  (∀ (s : State) (n a b : Nat), s.currentOp = some (.joinBlock n a b) →
    ∃ t : State, step s = .next t ∧ t.regs = s.regs ∧ t.turns = s.turns.tail ∧
      t.host.prog = s.host.prog ∧ t.host.pc = s.host.pc + 1 ∧
      varsGet t.host.vars n = ((varsGet s.host.vars b).extractLsb' 0 32 ++
        (varsGet s.host.vars a).extractLsb' 0 32 : BitVec 64).setWidth 80 ∧
      ∀ y, y ≠ n → varsGet t.host.vars y = varsGet s.host.vars y) ∧
  (∀ (s : State) (n a b c : Nat), s.currentOp = some (.joinKey n a b c) →
    ∃ t : State, step s = .next t ∧ t.regs = s.regs ∧ t.turns = s.turns.tail ∧
      t.host.prog = s.host.prog ∧ t.host.pc = s.host.pc + 1 ∧
      varsGet t.host.vars n = (varsGet s.host.vars c).extractLsb' 0 16 ++
        (varsGet s.host.vars b).extractLsb' 0 32 ++ (varsGet s.host.vars a).extractLsb' 0 32 ∧
      ∀ y, y ≠ n → varsGet t.host.vars y = varsGet s.host.vars y) ∧
  (∀ s : State, s.currentTurn = .host → s.host.prog.length ≤ s.host.pc →
    step s = .next { s with turns := s.turns.tail }) ∧
  (∀ s t : State, varsSorted s.host.vars = true → step s = .next t →
    varsSorted t.host.vars = true)

/-! ### Encoding -/

/-- Words of V-CMD, written out from the encoding of R91 and R93. -/
def Obligations.TableWordsDecode : Prop :=
  decode 0x00000000 = .ok .nop ∧ decode 0x00000001 = .ok .seArk ∧ decode 0x00000002 = .ok .seSbox ∧
  decode 0x00000003 = .ok .sePerm ∧ decode 0x00000104 = .ok (.seRound 1) ∧
  decode 0x00001F04 = .ok (.seRound 31) ∧ decode 0x00000005 = .ok .seEncrypt ∧
  decode 0x00000110 = .ok (.ksAdv 1) ∧ decode 0x00000020 = .ok .bsEnslice ∧
  decode 0x00000021 = .ok .bsUnslice ∧ decode 0x00000022 = .ok .bsArk ∧
  decode 0x00000023 = .ok .bsSbox ∧ decode 0x00000024 = .ok .bsPerm ∧
  decode 0x00001125 = .ok (.bsRound 17) ∧ decode 0x00000026 = .ok .bsEncrypt ∧
  decode 0x00000004 = .error .operandZero ∧ decode 0x00000105 = .error .operandNotZero ∧
  decode 0x00000006 = .error .unknownOpcode ∧ decode 0x80000005 = .error .reservedBits

/-- Decoding the word of a well-formed command gives it back, from a word, from four byte lanes (R65)
and from a table word. -/
def Obligations.DecodeOfEncodeIsTheCommand : Prop :=
  ∀ i : Instr, i.wellFormed = true →
    decode (encode i) = .ok i ∧
    (∀ rest : List Byte,
      decodeBytes (wordLane 0 (encode i) :: wordLane 1 (encode i) :: wordLane 2 (encode i) ::
        wordLane 3 (encode i) :: rest) = .ok (i, rest)) ∧
    decodeTableWord 32 (encode i).toNat = some i

/-- R94, R95: which words are legal, that the decoder reads exactly those, and that a word that is not
legal is refused with `ERR_CMD`. -/
def Obligations.DecoderAcceptsExactlyTheLegalWords : Prop :=
  (∀ w : Word,
    (legal w = true ↔
      w.extractLsb' 13 19 = 0 ∧
      ((w.extractLsb' 0 8 ∈ [0x04#8, 0x10, 0x25] ∧ w.extractLsb' 8 5 ≠ 0) ∨
       (w.extractLsb' 0 8 ∈ [0x00#8, 0x01, 0x02, 0x03, 0x05, 0x20, 0x21, 0x22, 0x23, 0x24, 0x26] ∧
        w.extractLsb' 8 5 = 0))) ∧
    (legal w = true ↔ ∃ i, decode w = .ok i) ∧
    (∀ i, decode w = .ok i → i.wellFormed = true ∧ encode i = w) ∧
    (∀ s : State, s.regs.phase = .idle → legal w = false →
      command w s = .next { s with regs := { s.regs with errCmd := true } })) ∧
  ((List.range 256).filter fun o => (List.range 32).all fun r =>
    !legal (encodeWord (BitVec.ofNat 8 o) (BitVec.ofNat 5 r))).length = 242 ∧
  (∀ w : Word, legal w = true → w ≠ 0 → ∃ s : State, s.regs.phase = .idle ∧ command w s ≠ .next s)

/-- R96: the legal words counted, and the opcode table lists them, each in one row. -/
def Obligations.LegalWordsCounted : Prop :=
  (∃ l : List Word, l.Nodup ∧ (∀ w, w ∈ l ↔ legal w = true) ∧ l.length = 104 ∧
    (l.filter fun w => w.extractLsb' 8 5 == 0#5).length = 11 ∧
    (l.filter fun w => w.extractLsb' 8 5 != 0#5).length = 93) ∧
  opcodeTable.length = 14 ∧
  (∀ w : Word, legal w = true ↔ ∃ row ∈ opcodeTable, row.covers w = true) ∧
  (∀ (w : Word) (a b : OpcodeRow), a ∈ opcodeTable → b ∈ opcodeTable → a.covers w = true →
    b.covers w = true → a = b) ∧
  (∀ row ∈ opcodeTable, row.takesRound = true → row.mask = 0xFFFFE0FF)

/-- R99: the encoded word of any opcode and any round operand, and its fields; that it is legal exactly
when the operand is in 1..31 where the command takes one and 0 where it takes none; and the spec's
five examples. -/
def Obligations.EncodeBuildsTheWord : Prop :=
  (∀ (i : Instr) (r : Round), encodeWord i.opc r = r.setWidth 32 <<< 8 ||| i.opc.setWidth 32 ∧
    (encodeWord i.opc r).extractLsb' 0 8 = i.opc ∧ (encodeWord i.opc r).extractLsb' 8 5 = r ∧
    (encodeWord i.opc r).extractLsb' 13 19 = 0 ∧
    (legal (encodeWord i.opc r) = true ↔
      if i.takesRound then 1 ≤ r.toNat ∧ r.toNat ≤ 31 else r = 0)) ∧
  (∀ i : Instr, encode i = encodeWord i.opc i.operand) ∧
  encode .seEncrypt = 0x00000005 ∧ encode (.seRound 1) = 0x00000104 ∧
  encode (.ksAdv 31) = 0x00001F10 ∧ encode (.bsRound 17) = 0x00001125 ∧
  encode .bsEncrypt = 0x00000026

/-- R100: how every word prints, with the mnemonics of R93 and the sixteen digits. That the hexadecimal
digits are capitals is the model's choice (log entry 9). -/
def Obligations.DisassemblyOfEveryWord : Prop :=
  (Instr.nop.mnemonic = "NOP" ∧ Instr.seArk.mnemonic = "SE_ARK" ∧ Instr.seSbox.mnemonic = "SE_SBOX" ∧
    Instr.sePerm.mnemonic = "SE_PERM" ∧ (∀ r, (Instr.seRound r).mnemonic = "SE_ROUND") ∧
    Instr.seEncrypt.mnemonic = "SE_ENCRYPT" ∧ (∀ r, (Instr.ksAdv r).mnemonic = "KS_ADV") ∧
    Instr.bsEnslice.mnemonic = "BS_ENSLICE" ∧ Instr.bsUnslice.mnemonic = "BS_UNSLICE" ∧
    Instr.bsArk.mnemonic = "BS_ARK" ∧ Instr.bsSbox.mnemonic = "BS_SBOX" ∧
    Instr.bsPerm.mnemonic = "BS_PERM" ∧ (∀ r, (Instr.bsRound r).mnemonic = "BS_ROUND") ∧
    Instr.bsEncrypt.mnemonic = "BS_ENCRYPT") ∧
  (List.range 16).map (fun n => hexDigit (BitVec.ofNat 4 n)) =
    ['0', '1', '2', '3', '4', '5', '6', '7', '8', '9', 'A', 'B', 'C', 'D', 'E', 'F'] ∧
  (∀ i : Instr, i.wellFormed = true → i.takesRound = false → disassemble (encode i) = i.mnemonic) ∧
  (∀ i : Instr, i.wellFormed = true → i.takesRound = true →
    disassemble (encode i) = i.mnemonic ++ " " ++ Nat.repr i.operand.toNat) ∧
  (∀ w : Word, legal w = false →
    disassemble w = ".word 0x" ++ String.ofList
      [hexDigit (w.extractLsb' 28 4), hexDigit (w.extractLsb' 24 4), hexDigit (w.extractLsb' 20 4),
       hexDigit (w.extractLsb' 16 4), hexDigit (w.extractLsb' 12 4), hexDigit (w.extractLsb' 8 4),
       hexDigit (w.extractLsb' 4 4), hexDigit (w.extractLsb' 0 4)])

/-! ### The functions of the cipher -/

/-- R110: the S-box table, and that it is a bijection. -/
def Obligations.SboxTableIsABijection : Prop :=
  sbox 0x0 = 0xC ∧ sbox 0x1 = 0x5 ∧ sbox 0x2 = 0x6 ∧ sbox 0x3 = 0xB ∧ sbox 0x4 = 0x9 ∧
  sbox 0x5 = 0x0 ∧ sbox 0x6 = 0xA ∧ sbox 0x7 = 0xD ∧ sbox 0x8 = 0x3 ∧ sbox 0x9 = 0xE ∧
  sbox 0xA = 0xF ∧ sbox 0xB = 0x8 ∧ sbox 0xC = 0x4 ∧ sbox 0xD = 0x7 ∧ sbox 0xE = 0x1 ∧
  sbox 0xF = 0x2 ∧ Function.Bijective sbox

/-- R112: every nibble is replaced by its S-box entry, with the three examples. -/
def Obligations.SubLayerReplacesEveryNibble : Prop :=
  (∀ (s : Block) (n : Nat), n < 16 →
    (subLayer s).extractLsb' (4 * n) 4 = sbox (s.extractLsb' (4 * n) 4)) ∧
  subLayer 0 = 0xCCCCCCCCCCCCCCCC ∧ subLayer 0xFFFFFFFFFFFFFFFF = 0x2222222222222222 ∧
  subLayer 0x0123456789ABCDEF = 0xC56B90AD3EF84712

/-- R113, R114: the permutation index function is a bijection with four fixed points, and the layer
moves every bit by it. -/
def Obligations.PermutationMovesEveryBit : Prop :=
  (∀ b, b < 64 → permIndex b = b / 4 + b % 4 * 16 ∧ permIndex b < 64) ∧
  (∀ q, q < 64 → ∃ b, b < 64 ∧ permIndex b = q ∧ ∀ b', b' < 64 → permIndex b' = q → b' = b) ∧
  (∀ b, b < 64 → (permIndex b = b ↔ b ∈ [0, 21, 42, 63])) ∧
  [0, 1, 2, 3, 4, 5, 15, 16, 47, 48, 62, 63].map permIndex =
    [0, 16, 32, 48, 1, 17, 51, 4, 59, 12, 47, 63] ∧
  (∀ (s : Block) (b : Nat), b < 64 → (pLayer s).getLsbD (permIndex b) = s.getLsbD b) ∧
  pLayer (1#64 <<< 1) = 1#64 <<< 16 ∧ pLayer 0xF = 0x0001000100010001 ∧
  pLayer 0xCCCCCCCCCCCCCCCC = 0xFFFFFFFF00000000 ∧
  pLayer 0x0123456789ABCDEF = 0x00FF0F0F33335555

/-- R115, R116: the round key is key bits 79 to 16, that is, key bytes 2 to 9, and AddRoundKey is the
exclusive or with it. -/
def Obligations.RoundKeyIsTheHighBits : Prop :=
  (∀ (k : Key) (i : Nat), i < 64 → (roundKey k).getLsbD i = k.getLsbD (16 + i)) ∧
  (∀ (k : Key) (m : Nat), m < 8 → blockByte m (roundKey k) = keyByte (m + 2) k) ∧
  (∀ k k' : Key, k.extractLsb' 16 64 = k'.extractLsb' 16 64 → roundKey k = roundKey k') ∧
  (∀ (s : Block) (k : Key) (i : Nat), i < 64 →
    (ark s k).getLsbD i = (s.getLsbD i ^^ k.getLsbD (16 + i))) ∧
  roundKey 0x0123456789ABCDEF0123 = 0x0123456789ABCDEF ∧
  ark 0 0x0123456789ABCDEF0123 = 0x0123456789ABCDEF ∧
  ark 0xFFFFFFFFFFFFFFFF 0x0123456789ABCDEF0123 = 0xFEDCBA9876543210

/-- R181, in the direction `90_conflicts.md` C1 settles. -/
def Obligations.RotatorMovesEveryKeyBit : Prop :=
  (∀ k : Key, rot k = k.extractLsb' 0 19 ++ k.extractLsb' 19 61) ∧
  (∀ (k : Key) (i : Nat), i < 80 → (rot k).getLsbD i = k.getLsbD ((i + 19) % 80)) ∧
  (∀ (k : Key) (i : Nat), i < 80 → (rot k).getLsbD ((i + 61) % 80) = k.getLsbD i) ∧
  rot 1 = 0x00002000000000000000 ∧ rot (1#80 <<< 19) = 0x00000000000000000001 ∧
  rot (1#80 <<< 18) = 0x80000000000000000000 ∧
  rot 0x0123456789ABCDEF0123 = 0xE024602468ACF13579BD

/-- R182, R183, R184: the S-box splice, the counter injection (by key bits and by key bytes), and the
whole advance with its examples. -/
def Obligations.KeyAdvanceStages : Prop :=
  (∀ k : Key, (splice k).extractLsb' 76 4 = sbox (k.extractLsb' 76 4) ∧
    ∀ i, i < 76 → (splice k).getLsbD i = k.getLsbD i) ∧
  (∀ (k : Key) (r : Round),
    (∀ t, t < 5 → (inject k r).getLsbD (15 + t) = (k.getLsbD (15 + t) ^^ r.getLsbD t)) ∧
    (∀ i, i < 80 → (i < 15 ∨ 19 < i) → (inject k r).getLsbD i = k.getLsbD i) ∧
    (keyByte 1 (inject k r)).getLsbD 7 = ((keyByte 1 k).getLsbD 7 ^^ r.getLsbD 0) ∧
    (keyByte 2 (inject k r)).extractLsb' 0 4 = (keyByte 2 k).extractLsb' 0 4 ^^^ r.extractLsb' 1 4) ∧
  (∀ (k : Key) (r : Round), ksAdvance k r = inject (splice (rot k)) r) ∧
  ksAdvance 0 1 = 0xC0000000000000008000 ∧
  ksAdvance 0xFFFFFFFFFFFFFFFFFFFF 1 = 0x2FFFFFFFFFFFFFFF7FFF ∧
  ksAdvance 0 31 = 0xC00000000000000F8000 ∧
  ksAdvance 0x0123456789ABCDEF0123 1 = 0x1024602468ACF135F9BD

/-- R186: the advance is a bijection for every round index, and 30 and 31 advances of the all-zero key
differ. -/
def Obligations.KeyAdvanceIsABijection : Prop :=
  (∀ r : Round, Function.Bijective fun k => ksAdvance k r) ∧
  (∀ (k : Key) (n : Nat), keyAfter k (n + 1) = ksAdvance (keyAfter k n) (BitVec.ofNat 5 (n + 1))) ∧
  keyAfter 0 30 = 0x8BA27A0EB8783AC96D59 ∧ keyAfter 0 31 = 0x6DAB31744F41D7008759 ∧
  keyAfter 0 30 ≠ keyAfter 0 31

/-- R123, R124: the encryption is the loop over `r = 1, ..., 31` and one trailing key mix with the last
key, with the source's known answer and the final key; and the round keys of its key sequence, round
`n + 1` mixing `RK(K_{n+1})`, which is `roundKey (keyAfter k n)`. -/
def Obligations.EncryptionIsTheRoundLoop : Prop :=
  (∀ (p : Block) (k : Key),
    present80 p k =
      let x := roundIndices.foldl (fun (x : Block × Key) r => (sRound x.1 x.2, ksAdvance x.2 r)) (p, k)
      (ark x.1 x.2, x.2)) ∧
  (∀ (s : Block) (k : Key), sRound s k = pLayer (subLayer (ark s k))) ∧
  (∀ (k : Key) (n : Nat), n < 31 →
    keyAfter k (n + 1) = ksAdvance (keyAfter k n) (roundIndices.getD n 0)) ∧
  (∀ (p : Block) (k : Key), keyAfter k 0 = k ∧ blockAfter p k 0 = p ∧
    (∀ n, n < 31 → blockAfter p k (n + 1) = pLayer (subLayer (blockAfter p k n ^^^
      roundKey (keyAfter k n)))) ∧
    present80 p k = (blockAfter p k 31 ^^^ roundKey (keyAfter k 31), keyAfter k 31)) ∧
  present80 0x0000000000000000 0x00000000000000000000 =
    (0x5579C1387B228445, 0x6DAB31744F41D7008759)

/-- R141, R142: each slice register is complemented as a whole when its round-key bit is 1 and
unchanged when it is 0. -/
def Obligations.SlicedKeyMixBroadcastsTheKey : Prop :=
  bcast true = 0xFFFFFFFF ∧ bcast false = 0x00000000 ∧
  (∀ (r : Slices) (k : Key) (i : Nat) (h : i < 64),
    (bsArk r k)[i] = r[i] ^^^ bcast (k.getLsbD (16 + i)) ∧
    (bsArk r k)[i] = if (roundKey k).getLsbD i then ~~~r[i] else r[i]) ∧
  (∀ i (h : i < 64), (bsArk (Vector.replicate 64 0) 0x0123456789ABCDEF0123)[i] =
    if i ∈ [0, 1, 2, 3, 5, 6, 7, 8, 10, 11, 14, 15, 16, 17, 19, 21, 23, 24, 27, 31, 32, 33, 34, 37,
      38, 40, 42, 46, 48, 49, 53, 56] then 0xFFFFFFFF else 0)

/-- R143, R144: the four Boolean formulas as the source writes them; they reproduce the S-box in every
lane, and the layer applies them to every group of four registers. -/
def Obligations.BooleanSboxReproducesTheTable : Prop :=
  (∀ x0 x1 x2 x3 : Word,
    bsSbox4 x0 x1 x2 x3 0 = x0 ^^^ (x1 &&& x2) ^^^ x2 ^^^ x3 ∧
    bsSbox4 x0 x1 x2 x3 1 = ((x0 &&& x1) &&& (x2 ^^^ x3)) ^^^ (x3 &&& x1) ^^^ x1 ^^^
      (x0 &&& (x2 &&& x3)) ^^^ (x2 &&& x3) ^^^ x3 ∧
    bsSbox4 x0 x1 x2 x3 2 = (x0 &&& x1) ^^^ ((x0 &&& x3) &&& x1) ^^^ (x3 &&& x1) ^^^ x2 ^^^
      (x0 &&& x3) ^^^ ((x0 &&& x3) &&& x2) ^^^ x3 ^^^ 0xFFFFFFFF ∧
    bsSbox4 x0 x1 x2 x3 3 = ((x1 &&& x2) &&& x0) ^^^ ((x3 &&& x0) &&& (x1 ^^^ x2)) ^^^ x0 ^^^ x1 ^^^
      (x1 &&& x2) ^^^ x3 ^^^ 0xFFFFFFFF) ∧
  (∀ (x0 x1 x2 x3 : Word) (j t : Nat), j < 32 → t < 4 →
    (bsSbox4 x0 x1 x2 x3 t).getLsbD j =
      (sbox (BitVec.ofBool (x3.getLsbD j) ++ BitVec.ofBool (x2.getLsbD j) ++
        BitVec.ofBool (x1.getLsbD j) ++ BitVec.ofBool (x0.getLsbD j))).getLsbD t) ∧
  (∀ (r : Slices) (g : Nat) (h : g < 16),
    (bsSub r)[4 * g] = bsSbox4 r[4 * g] r[4 * g + 1] r[4 * g + 2] r[4 * g + 3] 0 ∧
    (bsSub r)[4 * g + 1] = bsSbox4 r[4 * g] r[4 * g + 1] r[4 * g + 2] r[4 * g + 3] 1 ∧
    (bsSub r)[4 * g + 2] = bsSbox4 r[4 * g] r[4 * g + 1] r[4 * g + 2] r[4 * g + 3] 2 ∧
    (bsSub r)[4 * g + 3] = bsSbox4 r[4 * g] r[4 * g + 1] r[4 * g + 2] r[4 * g + 3] 3) ∧
  bsSbox4 0x0000AAAA 0x0000CCCC 0x0000F0F0 0x0000FF00 0 = 0x0000659A ∧
  bsSbox4 0x0000AAAA 0x0000CCCC 0x0000F0F0 0x0000FF00 1 = 0x0000A74C ∧
  bsSbox4 0x0000AAAA 0x0000CCCC 0x0000F0F0 0x0000FF00 2 = 0xFFFF3687 ∧
  bsSbox4 0x0000AAAA 0x0000CCCC 0x0000F0F0 0x0000FF00 3 = 0xFFFF0ED9

/-- R145: register `P(i)` becomes register `i`, with its example. -/
def Obligations.SlicedPermutationMovesRegisters : Prop :=
  (∀ (r : Slices) (i : Nat) (h : i < 64) (hp : permIndex i < 64), (bsPerm r)[permIndex i] = r[i]) ∧
  (∀ r : Slices, (∀ i (h : i < 64), r[i] = BitVec.ofNat 32 i) →
    (bsPerm r).toList.take 20 =
      [0, 4, 8, 12, 16, 20, 24, 28, 32, 36, 40, 44, 48, 52, 56, 60, 1, 5, 9, 13])

/-- R147, R148: the bit-sliced encryption is the loop over `r = 1, ..., 31` and one trailing key mix, with
the scalar cipher's final key; and the lane laws: every bit-sliced layer is its scalar layer in every
lane, and so is the whole encryption. -/
def Obligations.LanesComputeTheScalarCipher : Prop :=
  (∀ (r : Slices) (k : Key),
    bsEncryptSlices r k =
      (let x := roundIndices.foldl
        (fun (x : Slices × Key) i => (bsRound x.1 x.2, ksAdvance x.2 i)) (r, k)
       (bsArk x.1 x.2, x.2)) ∧
    ∀ p : Block, (bsEncryptSlices r k).2 = (present80 p k).2) ∧
  ∀ (r : Slices) (k : Key) (j : Nat) (h : j < 32),
    (∀ i (hi : i < 64), (lane r j).getLsbD i = r[i].getLsbD j) ∧ lane r j = (fromSliced r)[j] ∧
    lane (bsArk r k) j = ark (lane r j) k ∧
    lane (bsSub r) j = subLayer (lane r j) ∧
    lane (bsPerm r) j = pLayer (lane r j) ∧
    lane (bsRound r k) j = sRound (lane r j) k ∧
    lane (bsEncryptSlices r k).1 j = (present80 (lane r j) k).1

/-- R170, R171, R172: the layout conversions transpose, and each undoes the other. -/
def Obligations.LayoutConversionsTranspose : Prop :=
  (∀ (b : Batch) (i j : Nat) (hi : i < 64) (hj : j < 32),
    (toSliced b)[i].getLsbD j = b[j].getLsbD i) ∧
  (∀ (r : Slices) (j k m : Nat) (hj : j < 32) (hk : k < 8) (hm : m < 8),
    (fromSliced r)[j].getLsbD (8 * k + m) = r[8 * k + m].getLsbD j) ∧
  (∀ b : Batch, fromSliced (toSliced b) = b) ∧
  (∀ r : Slices, toSliced (fromSliced r) = r) ∧
  (∀ b : Batch, (∀ j (h : j < 32), b[j] = 1#64 <<< j) →
    ∀ i (h : i < 64), (toSliced b)[i] = if i < 32 then 1#32 <<< i else 0#32) ∧
  (∀ b : Batch, (∀ j (h : j < 32), b[j] = if j = 0 then 0xFFFFFFFFFFFFFFFF else 0) →
    ∀ i (h : i < 64), (toSliced b)[i] = 0x00000001) ∧
  (∀ (b : Batch) (v : Block), (∀ j (h : j < 32), b[j] = v) →
    ∀ i (h : i < 64), (toSliced b)[i] = bcast (v.getLsbD i)) ∧
  (∀ r : Slices, (∀ i (h : i < 64), r[i] = if i < 32 then 1#32 <<< i else 0#32) →
    ∀ j (h : j < 32), (fromSliced r)[j] = 1#64 <<< j)

/-! ### The commands. Each statement is the whole rule of its command: the word, the effect with its
frame, the two refusals, the corner cases and the example. -/

/-- R198. -/
def Obligations.NopChangesNothing : Prop :=
  encode .nop = 0x00000000 ∧ decode 0x00000000 = .ok .nop ∧
  (∀ s : State, s.regs.phase = .idle → exec .nop s = .next s) ∧
  (∀ s : State, s.regs.phase ≠ .idle →
    exec .nop s = .next { s with regs := { s.regs with errBusy := true } }) ∧
  (∀ (s : State) (w : Word), s.regs.phase = .idle → w.extractLsb' 0 8 = 0x00 →
    w.extractLsb' 8 24 ≠ 0 →
    command w s = .next { s with regs := { s.regs with errCmd := true } }) ∧
  (∀ w : Word, legal w = true → w ≠ 0 → ∃ s : State, s.regs.phase = .idle ∧ command w s ≠ .next s) ∧
  (∃ t, memWrite 0x000 4 0x00000000 State.reset = .next t ∧ t.regs.statusWord = 0x00000000)

/-- R118. -/
def Obligations.SeArkMixesTheRoundKey : Prop :=
  encode .seArk = 0x00000001 ∧ decode 0x00000001 = .ok .seArk ∧
  (∀ s : State, s.regs.phase = .idle →
    exec .seArk s = .next { s with
      regs := { s.regs with state := ark s.regs.state s.regs.key, done := true } }) ∧
  (∀ s : State, s.regs.phase ≠ .idle →
    exec .seArk s = .next { s with regs := { s.regs with errBusy := true } }) ∧
  (∀ (s : State) (w : Word), s.regs.phase = .idle → w.extractLsb' 0 8 = 0x01 →
    w.extractLsb' 8 24 ≠ 0 →
    command w s = .next { s with regs := { s.regs with errCmd := true } }) ∧
  (∀ (s : Block) (k k' : Key), k.extractLsb' 16 64 = k'.extractLsb' 16 64 → ark s k = ark s k') ∧
  (∀ s : State, s.regs.phase = .idle →
    ∃ t, execAll [.seArk, .seArk] s = .next t ∧ t.regs.state = s.regs.state ∧
      t.regs.key = s.regs.key) ∧
  (∀ s : State, s.regs.phase = .idle → s.regs.state = 0 → s.regs.key = 0x0123456789ABCDEF0123 →
    ∃ t, exec .seArk s = .next t ∧ t.regs.state = 0x0123456789ABCDEF)

/-- R119. -/
def Obligations.SeSboxSubstitutesTheState : Prop :=
  encode .seSbox = 0x00000002 ∧ decode 0x00000002 = .ok .seSbox ∧
  (∀ s : State, s.regs.phase = .idle →
    exec .seSbox s = .next { s with
      regs := { s.regs with state := subLayer s.regs.state, done := true } }) ∧
  (∀ s : State, s.regs.phase ≠ .idle →
    exec .seSbox s = .next { s with regs := { s.regs with errBusy := true } }) ∧
  (∀ (s : State) (w : Word), s.regs.phase = .idle → w.extractLsb' 0 8 = 0x02 →
    w.extractLsb' 8 24 ≠ 0 →
    command w s = .next { s with regs := { s.regs with errCmd := true } }) ∧
  (∀ (v : Block) (n : Nat), n < 16 →
    (subLayer v).extractLsb' (4 * n) 4 = sbox (v.extractLsb' (4 * n) 4)) ∧
  subLayer 0 ≠ 0 ∧ Function.Bijective subLayer ∧
  (∀ s : State, s.regs.phase = .idle → s.regs.state = 0x0123456789ABCDEF →
    ∃ t, exec .seSbox s = .next t ∧ t.regs.state = 0xC56B90AD3EF84712)

/-- R120. -/
def Obligations.SePermPermutesTheState : Prop :=
  encode .sePerm = 0x00000003 ∧ decode 0x00000003 = .ok .sePerm ∧
  (∀ s : State, s.regs.phase = .idle →
    exec .sePerm s = .next { s with
      regs := { s.regs with state := pLayer s.regs.state, done := true } }) ∧
  (∀ s : State, s.regs.phase ≠ .idle →
    exec .sePerm s = .next { s with regs := { s.regs with errBusy := true } }) ∧
  (∀ (s : State) (w : Word), s.regs.phase = .idle → w.extractLsb' 0 8 = 0x03 →
    w.extractLsb' 8 24 ≠ 0 →
    command w s = .next { s with regs := { s.regs with errCmd := true } }) ∧
  (∀ (v : Block) (b : Nat), b ∈ [0, 21, 42, 63] → (pLayer v).getLsbD b = v.getLsbD b) ∧
  pLayer 0 = 0 ∧ pLayer 0xFFFFFFFFFFFFFFFF = 0xFFFFFFFFFFFFFFFF ∧
  (∀ v : Block, ((List.range 64).filter fun b => (pLayer v).getLsbD b).length =
    ((List.range 64).filter fun b => v.getLsbD b).length) ∧
  (∀ s : State, s.regs.phase = .idle → s.regs.state = 0xCCCCCCCCCCCCCCCC →
    ∃ t, exec .sePerm s = .next t ∧ t.regs.state = 0xFFFFFFFF00000000)

/-- R121. -/
def Obligations.SeRoundRunsOneScalarRound : Prop :=
  (∀ r : Round, encode (.seRound r) = 0x00000004 ||| r.setWidth 32 <<< 8) ∧
  (∀ (s : State) (r : Round), s.regs.phase = .idle → r ≠ 0 →
    exec (.seRound r) s = .next { s with
      regs := { s.regs with
        state := sRound s.regs.state s.regs.key
        key := ksAdvance s.regs.key r
        done := true } }) ∧
  (∀ s : State, s.regs.phase = .idle →
    exec (.seRound 0) s = .next { s with regs := { s.regs with errCmd := true } }) ∧
  (∀ (s : State) (r : Round), s.regs.phase ≠ .idle →
    exec (.seRound r) s = .next { s with regs := { s.regs with errBusy := true } }) ∧
  (∀ (s : State) (w : Word), s.regs.phase = .idle → w.extractLsb' 0 8 = 0x04 →
    (w.extractLsb' 8 5 = 0 ∨ w.extractLsb' 13 19 ≠ 0) →
    command w s = .next { s with regs := { s.regs with errCmd := true } }) ∧
  (∀ s : State, s.regs.phase = .idle →
    execAll (roundIndices.map .seRound ++ [.seArk]) s = .next { s with
      regs := { s.regs with
        state := (present80 s.regs.state s.regs.key).1
        key := (present80 s.regs.state s.regs.key).2
        done := true } } ∧
    ∃ t, exec .seEncrypt s = .next t ∧
      (t.regs.engineSteps 32).state = (present80 s.regs.state s.regs.key).1 ∧
      (t.regs.engineSteps 32).key = (present80 s.regs.state s.regs.key).2) ∧
  (∀ s : State, s.regs.phase = .idle → s.regs.state = 0 → s.regs.key = 0 →
    ∃ t, exec (.seRound 1) s = .next t ∧ t.regs.state = 0xFFFFFFFF00000000 ∧
      t.regs.key = 0xC0000000000000008000)

/-- R122. -/
def Obligations.SeEncryptRunsTheScalarCipher : Prop :=
  encode .seEncrypt = 0x00000005 ∧ decode 0x00000005 = .ok .seEncrypt ∧
  (∀ s : State, s.regs.phase = .idle →
    exec .seEncrypt s = .next { s with
      regs := { s.regs with phase := .seRound, rnd := 1, done := false } }) ∧
  (∀ s : State, s.regs.phase ≠ .idle →
    exec .seEncrypt s = .next { s with regs := { s.regs with errBusy := true } }) ∧
  (∀ (s : State) (w : Word), s.regs.phase = .idle → w.extractLsb' 0 8 = 0x05 →
    w.extractLsb' 8 24 ≠ 0 →
    command w s = .next { s with regs := { s.regs with errCmd := true } }) ∧
  (∀ s t : State, s.regs.phase = .idle → exec .seEncrypt s = .next t →
    (∀ n, n < 32 → (t.regs.engineSteps n).phase = (if n < 31 then .seRound else .seFinal) ∧
      (t.regs.engineSteps n).done = false) ∧
    t.regs.engineSteps 32 = { s.regs with
      state := (present80 s.regs.state s.regs.key).1
      key := keyAfter s.regs.key 31
      phase := .idle
      rnd := 0
      done := true }) ∧
  (∀ s : State, s.currentTurn = .reset → s.regs.phase ≠ .idle →
    ∃ t, step s = .next t ∧ t.regs = State.reset.regs) ∧
  (∀ s t : State, s.regs.phase = .idle → s.regs.state = 0 → s.regs.key = 0 →
    exec .seEncrypt s = .next t →
    (t.regs.engineSteps 32).state = 0x5579C1387B228445 ∧
    (t.regs.engineSteps 32).key = 0x6DAB31744F41D7008759)

/-- R187. -/
def Obligations.KsAdvAdvancesTheKey : Prop :=
  (∀ r : Round, encode (.ksAdv r) = 0x00000010 ||| r.setWidth 32 <<< 8) ∧
  (∀ (s : State) (r : Round), s.regs.phase = .idle → r ≠ 0 →
    exec (.ksAdv r) s = .next { s with
      regs := { s.regs with key := ksAdvance s.regs.key r, done := true } }) ∧
  (∀ s : State, s.regs.phase = .idle →
    exec (.ksAdv 0) s = .next { s with regs := { s.regs with errCmd := true } }) ∧
  (∀ (s : State) (r : Round), s.regs.phase ≠ .idle →
    exec (.ksAdv r) s = .next { s with regs := { s.regs with errBusy := true } }) ∧
  (∀ (s : State) (w : Word), s.regs.phase = .idle → w.extractLsb' 0 8 = 0x10 →
    (w.extractLsb' 8 5 = 0 ∨ w.extractLsb' 13 19 ≠ 0) →
    command w s = .next { s with regs := { s.regs with errCmd := true } }) ∧
  (∀ s : State, s.regs.phase = .idle → s.regs.key = 0 →
    ∃ t u, exec (.ksAdv 1) s = .next t ∧ t.regs.key = 0xC0000000000000008000 ∧
      exec (.ksAdv 2) t = .next u ∧ u.regs.key = 0x50001800000000010000)

/-- R174. -/
def Obligations.BsEnsliceSlicesTheBatch : Prop :=
  encode .bsEnslice = 0x00000020 ∧ decode 0x00000020 = .ok .bsEnslice ∧
  (∀ s : State, s.regs.phase = .idle →
    ∃ r : Slices, exec .bsEnslice s = .next { s with regs := { s.regs with slice := r, done := true } } ∧
      r = toSliced s.regs.blk ∧
      ∀ i j (hi : i < 64) (hj : j < 32), r[i].getLsbD j = s.regs.blk[j].getLsbD i) ∧
  (∀ s : State, s.regs.phase ≠ .idle →
    exec .bsEnslice s = .next { s with regs := { s.regs with errBusy := true } }) ∧
  (∀ (s : State) (w : Word), s.regs.phase = .idle → w.extractLsb' 0 8 = 0x20 →
    w.extractLsb' 8 24 ≠ 0 →
    command w s = .next { s with regs := { s.regs with errCmd := true } }) ∧
  (∀ s : State, s.regs.phase = .idle → (∀ j (h : j < 32), s.regs.blk[j] = 1#64 <<< j) →
    ∃ t, exec .bsEnslice s = .next t ∧
      ∀ i (h : i < 64), t.regs.slice[i] = if i < 32 then 1#32 <<< i else 0#32)

/-- R175. -/
def Obligations.BsUnsliceRebuildsTheBatch : Prop :=
  encode .bsUnslice = 0x00000021 ∧ decode 0x00000021 = .ok .bsUnslice ∧
  (∀ s : State, s.regs.phase = .idle →
    ∃ b : Batch, exec .bsUnslice s = .next { s with regs := { s.regs with blk := b, done := true } } ∧
      b = fromSliced s.regs.slice ∧
      ∀ i j (hi : i < 64) (hj : j < 32), b[j].getLsbD i = s.regs.slice[i].getLsbD j) ∧
  (∀ s : State, s.regs.phase ≠ .idle →
    exec .bsUnslice s = .next { s with regs := { s.regs with errBusy := true } }) ∧
  (∀ (s : State) (w : Word), s.regs.phase = .idle → w.extractLsb' 0 8 = 0x21 →
    w.extractLsb' 8 24 ≠ 0 →
    command w s = .next { s with regs := { s.regs with errCmd := true } }) ∧
  (∀ s : State, s.regs.phase = .idle →
    (∃ t, execAll [.bsEnslice, .bsUnslice] s = .next t ∧ t.regs.blk = s.regs.blk) ∧
    (∃ t, execAll [.bsUnslice, .bsEnslice] s = .next t ∧ t.regs.slice = s.regs.slice)) ∧
  (∀ s : State, s.regs.phase = .idle → (∀ i (h : i < 64), s.regs.slice[i] = 0x00000001) →
    ∃ t, exec .bsUnslice s = .next t ∧
      ∀ j (h : j < 32), t.regs.blk[j] = if j = 0 then 0xFFFFFFFFFFFFFFFF else 0)

/-- R150. -/
def Obligations.BsArkMixesTheRoundKey : Prop :=
  encode .bsArk = 0x00000022 ∧ decode 0x00000022 = .ok .bsArk ∧
  (∀ s : State, s.regs.phase = .idle →
    exec .bsArk s = .next { s with
      regs := { s.regs with slice := bsArk s.regs.slice s.regs.key, done := true } }) ∧
  (∀ s : State, s.regs.phase ≠ .idle →
    exec .bsArk s = .next { s with regs := { s.regs with errBusy := true } }) ∧
  (∀ (s : State) (w : Word), s.regs.phase = .idle → w.extractLsb' 0 8 = 0x22 →
    w.extractLsb' 8 24 ≠ 0 →
    command w s = .next { s with regs := { s.regs with errCmd := true } }) ∧
  (∀ (r : Slices) (k k' : Key), k.extractLsb' 16 64 = k'.extractLsb' 16 64 → bsArk r k = bsArk r k') ∧
  (∀ (r : Slices) (k : Key) (i : Nat) (h : i < 64),
    (bsArk r k)[i] = r[i] ∨ (bsArk r k)[i] = ~~~r[i]) ∧
  (∀ s : State, s.regs.phase = .idle → s.regs.key = 0x0123456789ABCDEF0123 →
    (∀ i (h : i < 64), s.regs.slice[i] = 0) →
    ∃ t, exec .bsArk s = .next t ∧ ∀ i (h : i < 64),
      t.regs.slice[i] =
        if i ∈ [0, 1, 2, 3, 5, 6, 7, 8, 10, 11, 14, 15, 16, 17, 19, 21, 23, 24, 27, 31, 32, 33, 34,
          37, 38, 40, 42, 46, 48, 49, 53, 56] then 0xFFFFFFFF else 0)

/-- R151. -/
def Obligations.BsSboxSubstitutesTheSlices : Prop :=
  encode .bsSbox = 0x00000023 ∧ decode 0x00000023 = .ok .bsSbox ∧
  (∀ s : State, s.regs.phase = .idle →
    exec .bsSbox s = .next { s with
      regs := { s.regs with slice := bsSub s.regs.slice, done := true } }) ∧
  (∀ s : State, s.regs.phase ≠ .idle →
    exec .bsSbox s = .next { s with regs := { s.regs with errBusy := true } }) ∧
  (∀ (s : State) (w : Word), s.regs.phase = .idle → w.extractLsb' 0 8 = 0x23 →
    w.extractLsb' 8 24 ≠ 0 →
    command w s = .next { s with regs := { s.regs with errCmd := true } }) ∧
  (∀ r : Slices, (∀ i (h : i < 64), r[i] = 0) →
    ∀ g (h : g < 16), (bsSub r)[4 * g] = 0 ∧ (bsSub r)[4 * g + 1] = 0 ∧
      (bsSub r)[4 * g + 2] = 0xFFFFFFFF ∧ (bsSub r)[4 * g + 3] = 0xFFFFFFFF) ∧
  (∀ r : Slices, (∀ i (h : i < 64), r[i] = 0xFFFFFFFF) →
    ∀ g (h : g < 16), (bsSub r)[4 * g] = 0 ∧ (bsSub r)[4 * g + 1] = 0xFFFFFFFF ∧
      (bsSub r)[4 * g + 2] = 0 ∧ (bsSub r)[4 * g + 3] = 0) ∧
  (∀ s : State, s.regs.phase = .idle → s.regs.slice[0] = 0x0000AAAA →
    s.regs.slice[1] = 0x0000CCCC → s.regs.slice[2] = 0x0000F0F0 → s.regs.slice[3] = 0x0000FF00 →
    ∃ t, exec .bsSbox s = .next t ∧ t.regs.slice[0] = 0x0000659A ∧ t.regs.slice[1] = 0x0000A74C ∧
      t.regs.slice[2] = 0xFFFF3687 ∧ t.regs.slice[3] = 0xFFFF0ED9)

/-- R152. -/
def Obligations.BsPermPermutesTheSlices : Prop :=
  encode .bsPerm = 0x00000024 ∧ decode 0x00000024 = .ok .bsPerm ∧
  (∀ s : State, s.regs.phase = .idle →
    exec .bsPerm s = .next { s with
      regs := { s.regs with slice := bsPerm s.regs.slice, done := true } }) ∧
  (∀ s : State, s.regs.phase ≠ .idle →
    exec .bsPerm s = .next { s with regs := { s.regs with errBusy := true } }) ∧
  (∀ (s : State) (w : Word), s.regs.phase = .idle → w.extractLsb' 0 8 = 0x24 →
    w.extractLsb' 8 24 ≠ 0 →
    command w s = .next { s with regs := { s.regs with errCmd := true } }) ∧
  (∀ r : Slices, (bsPerm r)[0] = r[0] ∧ (bsPerm r)[21] = r[21] ∧ (bsPerm r)[42] = r[42] ∧
    (bsPerm r)[63] = r[63]) ∧
  (∀ (r : Slices) (v : Word), (∀ i (h : i < 64), r[i] = v) → bsPerm r = r) ∧
  (∀ s : State, s.regs.phase = .idle →
    (∀ i (h : i < 64), s.regs.slice[i] = BitVec.ofNat 32 i) →
    ∃ t, exec .bsPerm s = .next t ∧ t.regs.slice.toList.take 20 =
      [0, 4, 8, 12, 16, 20, 24, 28, 32, 36, 40, 44, 48, 52, 56, 60, 1, 5, 9, 13])

/-- R153. -/
def Obligations.BsRoundRunsOneSlicedRound : Prop :=
  (∀ r : Round, encode (.bsRound r) = 0x00000025 ||| r.setWidth 32 <<< 8) ∧
  (∀ (s : State) (r : Round), s.regs.phase = .idle → r ≠ 0 →
    exec (.bsRound r) s = .next { s with
      regs := { s.regs with
        slice := bsPerm (bsSub (bsArk s.regs.slice s.regs.key))
        key := ksAdvance s.regs.key r
        done := true } }) ∧
  (∀ s : State, s.regs.phase = .idle →
    exec (.bsRound 0) s = .next { s with regs := { s.regs with errCmd := true } }) ∧
  (∀ (s : State) (r : Round), s.regs.phase ≠ .idle →
    exec (.bsRound r) s = .next { s with regs := { s.regs with errBusy := true } }) ∧
  (∀ (s : State) (w : Word), s.regs.phase = .idle → w.extractLsb' 0 8 = 0x25 →
    (w.extractLsb' 8 5 = 0 ∨ w.extractLsb' 13 19 ≠ 0) →
    command w s = .next { s with regs := { s.regs with errCmd := true } }) ∧
  (∀ s : State, s.regs.phase = .idle → (∀ i (h : i < 64), s.regs.slice[i] = 0) → s.regs.key = 0 →
    ∃ t, exec (.bsRound 1) s = .next t ∧ t.regs.key = 0xC0000000000000008000 ∧
      ∀ i (h : i < 64), t.regs.slice[i] = if i < 32 then 0 else 0xFFFFFFFF)

/-- R154. -/
def Obligations.BsEncryptRunsTheBatchCipher : Prop :=
  encode .bsEncrypt = 0x00000026 ∧ decode 0x00000026 = .ok .bsEncrypt ∧
  (∀ s : State, s.regs.phase = .idle →
    exec .bsEncrypt s = .next { s with
      regs := { s.regs with phase := .bsIn, rnd := 0, done := false } }) ∧
  (∀ s : State, s.regs.phase ≠ .idle →
    exec .bsEncrypt s = .next { s with regs := { s.regs with errBusy := true } }) ∧
  (∀ (s : State) (w : Word), s.regs.phase = .idle → w.extractLsb' 0 8 = 0x26 →
    w.extractLsb' 8 24 ≠ 0 →
    command w s = .next { s with regs := { s.regs with errCmd := true } }) ∧
  (∀ s t : State, s.regs.phase = .idle → exec .bsEncrypt s = .next t →
    (∀ n, n < 34 → (t.regs.engineSteps n).phase ≠ .idle ∧ (t.regs.engineSteps n).done = false) ∧
    ∃ b : Batch, (∀ j (h : j < 32), b[j] = (present80 s.regs.blk[j] s.regs.key).1) ∧
      t.regs.engineSteps 34 = { s.regs with
        blk := b
        slice := toSliced b
        key := keyAfter s.regs.key 31
        phase := .idle
        rnd := 0
        done := true }) ∧
  (∀ s t : State, s.regs.phase = .idle → exec .bsEncrypt s = .next t → s.regs.key = 0 →
    (∀ j (h : j < 32), s.regs.blk[j] = 0) →
    ∀ j (h : j < 32), (t.regs.engineSteps 34).blk[j] = 0x5579C1387B228445) ∧
  (∀ s t : State, s.regs.phase = .idle → exec .bsEncrypt s = .next t → s.regs.key = 0 →
    (∀ j (h : j < 32), s.regs.blk[j] = BitVec.ofNat 64 (j * 0x0101010101010101)) →
    (t.regs.engineSteps 34).blk[1] = 0x5D237D9DDDE6E865 ∧
    (t.regs.engineSteps 34).blk[2] = 0xE5B28BBD376C9D2C ∧
    (t.regs.engineSteps 34).blk[31] = 0x191C6A98F6DE125D)

/-! ### The register window -/

/-- R67, R69: what a host read returns, in the order of the pseudocode, and that it changes no state of
the CORE. -/
def Obligations.HostReadReturnsTheMappedWord : Prop :=
  (∀ (c : CoreRegs) (off n : Nat), off < 0x400 →
    (n ≠ 4 ∨ off % 4 ≠ 0 ∨ reservedOffset off = true) → memRead off n c = .fault (.busError off)) ∧
  (∀ c : CoreRegs, memRead 0x000 4 c = .next 0 ∧ memRead 0x004 4 c = .next c.statusWord) ∧
  (∀ (c : CoreRegs) (off : Nat), c.phase ≠ .idle → goodAccess off 4 = true → off ≠ 0x000 →
    off ≠ 0x004 → memRead off 4 c = .next 0) ∧
  (∀ c : CoreRegs, c.phase = .idle →
    memRead 0x010 4 c = .next (c.key.extractLsb' 0 32) ∧
    memRead 0x014 4 c = .next (c.key.extractLsb' 32 32) ∧
    memRead 0x018 4 c = .next ((c.key.extractLsb' 64 16).setWidth 32) ∧
    memRead 0x020 4 c = .next (c.state.extractLsb' 0 32) ∧
    memRead 0x024 4 c = .next (c.state.extractLsb' 32 32) ∧
    (∀ off (h1 : 0x100 ≤ off) (h2 : off ≤ 0x1FC), off % 4 = 0 →
      memRead off 4 c = .next
        (c.blk[(off - 0x100) / 4 / 2].extractLsb' (32 * ((off - 0x100) / 4 % 2)) 32)) ∧
    (∀ off (h1 : 0x200 ≤ off) (h2 : off ≤ 0x2FC), off % 4 = 0 →
      memRead off 4 c = .next c.slice[(off - 0x200) / 4])) ∧
  (∀ (s t : State) (off n x : Nat), hostOp (.read off n x) s = .next t → t.regs = s.regs)

/-- R68, R70: what a host write does, in the order of the pseudocode. -/
def Obligations.HostWriteReplacesTheMappedWord : Prop :=
  (∀ (s : State) (off n : Nat) (v : Word), off < 0x400 →
    (n ≠ 4 ∨ off % 4 ≠ 0 ∨ reservedOffset off = true) →
    memWrite off n v s = .fault (.busError off)) ∧
  (∀ (s : State) (v : Word), memWrite 0x004 4 v s = .next { s with
    regs := { s.regs with
      done := if v.getLsbD 1 then false else s.regs.done
      errCmd := if v.getLsbD 2 then false else s.regs.errCmd
      errBusy := if v.getLsbD 3 then false else s.regs.errBusy } }) ∧
  (∀ (s : State) (off : Nat) (v : Word), s.regs.phase ≠ .idle → goodAccess off 4 = true →
    off ≠ 0x004 → memWrite off 4 v s = .next { s with regs := { s.regs with errBusy := true } }) ∧
  (∀ (s : State) (v : Word), s.regs.phase = .idle →
    memWrite 0x000 4 v s = command v s ∧
    (∃ k : Key, memWrite 0x010 4 v s = .next { s with regs := { s.regs with key := k } } ∧
      k.extractLsb' 0 32 = v ∧ k.extractLsb' 32 48 = s.regs.key.extractLsb' 32 48) ∧
    (∃ k : Key, memWrite 0x014 4 v s = .next { s with regs := { s.regs with key := k } } ∧
      k.extractLsb' 32 32 = v ∧ k.extractLsb' 0 32 = s.regs.key.extractLsb' 0 32 ∧
      k.extractLsb' 64 16 = s.regs.key.extractLsb' 64 16) ∧
    (∃ k : Key, memWrite 0x018 4 v s = .next { s with regs := { s.regs with key := k } } ∧
      k.extractLsb' 64 16 = v.extractLsb' 0 16 ∧
      k.extractLsb' 0 64 = s.regs.key.extractLsb' 0 64) ∧
    (∃ b : Block, memWrite 0x020 4 v s = .next { s with regs := { s.regs with state := b } } ∧
      b.extractLsb' 0 32 = v ∧ b.extractLsb' 32 32 = s.regs.state.extractLsb' 32 32) ∧
    (∃ b : Block, memWrite 0x024 4 v s = .next { s with regs := { s.regs with state := b } } ∧
      b.extractLsb' 32 32 = v ∧ b.extractLsb' 0 32 = s.regs.state.extractLsb' 0 32) ∧
    (∀ off (h1 : 0x100 ≤ off) (h2 : off ≤ 0x1FC), off % 4 = 0 →
      ∃ b : Batch, memWrite off 4 v s = .next { s with regs := { s.regs with blk := b } } ∧
        b[(off - 0x100) / 4 / 2].extractLsb' (32 * ((off - 0x100) / 4 % 2)) 32 = v ∧
        b[(off - 0x100) / 4 / 2].extractLsb' (32 * (1 - (off - 0x100) / 4 % 2)) 32 =
          s.regs.blk[(off - 0x100) / 4 / 2].extractLsb' (32 * (1 - (off - 0x100) / 4 % 2)) 32 ∧
        ∀ j (h : j < 32), j ≠ (off - 0x100) / 4 / 2 → b[j] = s.regs.blk[j]) ∧
    (∀ off (h1 : 0x200 ≤ off) (h2 : off ≤ 0x2FC), off % 4 = 0 →
      ∃ r : Slices, memWrite off 4 v s = .next { s with regs := { s.regs with slice := r } } ∧
        r[(off - 0x200) / 4] = v ∧
        ∀ i (h : i < 64), i ≠ (off - 0x200) / 4 → r[i] = s.regs.slice[i]))

/-- R62, R63, R233, R273: an access of a wrong size, misaligned or at a reserved offset ends the run with
a bus error, in every phase. R60: one outside the window is not the CORE's (its refusal is the model's,
log entry 4; that the run ends at a bus error as a fault is R273 and log entry 7). No step stops in any
other way. -/
def Obligations.WrongAccessesEndTheRun : Prop :=
  (∀ (s : State) (off n : Nat) (v : Word), s.currentOp = some (.write off n v) → off < 0x400 →
    goodAccess off n = false → step s = .fault (.busError off)) ∧
  (∀ (s : State) (off n x : Nat), s.currentOp = some (.read off n x) → off < 0x400 →
    goodAccess off n = false → step s = .fault (.busError off)) ∧
  (∀ (s : State) (off n : Nat) (v : Word), s.currentOp = some (.write off n v) → 0x400 ≤ off →
    step s = .refused (.outsideWindow off)) ∧
  (∀ (s : State) (off n x : Nat), s.currentOp = some (.read off n x) → 0x400 ≤ off →
    step s = .refused (.outsideWindow off)) ∧
  (∀ (s : State) (f : Fault), step s = .fault f →
    ∃ off n, f = .busError off ∧ off < 0x400 ∧ goodAccess off n = false ∧
      ((∃ v, s.currentOp = some (.write off n v)) ∨ ∃ x, s.currentOp = some (.read off n x))) ∧
  (∀ (s : State) (r : Refusal), step s = .refused r →
    ∃ off n, r = .outsideWindow off ∧ 0x400 ≤ off ∧
      ((∃ v, s.currentOp = some (.write off n v)) ∨ ∃ x, s.currentOp = some (.read off n x)))

/-- R41, R71: every field of `STATUS`, readable and writable in every phase, and write-1-to-clear. -/
def Obligations.StatusFieldsReadAndClear : Prop :=
  (∀ c : CoreRegs,
    c.statusWord.getLsbD 0 = decide (c.phase ≠ .idle) ∧ c.statusWord.getLsbD 1 = c.done ∧
    c.statusWord.getLsbD 2 = c.errCmd ∧ c.statusWord.getLsbD 3 = c.errBusy ∧
    c.statusWord.extractLsb' 4 4 = 0 ∧ c.statusWord.extractLsb' 8 3 = c.phase.code ∧
    c.statusWord.extractLsb' 11 5 = 0 ∧ c.statusWord.extractLsb' 16 5 = c.rnd ∧
    c.statusWord.extractLsb' 21 11 = 0 ∧
    memRead 0x004 4 c = .next c.statusWord) ∧
  (∀ (s : State) (v : Word), ∃ t, memWrite 0x004 4 v s = .next t ∧
    t = { s with regs := { s.regs with
      done := t.regs.done, errCmd := t.regs.errCmd, errBusy := t.regs.errBusy } } ∧
    (t.regs.done = true ↔ s.regs.done = true ∧ v.getLsbD 1 = false) ∧
    (t.regs.errCmd = true ↔ s.regs.errCmd = true ∧ v.getLsbD 2 = false) ∧
    (t.regs.errBusy = true ↔ s.regs.errBusy = true ∧ v.getLsbD 3 = false)) ∧
  State.reset.regs.statusWord = 0 ∧
  Phase.code .idle = 0 ∧ Phase.code .seRound = 1 ∧ Phase.code .seFinal = 2 ∧ Phase.code .bsIn = 3 ∧
  Phase.code .bsRound = 4 ∧ Phase.code .bsFinal = 5 ∧ Phase.code .bsOut = 6

/-- R66 (and R65, whose consequence it is): where the bits and bytes of the registers stand in the bus
words. -/
def Obligations.RegisterBitsStandInTheirWords : Prop :=
  (∀ c : CoreRegs, c.phase = .idle →
    (∀ i, i < 64 → ∃ w : Word, memRead (0x020 + 4 * (i / 32)) 4 c = .next w ∧
      w.getLsbD (i % 32) = c.state.getLsbD i) ∧
    (∀ k, k < 80 → ∃ w : Word, memRead (0x010 + 4 * (k / 32)) 4 c = .next w ∧
      w.getLsbD (k % 32) = c.key.getLsbD k) ∧
    (∃ w0 w1 : Word, memRead 0x020 4 c = .next w0 ∧ memRead 0x024 4 c = .next w1 ∧
      w1 ++ w0 = c.state) ∧
    (∃ w0 w1 w2 : Word, memRead 0x010 4 c = .next w0 ∧ memRead 0x014 4 c = .next w1 ∧
      memRead 0x018 4 c = .next w2 ∧ w2.extractLsb' 0 16 ++ w1 ++ w0 = c.key) ∧
    (∀ k, k < 8 → ∃ w : Word, memRead (0x020 + 4 * (k / 4)) 4 c = .next w ∧
      wordLane (k % 4) w = blockByte k c.state) ∧
    (∀ k, k < 10 → ∃ w : Word, memRead (0x010 + 4 * (k / 4)) 4 c = .next w ∧
      wordLane (k % 4) w = keyByte k c.key) ∧
    (∀ j k (h : j < 32), k < 8 → ∃ w : Word, memRead (0x100 + 4 * (2 * j + k / 4)) 4 c = .next w ∧
      wordLane (k % 4) w = blockByte k c.blk[j])) ∧
  (∀ c : CoreRegs, c.phase = .idle → c.state = 0x5579C1387B228445 →
    memRead 0x024 4 c = .next 0x5579C138 ∧ memRead 0x020 4 c = .next 0x7B228445 ∧
    (List.range 8).map (fun k => blockByte k c.state) =
      [0x45, 0x84, 0x22, 0x7B, 0x38, 0xC1, 0x79, 0x55]) ∧
  (∀ (c : CoreRegs) (off n : Nat), off < 0x400 → n ≠ 4 → memRead off n c = .fault (.busError off))

/-- R72: a write to a data register changes that register word alone. Reading it back gives the word
written (its low half for `KEY2`, R64), and every other register word, `STATUS` among them, reads as
before. -/
def Obligations.ReadBackAfterWrite : Prop :=
  ∀ (s : State) (off : Nat) (v : Word), s.regs.phase = .idle → goodAccess off 4 = true →
    off ≠ 0x000 → off ≠ 0x004 →
    ∃ c : CoreRegs, memWrite off 4 v s = .next { s with regs := c } ∧
      memRead off 4 c = .next (if off = 0x018 then (v.extractLsb' 0 16).setWidth 32 else v) ∧
      ∀ off', goodAccess off' 4 = true → off' ≠ off → memRead off' 4 c = memRead off' 4 s.regs

/-- R234: the order in which the conditions of one access are checked; at most one is reported. -/
def Obligations.OneConditionPerAccess : Prop :=
  (∀ (s : State) (off n : Nat) (v : Word), off < 0x400 → goodAccess off n = false →
    memWrite off n v s = .fault (.busError off)) ∧
  (∀ (s : State) (v : Word), ∃ t, memWrite 0x004 4 v s = .next t ∧
    (t.regs.errBusy = true → s.regs.errBusy = true) ∧ (t.regs.errCmd = true → s.regs.errCmd = true)) ∧
  (∀ (s : State) (off : Nat) (v : Word), s.regs.phase ≠ .idle → goodAccess off 4 = true →
    off ≠ 0x004 → memWrite off 4 v s = .next { s with regs := { s.regs with errBusy := true } }) ∧
  (∀ (s : State) (w : Word), s.regs.phase = .idle → legal w = false →
    memWrite 0x000 4 w s = .next { s with regs := { s.regs with errCmd := true } }) ∧
  (∀ (s : State) (w : Word), s.regs.phase ≠ .idle → legal w = false →
    ∃ t, memWrite 0x000 4 w s = .next t ∧ t.regs.errBusy = true ∧ t.regs.errCmd = s.regs.errCmd) ∧
  (∀ (s t : State) (off n : Nat) (v : Word), memWrite off n v s = .next t →
    (s.regs.errBusy = false ∧ t.regs.errBusy = true) →
    ¬(s.regs.errCmd = false ∧ t.regs.errCmd = true))

/-- R60: what the CORE does at an offset does not depend on where the window stands, and it answers to
no address outside it. -/
def Obligations.WindowPlaceDoesNotMatter : Prop :=
  (∀ (base off n : Nat) (c : CoreRegs), off < 0x400 →
    busRead base (base + off) n c = some (memRead off n c)) ∧
  (∀ (base off n : Nat) (v : Word) (s : State), off < 0x400 →
    busWrite base (base + off) n v s = some (memWrite off n v s)) ∧
  (∀ (base addr n : Nat) (c : CoreRegs), (addr < base ∨ base + 0x400 ≤ addr) →
    busRead base addr n c = none) ∧
  (∀ (base addr n : Nat) (v : Word) (s : State), (addr < base ∨ base + 0x400 ≤ addr) →
    busWrite base addr n v s = none)

/-- R46, R69: while the CORE is busy, no read tells two states apart that differ in `STATE`, `KEY`, `BLK`
or `SLICE` only. -/
def Obligations.BusyReadsRevealNoData : Prop :=
  ∀ (c d : CoreRegs) (off n : Nat), c.phase ≠ .idle → d.phase = c.phase → d.rnd = c.rnd →
    d.done = c.done → d.errCmd = c.errCmd → d.errBusy = c.errBusy →
    memRead off n d = memRead off n c

/-! ### Command acceptance and the round state machine -/

/-- R196, R231: what happens to a word written to `CMD`. -/
def Obligations.CommandWordsAreAcceptedOrRefused : Prop :=
  (∀ (s : State) (w : Word), s.regs.phase ≠ .idle →
    memWrite 0x000 4 w s = .next { s with regs := { s.regs with errBusy := true } }) ∧
  (∀ (s : State) (w : Word), s.regs.phase = .idle →
    memWrite 0x000 4 w s = command w s ∧
    (legal w = false → command w s = .next { s with regs := { s.regs with errCmd := true } }) ∧
    (w = 0x00000000 → command w s = .next s) ∧
    (w = 0x00000005 → command w s = .next { s with
      regs := { s.regs with phase := .seRound, rnd := 1, done := false } }) ∧
    (w = 0x00000026 → command w s = .next { s with
      regs := { s.regs with phase := .bsIn, rnd := 0, done := false } }) ∧
    (legal w = true → w ∉ [0x00000000#32, 0x00000005, 0x00000026] →
      ∃ (i : Instr) (c : CoreRegs), decode w = .ok i ∧ exec i s = .next { s with regs := c } ∧
        command w s = .next { s with regs := c } ∧ c.done = true ∧ c.phase = .idle ∧
        c.rnd = s.regs.rnd ∧ c.errCmd = s.regs.errCmd ∧ c.errBusy = s.regs.errBusy))

/-- R202, R203: the engine steps of `SE_ENCRYPT`, with `rnd` in 1..31 in the round phase. -/
def Obligations.ScalarEngineSteps : Prop :=
  (∀ c : CoreRegs, c.phase = .seRound → c.rnd = 31 →
    c.engineStep = { c with
      state := sRound c.state c.key, key := ksAdvance c.key 31, phase := .seFinal, rnd := 0 }) ∧
  (∀ c : CoreRegs, c.phase = .seRound → c.rnd ≠ 0 → c.rnd ≠ 31 →
    c.engineStep = { c with
      state := sRound c.state c.key, key := ksAdvance c.key c.rnd, rnd := c.rnd + 1 }) ∧
  (∀ c : CoreRegs, c.phase = .seFinal →
    c.engineStep = { c with state := ark c.state c.key, phase := .idle, done := true })

/-- R204 to R207: the engine steps of `BS_ENCRYPT`, with `rnd` in 1..31 in the round phase. -/
def Obligations.BatchEngineSteps : Prop :=
  (∀ c : CoreRegs, c.phase = .bsIn →
    c.engineStep = { c with slice := toSliced c.blk, phase := .bsRound, rnd := 1 }) ∧
  (∀ c : CoreRegs, c.phase = .bsRound → c.rnd = 31 →
    c.engineStep = { c with
      slice := bsRound c.slice c.key, key := ksAdvance c.key 31, phase := .bsFinal, rnd := 0 }) ∧
  (∀ c : CoreRegs, c.phase = .bsRound → c.rnd ≠ 0 → c.rnd ≠ 31 →
    c.engineStep = { c with
      slice := bsRound c.slice c.key, key := ksAdvance c.key c.rnd, rnd := c.rnd + 1 }) ∧
  (∀ c : CoreRegs, c.phase = .bsFinal →
    c.engineStep = { c with slice := bsArk c.slice c.key, phase := .bsOut }) ∧
  (∀ c : CoreRegs, c.phase = .bsOut →
    c.engineStep = { c with blk := fromSliced c.slice, phase := .idle, done := true })

/-- R208: the phase sequences and the step counts. -/
def Obligations.PhaseSequencesAndStepCounts : Prop :=
  (∀ s t : State, s.regs.phase = .idle → exec .seEncrypt s = .next t →
    (∀ n, n < 31 → (t.regs.engineSteps n).phase = .seRound ∧
      (t.regs.engineSteps n).rnd.toNat = n + 1) ∧
    (t.regs.engineSteps 31).phase = .seFinal ∧ (t.regs.engineSteps 31).rnd = 0 ∧
    (t.regs.engineSteps 32).phase = .idle) ∧
  (∀ s t : State, s.regs.phase = .idle → exec .bsEncrypt s = .next t →
    t.regs.phase = .bsIn ∧ t.regs.rnd = 0 ∧
    (∀ n, n < 31 → (t.regs.engineSteps (n + 1)).phase = .bsRound ∧
      (t.regs.engineSteps (n + 1)).rnd.toNat = n + 1) ∧
    (t.regs.engineSteps 32).phase = .bsFinal ∧ (t.regs.engineSteps 32).rnd = 0 ∧
    (t.regs.engineSteps 33).phase = .bsOut ∧ (t.regs.engineSteps 33).rnd = 0 ∧
    (t.regs.engineSteps 34).phase = .idle) ∧
  (∀ (s t : State) (i : Instr), s.regs.phase = .idle → i ≠ .seEncrypt → i ≠ .bsEncrypt →
    exec i s = .next t → t.regs.phase = .idle)

/-- R210: from every state the CORE is idle after finitely many events, whatever the interleaving,
unless the host itself ends the run with an access the window does not take. The weak fairness of R210
is the model's default turn, which gives the engine its step once `turns` is used up (the model's choice,
log entry 2); that such an access ends the run is log entries 4 and 7. -/
def Obligations.BusyPeriodEnds : Prop :=
  ∀ s : State, ∃ n, n ≤ s.turns.length + 34 ∧ ∃ t, core.run n s = .next t ∧
    (t.regs.phase = .idle ∨
      ∃ off size, goodAccess off size = false ∧
        ((∃ v, t.currentOp = some (.write off size v)) ∨ ∃ x, t.currentOp = some (.read off size x)))

/-- R211, the scalar half: whatever the host does in between, and however its accesses and the engine
steps interleave, when `BUSY` first returns to 0 after `SE_ENCRYPT` without a reset, `(STATE, KEY)` is
`PRESENT80` of the values at acceptance, and `BLK` and `SLICE` are as before. -/
def Obligations.ScalarResultUnderEveryInterleaving : Prop :=
  ∀ (s s0 t : State) (n : Nat), s.regs.phase = .idle → exec .seEncrypt s = .next s0 →
    s0.noResetAhead = true → core.run n s0 = .next t → t.regs.phase = .idle →
    (∀ m u, m < n → core.run m s0 = .next u → u.regs.phase ≠ .idle) →
    (t.regs.state, t.regs.key) = present80 s.regs.state s.regs.key ∧
    t.regs.blk = s.regs.blk ∧ t.regs.slice = s.regs.slice ∧ t.regs.done = true

/-- R211, the batch half: the same for `BS_ENCRYPT`, in every lane. -/
def Obligations.BatchResultUnderEveryInterleaving : Prop :=
  ∀ (s s0 t : State) (n : Nat), s.regs.phase = .idle → exec .bsEncrypt s = .next s0 →
    s0.noResetAhead = true → core.run n s0 = .next t → t.regs.phase = .idle →
    (∀ m u, m < n → core.run m s0 = .next u → u.regs.phase ≠ .idle) →
    (∀ j (h : j < 32), t.regs.blk[j] = (present80 s.regs.blk[j] s.regs.key).1) ∧
    t.regs.key = (present80 0 s.regs.key).2 ∧ t.regs.slice = toSliced t.regs.blk ∧
    t.regs.state = s.regs.state ∧ t.regs.done = true

/-- R211, cross-engine equivalence: with every batch slot holding `p`, `BS_ENCRYPT` leaves in every slot
what `SE_ENCRYPT` leaves in `STATE`, and leaves the same `KEY`. -/
def Obligations.BothEnginesAgree : Prop :=
  ∀ (s t u v : State), s.regs.phase = .idle → t.regs.phase = .idle → s.regs.key = t.regs.key →
    (∀ j (h : j < 32), t.regs.blk[j] = s.regs.state) →
    exec .seEncrypt s = .next u → exec .bsEncrypt t = .next v →
    (u.regs.engineSteps 32).key = (v.regs.engineSteps 34).key ∧
    ∀ j (h : j < 32), (v.regs.engineSteps 34).blk[j] = (u.regs.engineSteps 32).state

/-- R271: the phases and the step counts do not depend on the data: two states with the same control
fields and any data registers keep the same control fields through engine steps, through every
command and through every host write. -/
def Obligations.ProgressIsDataIndependent : Prop :=
  (∀ (c d : CoreRegs) (n : Nat), c.phase = d.phase → c.rnd = d.rnd →
    (c.engineSteps n).phase = (d.engineSteps n).phase ∧
    (c.engineSteps n).rnd = (d.engineSteps n).rnd ∧
    (c.engineSteps n).busy = (d.engineSteps n).busy) ∧
  (∀ (s t s' t' : State) (i : Instr), s.regs.phase = t.regs.phase → s.regs.rnd = t.regs.rnd →
    exec i s = .next s' → exec i t = .next t' →
    s'.regs.phase = t'.regs.phase ∧ s'.regs.rnd = t'.regs.rnd) ∧
  (∀ (s t s' t' : State) (off n : Nat) (v w : Word), s.regs.phase = t.regs.phase →
    s.regs.rnd = t.regs.rnd → (off = 0x000 → v = w) → memWrite off n v s = .next s' →
    memWrite off n w t = .next t' → s'.regs.phase = t'.regs.phase ∧ s'.regs.rnd = t'.regs.rnd) ∧
  (∀ (s t : State) (i : Instr), s.regs.phase = .idle → i ≠ .seEncrypt → i ≠ .bsEncrypt →
    exec i s = .next t → t.regs.phase = .idle)

/-- R38, R39, R40: the only events that set and that clear `DONE`, `ERR_CMD` and `ERR_BUSY`. -/
def Obligations.FlagsChangeOnlyByTheirEvents : Prop :=
  (State.reset.regs.done = false ∧ State.reset.regs.errCmd = false ∧
    State.reset.regs.errBusy = false) ∧
  (∀ s t : State, step s = .next t →
    (s.regs.done = false → (t.regs.done = true ↔
      (s.currentTurn = .engine ∧ (s.regs.phase = .seFinal ∨ s.regs.phase = .bsOut)) ∨
      (s.regs.phase = .idle ∧ ∃ w, s.currentOp = some (.write 0x000 4 w) ∧ legal w = true ∧
        w ∉ [0x00000000#32, 0x00000005, 0x00000026]))) ∧
    (s.regs.done = true → (t.regs.done = false ↔
      s.currentTurn = .reset ∨
      (∃ v, s.currentOp = some (.write 0x004 4 v) ∧ v.getLsbD 1 = true) ∨
      (s.regs.phase = .idle ∧ ∃ w, s.currentOp = some (.write 0x000 4 w) ∧
        (w = 0x00000005 ∨ w = 0x00000026)))) ∧
    (s.regs.errCmd = false → (t.regs.errCmd = true ↔
      s.regs.phase = .idle ∧ ∃ w, s.currentOp = some (.write 0x000 4 w) ∧ legal w = false)) ∧
    (s.regs.errCmd = true → (t.regs.errCmd = false ↔
      s.currentTurn = .reset ∨ ∃ v, s.currentOp = some (.write 0x004 4 v) ∧ v.getLsbD 2 = true)) ∧
    (s.regs.errBusy = false → (t.regs.errBusy = true ↔
      s.regs.phase ≠ .idle ∧ ∃ off v, s.currentOp = some (.write off 4 v) ∧
        goodAccess off 4 = true ∧ off ≠ 0x004)) ∧
    (s.regs.errBusy = true → (t.regs.errBusy = false ↔
      s.currentTurn = .reset ∨ ∃ v, s.currentOp = some (.write 0x004 4 v) ∧ v.getLsbD 3 = true)))

/-- R31 to R34, R43: the only events that change a data register: reset, an engine step of a phase that
writes it, or, while idle, a host write of its own words or a command the rules name. -/
def Obligations.DataRegistersChangeOnlyByTheirEvents : Prop :=
  ∀ s t : State, step s = .next t → s.currentTurn ≠ .reset →
    (t.regs.state ≠ s.regs.state →
      (s.currentTurn = .engine ∧ (s.regs.phase = .seRound ∨ s.regs.phase = .seFinal)) ∨
      (s.regs.phase = .idle ∧ ∃ off v, s.currentOp = some (.write off 4 v) ∧
        (off ∈ [0x020, 0x024] ∨ (off = 0x000 ∧
          v.extractLsb' 0 8 ∈ [0x01#8, 0x02, 0x03, 0x04])))) ∧
    (t.regs.key ≠ s.regs.key →
      (s.currentTurn = .engine ∧ (s.regs.phase = .seRound ∨ s.regs.phase = .bsRound)) ∨
      (s.regs.phase = .idle ∧ ∃ off v, s.currentOp = some (.write off 4 v) ∧
        (off ∈ [0x010, 0x014, 0x018] ∨ (off = 0x000 ∧
          v.extractLsb' 0 8 ∈ [0x04#8, 0x10, 0x25])))) ∧
    (t.regs.blk ≠ s.regs.blk →
      (s.currentTurn = .engine ∧ s.regs.phase = .bsOut) ∨
      (s.regs.phase = .idle ∧ ∃ off v, s.currentOp = some (.write off 4 v) ∧
        ((0x100 ≤ off ∧ off ≤ 0x1FC) ∨ (off = 0x000 ∧ v.extractLsb' 0 8 = 0x21)))) ∧
    (t.regs.slice ≠ s.regs.slice →
      (s.currentTurn = .engine ∧ (s.regs.phase = .bsIn ∨ s.regs.phase = .bsRound ∨
        s.regs.phase = .bsFinal)) ∨
      (s.regs.phase = .idle ∧ ∃ off v, s.currentOp = some (.write off 4 v) ∧
        ((0x200 ≤ off ∧ off ≤ 0x2FC) ∨ (off = 0x000 ∧
          v.extractLsb' 0 8 ∈ [0x20#8, 0x22, 0x23, 0x24, 0x25]))))

/-- R45: the read and write sets of every command, over its whole run (34 engine steps finish every
command). The set of a command that does not read a register holds of every value of it. That `DONE` is 1
at the end is R38, R199, R203 and R207, and that `NOP` is exempt from it is R198, which the model follows
against the general sentence of R45 (DEDUCED, log entry 15). -/
def Obligations.CommandsKeepToTheirRegisterSets : Prop :=
  (∀ (i : Instr) (s t : State), i.wellFormed = true → s.regs.phase = .idle → exec i s = .next t →
    (i.mnemonic ∉ ["SE_ARK", "SE_SBOX", "SE_PERM", "SE_ROUND", "SE_ENCRYPT"] →
      (t.regs.engineSteps 34).state = s.regs.state) ∧
    (i.mnemonic ∉ ["SE_ROUND", "SE_ENCRYPT", "KS_ADV", "BS_ROUND", "BS_ENCRYPT"] →
      (t.regs.engineSteps 34).key = s.regs.key) ∧
    (i.mnemonic ∉ ["BS_UNSLICE", "BS_ENCRYPT"] → (t.regs.engineSteps 34).blk = s.regs.blk) ∧
    (i.mnemonic ∉ ["BS_ENSLICE", "BS_ARK", "BS_SBOX", "BS_PERM", "BS_ROUND", "BS_ENCRYPT"] →
      (t.regs.engineSteps 34).slice = s.regs.slice) ∧
    (i.mnemonic ≠ "NOP" → (t.regs.engineSteps 34).done = true)) ∧
  (∀ (i : Instr) (s t s' t' : State), i.wellFormed = true → s.regs.phase = .idle →
    t.regs.phase = .idle → exec i s = .next s' → exec i t = .next t' →
    (i.mnemonic ∈ ["SE_ARK", "SE_SBOX", "SE_PERM", "SE_ROUND", "SE_ENCRYPT"] →
      s.regs.state = t.regs.state) →
    (i.mnemonic ∈ ["SE_ARK", "SE_ROUND", "SE_ENCRYPT", "KS_ADV", "BS_ARK", "BS_ROUND",
      "BS_ENCRYPT"] → s.regs.key = t.regs.key) →
    (i.mnemonic ∈ ["BS_ENSLICE", "BS_ENCRYPT"] → s.regs.blk = t.regs.blk) →
    (i.mnemonic ∈ ["BS_UNSLICE", "BS_ARK", "BS_SBOX", "BS_PERM", "BS_ROUND"] →
      s.regs.slice = t.regs.slice) →
    (i.mnemonic ∈ ["SE_ARK", "SE_SBOX", "SE_PERM", "SE_ROUND", "SE_ENCRYPT"] →
      (s'.regs.engineSteps 34).state = (t'.regs.engineSteps 34).state) ∧
    (i.mnemonic ∈ ["SE_ROUND", "SE_ENCRYPT", "KS_ADV", "BS_ROUND", "BS_ENCRYPT"] →
      (s'.regs.engineSteps 34).key = (t'.regs.engineSteps 34).key) ∧
    (i.mnemonic ∈ ["BS_UNSLICE", "BS_ENCRYPT"] →
      (s'.regs.engineSteps 34).blk = (t'.regs.engineSteps 34).blk) ∧
    (i.mnemonic ∈ ["BS_ENSLICE", "BS_ARK", "BS_SBOX", "BS_PERM", "BS_ROUND", "BS_ENCRYPT"] →
      (s'.regs.engineSteps 34).slice = (t'.regs.engineSteps 34).slice))

/-- R230, R236: no command and no engine step ever stops or fails; the error bits survive every command
and every engine step, and change nothing else of what a command does. -/
def Obligations.ErrorBitsAreStickyAndHarmless : Prop :=
  (∀ (i : Instr) (s : State), ∃ c : CoreRegs, exec i s = .next { s with regs := c } ∧
    (s.regs.errCmd = true → c.errCmd = true) ∧ (s.regs.errBusy = true → c.errBusy = true)) ∧
  (∀ c : CoreRegs, c.engineStep.errCmd = c.errCmd ∧ c.engineStep.errBusy = c.errBusy) ∧
  (∀ (i : Instr) (s : State) (a b : Bool), s.regs.phase = .idle → i.wellFormed = true →
    ∃ c : CoreRegs,
      exec i s = .next { s with regs := c } ∧ c.errCmd = s.regs.errCmd ∧ c.errBusy = s.regs.errBusy ∧
      exec i { s with regs := { s.regs with errCmd := a, errBusy := b } } =
        .next { s with regs := { c with errCmd := a, errBusy := b } })
end

