-- ==== Sys2Proof/Laws/Bits.lean ====
section
/-! SUPPORT. Values built bit by bit: what each bit is, and the small facts of the permutation's index
arithmetic. -/

namespace Sys2Proof.Machine

@[simp] theorem getLsbD_ofBits (n : Nat) (f : Nat → Bool) (i : Nat) :
    (ofBits n f).getLsbD i = (decide (i < n) && f i) := by
  induction n with
  | zero => simp [ofBits]
  | succ n ih =>
    simp only [ofBits, BitVec.getLsbD_cons, ih]
    by_cases h : i = n
    · simp [h]
    · have : i < n + 1 ↔ i < n := by omega
      simp [h, this]

@[simp] theorem getElem_ofBits (n : Nat) (f : Nat → Bool) (i : Nat) (h : i < n) :
    (ofBits n f)[i] = f i := by
  rw [← BitVec.getLsbD_eq_getElem, getLsbD_ofBits]
  simp [h]

/-- Two values are equal when their bits are. -/
theorem eq_ofBits {n : Nat} {v : BitVec n} {f : Nat → Bool} (h : ∀ i, i < n → v.getLsbD i = f i) :
    v = ofBits n f := by
  apply BitVec.eq_of_getLsbD_eq
  intro i hi
  rw [getLsbD_ofBits, h i hi]
  simp [hi]

theorem permIndex_lt {b : Nat} (h : b < 64) : permIndex b < 64 := by unfold permIndex; omega

theorem permSource_lt {q : Nat} (h : q < 64) : permSource q < 64 := by unfold permSource; omega

theorem permSource_permIndex {b : Nat} (h : b < 64) : permSource (permIndex b) = b := by
  unfold permSource permIndex; omega

theorem permIndex_permSource {q : Nat} (h : q < 64) : permIndex (permSource q) = q := by
  unfold permSource permIndex; omega

end Sys2Proof.Machine
end

