-- ==== Sys2Proof/Laws/State.lean ====
section
/-! SUPPORT. One lemma per field per update of the state, each true by unfolding, so that no later proof
unfolds a record update. -/

namespace Sys2Proof.Machine

section CoreUpdates

variable (c : CoreRegs)

@[simp] theorem CoreRegs.setState_state (v : Block) : (c.setState v).state = v := rfl
@[simp] theorem CoreRegs.setState_key (v : Block) : (c.setState v).key = c.key := rfl
@[simp] theorem CoreRegs.setState_blk (v : Block) : (c.setState v).blk = c.blk := rfl
@[simp] theorem CoreRegs.setState_slice (v : Block) : (c.setState v).slice = c.slice := rfl
@[simp] theorem CoreRegs.setState_phase (v : Block) : (c.setState v).phase = c.phase := rfl
@[simp] theorem CoreRegs.setState_rnd (v : Block) : (c.setState v).rnd = c.rnd := rfl
@[simp] theorem CoreRegs.setState_done (v : Block) : (c.setState v).done = c.done := rfl
@[simp] theorem CoreRegs.setState_errCmd (v : Block) : (c.setState v).errCmd = c.errCmd := rfl
@[simp] theorem CoreRegs.setState_errBusy (v : Block) : (c.setState v).errBusy = c.errBusy := rfl

@[simp] theorem CoreRegs.setKey_state (v : Key) : (c.setKey v).state = c.state := rfl
@[simp] theorem CoreRegs.setKey_key (v : Key) : (c.setKey v).key = v := rfl
@[simp] theorem CoreRegs.setKey_blk (v : Key) : (c.setKey v).blk = c.blk := rfl
@[simp] theorem CoreRegs.setKey_slice (v : Key) : (c.setKey v).slice = c.slice := rfl
@[simp] theorem CoreRegs.setKey_phase (v : Key) : (c.setKey v).phase = c.phase := rfl
@[simp] theorem CoreRegs.setKey_rnd (v : Key) : (c.setKey v).rnd = c.rnd := rfl
@[simp] theorem CoreRegs.setKey_done (v : Key) : (c.setKey v).done = c.done := rfl
@[simp] theorem CoreRegs.setKey_errCmd (v : Key) : (c.setKey v).errCmd = c.errCmd := rfl
@[simp] theorem CoreRegs.setKey_errBusy (v : Key) : (c.setKey v).errBusy = c.errBusy := rfl

@[simp] theorem CoreRegs.setBlk_state (v : Batch) : (c.setBlk v).state = c.state := rfl
@[simp] theorem CoreRegs.setBlk_key (v : Batch) : (c.setBlk v).key = c.key := rfl
@[simp] theorem CoreRegs.setBlk_blk (v : Batch) : (c.setBlk v).blk = v := rfl
@[simp] theorem CoreRegs.setBlk_slice (v : Batch) : (c.setBlk v).slice = c.slice := rfl
@[simp] theorem CoreRegs.setBlk_phase (v : Batch) : (c.setBlk v).phase = c.phase := rfl
@[simp] theorem CoreRegs.setBlk_rnd (v : Batch) : (c.setBlk v).rnd = c.rnd := rfl
@[simp] theorem CoreRegs.setBlk_done (v : Batch) : (c.setBlk v).done = c.done := rfl
@[simp] theorem CoreRegs.setBlk_errCmd (v : Batch) : (c.setBlk v).errCmd = c.errCmd := rfl
@[simp] theorem CoreRegs.setBlk_errBusy (v : Batch) : (c.setBlk v).errBusy = c.errBusy := rfl

@[simp] theorem CoreRegs.setSlice_state (v : Slices) : (c.setSlice v).state = c.state := rfl
@[simp] theorem CoreRegs.setSlice_key (v : Slices) : (c.setSlice v).key = c.key := rfl
@[simp] theorem CoreRegs.setSlice_blk (v : Slices) : (c.setSlice v).blk = c.blk := rfl
@[simp] theorem CoreRegs.setSlice_slice (v : Slices) : (c.setSlice v).slice = v := rfl
@[simp] theorem CoreRegs.setSlice_phase (v : Slices) : (c.setSlice v).phase = c.phase := rfl
@[simp] theorem CoreRegs.setSlice_rnd (v : Slices) : (c.setSlice v).rnd = c.rnd := rfl
@[simp] theorem CoreRegs.setSlice_done (v : Slices) : (c.setSlice v).done = c.done := rfl
@[simp] theorem CoreRegs.setSlice_errCmd (v : Slices) : (c.setSlice v).errCmd = c.errCmd := rfl
@[simp] theorem CoreRegs.setSlice_errBusy (v : Slices) : (c.setSlice v).errBusy = c.errBusy := rfl

@[simp] theorem CoreRegs.setControl_state (p : Phase) (r : Round) : (c.setControl p r).state = c.state := rfl
@[simp] theorem CoreRegs.setControl_key (p : Phase) (r : Round) : (c.setControl p r).key = c.key := rfl
@[simp] theorem CoreRegs.setControl_blk (p : Phase) (r : Round) : (c.setControl p r).blk = c.blk := rfl
@[simp] theorem CoreRegs.setControl_slice (p : Phase) (r : Round) : (c.setControl p r).slice = c.slice := rfl
@[simp] theorem CoreRegs.setControl_phase (p : Phase) (r : Round) : (c.setControl p r).phase = p := rfl
@[simp] theorem CoreRegs.setControl_rnd (p : Phase) (r : Round) : (c.setControl p r).rnd = r := rfl
@[simp] theorem CoreRegs.setControl_done (p : Phase) (r : Round) : (c.setControl p r).done = c.done := rfl
@[simp] theorem CoreRegs.setControl_errCmd (p : Phase) (r : Round) : (c.setControl p r).errCmd = c.errCmd := rfl
@[simp] theorem CoreRegs.setControl_errBusy (p : Phase) (r : Round) : (c.setControl p r).errBusy = c.errBusy := rfl

@[simp] theorem CoreRegs.setDone_state (b : Bool) : (c.setDone b).state = c.state := rfl
@[simp] theorem CoreRegs.setDone_key (b : Bool) : (c.setDone b).key = c.key := rfl
@[simp] theorem CoreRegs.setDone_blk (b : Bool) : (c.setDone b).blk = c.blk := rfl
@[simp] theorem CoreRegs.setDone_slice (b : Bool) : (c.setDone b).slice = c.slice := rfl
@[simp] theorem CoreRegs.setDone_phase (b : Bool) : (c.setDone b).phase = c.phase := rfl
@[simp] theorem CoreRegs.setDone_rnd (b : Bool) : (c.setDone b).rnd = c.rnd := rfl
@[simp] theorem CoreRegs.setDone_done (b : Bool) : (c.setDone b).done = b := rfl
@[simp] theorem CoreRegs.setDone_errCmd (b : Bool) : (c.setDone b).errCmd = c.errCmd := rfl
@[simp] theorem CoreRegs.setDone_errBusy (b : Bool) : (c.setDone b).errBusy = c.errBusy := rfl

@[simp] theorem CoreRegs.takeErrCmd_state : (c.takeErrCmd).state = c.state := rfl
@[simp] theorem CoreRegs.takeErrCmd_key : (c.takeErrCmd).key = c.key := rfl
@[simp] theorem CoreRegs.takeErrCmd_blk : (c.takeErrCmd).blk = c.blk := rfl
@[simp] theorem CoreRegs.takeErrCmd_slice : (c.takeErrCmd).slice = c.slice := rfl
@[simp] theorem CoreRegs.takeErrCmd_phase : (c.takeErrCmd).phase = c.phase := rfl
@[simp] theorem CoreRegs.takeErrCmd_rnd : (c.takeErrCmd).rnd = c.rnd := rfl
@[simp] theorem CoreRegs.takeErrCmd_done : (c.takeErrCmd).done = c.done := rfl
@[simp] theorem CoreRegs.takeErrCmd_errCmd : (c.takeErrCmd).errCmd = true := rfl
@[simp] theorem CoreRegs.takeErrCmd_errBusy : (c.takeErrCmd).errBusy = c.errBusy := rfl

@[simp] theorem CoreRegs.takeErrBusy_state : (c.takeErrBusy).state = c.state := rfl
@[simp] theorem CoreRegs.takeErrBusy_key : (c.takeErrBusy).key = c.key := rfl
@[simp] theorem CoreRegs.takeErrBusy_blk : (c.takeErrBusy).blk = c.blk := rfl
@[simp] theorem CoreRegs.takeErrBusy_slice : (c.takeErrBusy).slice = c.slice := rfl
@[simp] theorem CoreRegs.takeErrBusy_phase : (c.takeErrBusy).phase = c.phase := rfl
@[simp] theorem CoreRegs.takeErrBusy_rnd : (c.takeErrBusy).rnd = c.rnd := rfl
@[simp] theorem CoreRegs.takeErrBusy_done : (c.takeErrBusy).done = c.done := rfl
@[simp] theorem CoreRegs.takeErrBusy_errCmd : (c.takeErrBusy).errCmd = c.errCmd := rfl
@[simp] theorem CoreRegs.takeErrBusy_errBusy : (c.takeErrBusy).errBusy = true := rfl

@[simp] theorem CoreRegs.clearStatus_state (v : Word) : (c.clearStatus v).state = c.state := rfl
@[simp] theorem CoreRegs.clearStatus_key (v : Word) : (c.clearStatus v).key = c.key := rfl
@[simp] theorem CoreRegs.clearStatus_blk (v : Word) : (c.clearStatus v).blk = c.blk := rfl
@[simp] theorem CoreRegs.clearStatus_slice (v : Word) : (c.clearStatus v).slice = c.slice := rfl
@[simp] theorem CoreRegs.clearStatus_phase (v : Word) : (c.clearStatus v).phase = c.phase := rfl
@[simp] theorem CoreRegs.clearStatus_rnd (v : Word) : (c.clearStatus v).rnd = c.rnd := rfl
@[simp] theorem CoreRegs.clearStatus_done (v : Word) : (c.clearStatus v).done = (c.done && !v.getLsbD 1) := rfl
@[simp] theorem CoreRegs.clearStatus_errCmd (v : Word) : (c.clearStatus v).errCmd = (c.errCmd && !v.getLsbD 2) := rfl
@[simp] theorem CoreRegs.clearStatus_errBusy (v : Word) : (c.clearStatus v).errBusy = (c.errBusy && !v.getLsbD 3) := rfl

@[simp] theorem CoreRegs.leaveErrors_state (v : Word) : (c.leaveErrors v).state = c.state := rfl
@[simp] theorem CoreRegs.leaveErrors_key (v : Word) : (c.leaveErrors v).key = c.key := rfl
@[simp] theorem CoreRegs.leaveErrors_blk (v : Word) : (c.leaveErrors v).blk = c.blk := rfl
@[simp] theorem CoreRegs.leaveErrors_slice (v : Word) : (c.leaveErrors v).slice = c.slice := rfl
@[simp] theorem CoreRegs.leaveErrors_phase (v : Word) : (c.leaveErrors v).phase = c.phase := rfl
@[simp] theorem CoreRegs.leaveErrors_rnd (v : Word) : (c.leaveErrors v).rnd = c.rnd := rfl
@[simp] theorem CoreRegs.leaveErrors_done (v : Word) : (c.leaveErrors v).done = (c.done && !v.getLsbD 1) := rfl
@[simp] theorem CoreRegs.leaveErrors_errCmd (v : Word) : (c.leaveErrors v).errCmd = (c.errCmd && !v.getLsbD 2) := rfl
@[simp] theorem CoreRegs.leaveErrors_errBusy (v : Word) : (c.leaveErrors v).errBusy = (c.errBusy && !v.getLsbD 3) := rfl

end CoreUpdates

section StateUpdates

variable (s : State)

@[simp] theorem State.withRegs_regs (c : CoreRegs) : (s.withRegs c).regs = c := rfl
@[simp] theorem State.withRegs_host (c : CoreRegs) : (s.withRegs c).host = s.host := rfl
@[simp] theorem State.withRegs_turns (c : CoreRegs) : (s.withRegs c).turns = s.turns := rfl

@[simp] theorem State.jump_regs (n : Nat) : (s.jump n).regs = s.regs := rfl
@[simp] theorem State.jump_prog (n : Nat) : (s.jump n).host.prog = s.host.prog := rfl
@[simp] theorem State.jump_pc (n : Nat) : (s.jump n).host.pc = n := rfl
@[simp] theorem State.jump_vars (n : Nat) : (s.jump n).host.vars = s.host.vars := rfl
@[simp] theorem State.jump_turns (n : Nat) : (s.jump n).turns = s.turns := rfl

@[simp] theorem State.advance_regs : s.advance.regs = s.regs := rfl
@[simp] theorem State.advance_prog : s.advance.host.prog = s.host.prog := rfl
@[simp] theorem State.advance_pc : s.advance.host.pc = s.host.pc + 1 := rfl
@[simp] theorem State.advance_vars : s.advance.host.vars = s.host.vars := rfl
@[simp] theorem State.advance_turns : s.advance.turns = s.turns := rfl

@[simp] theorem State.setVar_regs (x : Nat) (v : HostVal) : (s.setVar x v).regs = s.regs := rfl
@[simp] theorem State.setVar_prog (x : Nat) (v : HostVal) : (s.setVar x v).host.prog = s.host.prog := rfl
@[simp] theorem State.setVar_pc (x : Nat) (v : HostVal) : (s.setVar x v).host.pc = s.host.pc := rfl
@[simp] theorem State.setVar_vars (x : Nat) (v : HostVal) :
    (s.setVar x v).host.vars = varsSet s.host.vars x v := rfl
@[simp] theorem State.setVar_turns (x : Nat) (v : HostVal) : (s.setVar x v).turns = s.turns := rfl

end StateUpdates

/-- `BUSY` depends on `phase` alone (R37). -/
theorem CoreRegs.busy_eq_false {c : CoreRegs} : c.busy = false ↔ c.phase = .idle := by
  simp [CoreRegs.busy]

theorem CoreRegs.busy_eq_true {c : CoreRegs} : c.busy = true ↔ c.phase ≠ .idle := by
  simp [CoreRegs.busy]

end Sys2Proof.Machine
end

