-- ==== Sys2Proof/Laws/Ops.lean ====
section
/-! SUPPORT. What the shared operations of a command can do, said once. -/

namespace Sys2Proof.Machine

/-- Everything `present` can do: three outcomes, all of them a next state that differs in the CORE
alone. -/
theorem present_cases (isLegal : Bool) (f : CoreRegs → CoreRegs) (s : State) :
    (s.regs.busy = true ∧ present isLegal f s = .next (s.withRegs s.regs.takeErrBusy)) ∨
    (s.regs.busy = false ∧ isLegal = false ∧
      present isLegal f s = .next (s.withRegs s.regs.takeErrCmd)) ∨
    (s.regs.busy = false ∧ isLegal = true ∧ present isLegal f s = .next (s.withRegs (f s.regs))) := by
  cases hb : s.regs.busy <;> cases isLegal <;> simp [present, hb]

theorem present_busy {s : State} (h : s.regs.busy = true) (isLegal : Bool)
    (f : CoreRegs → CoreRegs) :
    present isLegal f s = .next (s.withRegs s.regs.takeErrBusy) := by
  simp [present, h]

theorem present_illegal {s : State} (h : s.regs.busy = false) (f : CoreRegs → CoreRegs) :
    present false f s = .next (s.withRegs s.regs.takeErrCmd) := by
  simp [present, h]

theorem present_accepted {s : State} (h : s.regs.busy = false) (f : CoreRegs → CoreRegs) :
    present true f s = .next (s.withRegs (f s.regs)) := by
  simp [present, h]

/-- What an accepted command makes of the CORE, by command. -/
def accepted : Instr → CoreRegs → CoreRegs
  | .nop => fun c => c
  | .seArk => perform .mixKey
  | .seSbox => perform fun c => c.setState (subLayer c.state)
  | .sePerm => perform fun c => c.setState (pLayer c.state)
  | .seRound r => perform (.scalarRound r)
  | .seEncrypt => start .seRound 1
  | .ksAdv r => perform fun c => c.setKey (ksAdvance c.key r)
  | .bsEnslice => perform .sliceBatch
  | .bsUnslice => perform .unsliceBatch
  | .bsArk => perform .mixKeySliced
  | .bsSbox => perform fun c => c.setSlice (bsSub c.slice)
  | .bsPerm => perform fun c => c.setSlice (bsPerm c.slice)
  | .bsRound r => perform (.slicedRound r)
  | .bsEncrypt => start .bsIn 0

/-- Every command is one presentation: its legality and its accepted effect. -/
theorem exec_eq_present (i : Instr) (s : State) :
    exec i s = present i.wellFormed (accepted i) s := by
  cases i <;> rfl

/-! What an accepted command makes of the CORE, field by field: the one lemma per command that proofs cite
instead of unfolding its meaning. -/

section AcceptedEffects

variable (c : CoreRegs)

theorem accepted_nop : accepted .nop c = c := rfl

theorem accepted_seArk : accepted .seArk c =
      { c with state := ark c.state c.key, done := true } := rfl

theorem accepted_seSbox : accepted .seSbox c =
      { c with state := subLayer c.state, done := true } := rfl

theorem accepted_sePerm : accepted .sePerm c =
      { c with state := pLayer c.state, done := true } := rfl

theorem accepted_seRound (r : Round) : accepted (.seRound r) c =
      { c with state := sRound c.state c.key, key := ksAdvance c.key r, done := true } := rfl

theorem accepted_seEncrypt : accepted .seEncrypt c =
      { c with phase := .seRound, rnd := 1, done := false } := rfl

theorem accepted_ksAdv (r : Round) : accepted (.ksAdv r) c =
      { c with key := ksAdvance c.key r, done := true } := rfl

theorem accepted_bsEnslice : accepted .bsEnslice c =
      { c with slice := toSliced c.blk, done := true } := by
  simp only [accepted, perform, CoreRegs.setDone, CoreRegs.setSlice, CoreRegs.sliceBatch]

theorem accepted_bsUnslice : accepted .bsUnslice c =
      { c with blk := fromSliced c.slice, done := true } := by
  simp only [accepted, perform, CoreRegs.setDone, CoreRegs.setBlk, CoreRegs.unsliceBatch]

theorem accepted_bsArk : accepted .bsArk c =
      { c with slice := bsArk c.slice c.key, done := true } := by
  simp only [accepted, perform, CoreRegs.setDone, CoreRegs.setSlice, CoreRegs.mixKeySliced]

theorem accepted_bsSbox : accepted .bsSbox c =
      { c with slice := bsSub c.slice, done := true } := by
  simp only [accepted, perform, CoreRegs.setDone, CoreRegs.setSlice]

theorem accepted_bsPerm : accepted .bsPerm c =
      { c with slice := bsPerm c.slice, done := true } := by
  simp only [accepted, perform, CoreRegs.setDone, CoreRegs.setSlice]

theorem accepted_bsRound (r : Round) : accepted (.bsRound r) c =
      { c with slice := bsRound c.slice c.key, key := ksAdvance c.key r, done := true } := by
  simp only [accepted, perform, CoreRegs.setDone, CoreRegs.setSlice, CoreRegs.setKey,
    CoreRegs.slicedRound]

theorem accepted_bsEncrypt : accepted .bsEncrypt c =
      { c with phase := .bsIn, rnd := 0, done := false } := rfl

/-- No accepted command writes an error bit (R199, R200). -/
theorem accepted_errCmd (i : Instr) : (accepted i c).errCmd = c.errCmd := by
  cases i <;> simp only [accepted_nop, accepted_seArk, accepted_seSbox, accepted_sePerm,
    accepted_seRound, accepted_seEncrypt, accepted_ksAdv, accepted_bsEnslice, accepted_bsUnslice,
    accepted_bsArk, accepted_bsSbox, accepted_bsPerm, accepted_bsRound, accepted_bsEncrypt]

theorem accepted_errBusy (i : Instr) : (accepted i c).errBusy = c.errBusy := by
  cases i <;> simp only [accepted_nop, accepted_seArk, accepted_seSbox, accepted_sePerm,
    accepted_seRound, accepted_seEncrypt, accepted_ksAdv, accepted_bsEnslice, accepted_bsUnslice,
    accepted_bsArk, accepted_bsSbox, accepted_bsPerm, accepted_bsRound, accepted_bsEncrypt]

end AcceptedEffects

/-- A primitive command writes `DONE` and what its own pseudocode writes (R199). -/
@[simp] theorem perform_done (f : CoreRegs → CoreRegs) (c : CoreRegs) : (perform f c).done = true := rfl
@[simp] theorem perform_state (f : CoreRegs → CoreRegs) (c : CoreRegs) :
    (perform f c).state = (f (c.setDone false)).state := rfl
@[simp] theorem perform_key (f : CoreRegs → CoreRegs) (c : CoreRegs) :
    (perform f c).key = (f (c.setDone false)).key := rfl
@[simp] theorem perform_blk (f : CoreRegs → CoreRegs) (c : CoreRegs) :
    (perform f c).blk = (f (c.setDone false)).blk := rfl
@[simp] theorem perform_slice (f : CoreRegs → CoreRegs) (c : CoreRegs) :
    (perform f c).slice = (f (c.setDone false)).slice := rfl
@[simp] theorem perform_phase (f : CoreRegs → CoreRegs) (c : CoreRegs) :
    (perform f c).phase = (f (c.setDone false)).phase := rfl
@[simp] theorem perform_rnd (f : CoreRegs → CoreRegs) (c : CoreRegs) :
    (perform f c).rnd = (f (c.setDone false)).rnd := rfl
@[simp] theorem perform_errCmd (f : CoreRegs → CoreRegs) (c : CoreRegs) :
    (perform f c).errCmd = (f (c.setDone false)).errCmd := rfl
@[simp] theorem perform_errBusy (f : CoreRegs → CoreRegs) (c : CoreRegs) :
    (perform f c).errBusy = (f (c.setDone false)).errBusy := rfl

/-- A compound command writes `DONE`, `phase` and `rnd` at acceptance, and no data register (R200). -/
@[simp] theorem start_done (p : Phase) (r : Round) (c : CoreRegs) : (start p r c).done = false := rfl
@[simp] theorem start_state (p : Phase) (r : Round) (c : CoreRegs) : (start p r c).state = c.state := rfl
@[simp] theorem start_key (p : Phase) (r : Round) (c : CoreRegs) : (start p r c).key = c.key := rfl
@[simp] theorem start_blk (p : Phase) (r : Round) (c : CoreRegs) : (start p r c).blk = c.blk := rfl
@[simp] theorem start_slice (p : Phase) (r : Round) (c : CoreRegs) : (start p r c).slice = c.slice := rfl
@[simp] theorem start_phase (p : Phase) (r : Round) (c : CoreRegs) : (start p r c).phase = p := rfl
@[simp] theorem start_rnd (p : Phase) (r : Round) (c : CoreRegs) : (start p r c).rnd = r := rfl
@[simp] theorem start_errCmd (p : Phase) (r : Round) (c : CoreRegs) :
    (start p r c).errCmd = c.errCmd := rfl
@[simp] theorem start_errBusy (p : Phase) (r : Round) (c : CoreRegs) :
    (start p r c).errBusy = c.errBusy := rfl

/-- The next phase after a round (R202, R205). -/
theorem CoreRegs.nextRound_last {c : CoreRegs} (last : Phase) (h : c.rnd = 31) :
    c.nextRound last = c.setControl last 0 := if_pos h

theorem CoreRegs.nextRound_more {c : CoreRegs} (last : Phase) (h : c.rnd ≠ 31) :
    c.nextRound last = c.setControl c.phase (c.rnd + 1) := if_neg h

end Sys2Proof.Machine
end

