-- ==== Sys2Proof/Laws/Window.lean ====
section
/-! SUPPORT. What an access to the window can do, said once. -/

namespace Sys2Proof.Machine

/-- An access reaches a register word exactly when it is inside the window, of size 4, aligned and mapped. -/
theorem access_eq_next {off size : Nat} {p : Port} :
    access off size = .next p ↔ off < 0x400 ∧ size = 4 ∧ off % 4 = 0 ∧ portAt off = some p := by
  unfold access Config.windowBytes Config.accessBytes
  by_cases h1 : 0x400 ≤ off
  · simp [h1]
  · by_cases h2 : size ≠ 4 ∨ off % 4 ≠ 0
    · simp only [h1, h2, if_true, if_false]
      constructor
      · intro h; cases h
      · rintro ⟨_, h4, h5, _⟩; omega
    · have h3 : size = 4 ∧ off % 4 = 0 := by omega
      simp only [h1, h2, if_false]
      cases hp : portAt off <;> simp [h3]
      omega

/-- A read returns the word of the register the access reaches, or stops as the access stops. -/
theorem memRead_cases (off size : Nat) (c : CoreRegs) :
    (∃ p, access off size = .next p ∧ memRead off size c = .next (c.readWord p)) ∨
    (∃ f, access off size = .fault f ∧ memRead off size c = .fault f) ∨
    (∃ r, access off size = .refused r ∧ memRead off size c = .refused r) := by
  unfold memRead
  cases access off size <;> simp

/-- A write is the write of the register word the access reaches, or stops as the access stops. -/
theorem memWrite_cases (off size : Nat) (v : Word) (s : State) :
    (∃ p, access off size = .next p ∧ memWrite off size v s = writeWord p v s) ∨
    (∃ f, access off size = .fault f ∧ memWrite off size v s = .fault f) ∨
    (∃ r, access off size = .refused r ∧ memWrite off size v s = .refused r) := by
  unfold memWrite
  cases access off size <;> simp

/-- A command word always gives a next state that differs in the CORE alone. -/
theorem command_next (w : Word) (s : State) : ∃ c, command w s = .next (s.withRegs c) := by
  unfold command
  cases decode w with
  | error e => exact ⟨_, rfl⟩
  | ok i => exact ⟨_, exec_eq_present i s⟩

/-- Everything the write of a register word can do. -/
theorem writeWord_cases (p : Port) (v : Word) (s : State) :
    (p = .status ∧ writeWord p v s = .next (s.withRegs (s.regs.clearStatus v))) ∨
    (p ≠ .status ∧ s.regs.busy = true ∧ writeWord p v s = .next (s.withRegs s.regs.takeErrBusy)) ∨
    (p = .cmd ∧ s.regs.busy = false ∧ writeWord p v s = command v s) ∨
    (p ≠ .status ∧ p ≠ .cmd ∧ s.regs.busy = false ∧
      writeWord p v s = .next (s.withRegs (s.regs.writePort p v))) := by
  cases p <;> cases hb : s.regs.busy <;> simp [writeWord, hb, CoreRegs.leaveErrors]

/-- The write of a register word always gives a next state that differs in the CORE alone. -/
theorem writeWord_next (p : Port) (v : Word) (s : State) :
    ∃ c, writeWord p v s = .next (s.withRegs c) := by
  rcases writeWord_cases p v s with ⟨_, h⟩ | ⟨_, _, h⟩ | ⟨_, _, h⟩ | ⟨_, _, _, h⟩
  · exact ⟨_, h⟩
  · exact ⟨_, h⟩
  · exact (command_next v s).imp fun c hc => h.trans hc
  · exact ⟨_, h⟩

end Sys2Proof.Machine
end

