-- ==== Sys2Proof/Laws/Host.lean ====
section
/-! SUPPORT. The host agent: its variables, its program, and everything one event can do. -/

namespace Sys2Proof.Machine

@[simp] theorem varsGet_varsSet_same (vars : List (Nat × HostVal)) (x : Nat) (v : HostVal) :
    varsGet (varsSet vars x v) x = v := by
  induction vars with
  | nil => simp [varsSet, varsGet]
  | cons p rest ih =>
    obtain ⟨y, w⟩ := p
    simp only [varsSet]
    split
    · simp [varsGet]
    · split
      · simp [varsGet]
      · rename_i h1 h2
        simp [varsGet, h2, ih]

theorem varsGet_varsSet_other {vars : List (Nat × HostVal)} {x y : Nat} (v : HostVal) (h : y ≠ x) :
    varsGet (varsSet vars x v) y = varsGet vars y := by
  induction vars with
  | nil => simp [varsSet, varsGet, h]
  | cons p rest ih =>
    obtain ⟨z, w⟩ := p
    simp only [varsSet]
    split
    · simp [varsGet, h]
    · split
      · rename_i h1 h2
        subst h2
        simp [varsGet, h]
      · simp [varsGet, ih]

/-- The canonical form of a list is that of its tail, and the head's variable lies below the next one. -/
theorem varsSorted_cons (p : Nat × HostVal) (rest : List (Nat × HostVal)) :
    varsSorted (p :: rest) = true ↔
      (∀ q ∈ rest.head?, p.1 < q.1) ∧ varsSorted rest = true := by
  cases rest <;> simp [varsSorted]

/-- The first variable after an assignment is the assigned one or the one that was first. -/
theorem varsSet_head {vars : List (Nat × HostVal)} {x : Nat} {v : HostVal} {q : Nat × HostVal}
    (h : q ∈ (varsSet vars x v).head?) : q = (x, v) ∨ q ∈ vars.head? := by
  cases vars with
  | nil => simpa [varsSet, eq_comm] using h
  | cons p rest =>
    simp only [varsSet] at h
    split at h
    · simp_all [eq_comm]
    · split at h <;> simp_all [eq_comm]

/-- Assigning a variable keeps the canonical form. -/
theorem varsSet_sorted {vars : List (Nat × HostVal)} (x : Nat) (v : HostVal)
    (h : varsSorted vars = true) : varsSorted (varsSet vars x v) = true := by
  induction vars with
  | nil => rfl
  | cons p rest ih =>
    have ⟨hhead, hrest⟩ := (varsSorted_cons p rest).mp h
    simp only [varsSet]
    split
    · rename_i hxy
      exact (varsSorted_cons _ _).mpr ⟨by simpa using hxy, h⟩
    · split
      · rename_i hxy
        exact (varsSorted_cons _ _).mpr ⟨by simpa [hxy] using hhead, hrest⟩
      · refine (varsSorted_cons _ _).mpr ⟨fun q hq => ?_, ih hrest⟩
        rcases varsSet_head hq with rfl | hq
        · show p.1 < x
          omega
        · exact hhead q hq

/-- The line that `progWithLine` puts in place is there. -/
theorem progWithLine_get {prog : List HostOp} {n : Nat} (h : n ≤ prog.length) (op : HostOp) :
    (progWithLine prog n op)[n]? = some op := by
  simp [progWithLine, h]

/-- One line of the host program: everything it can do. -/
theorem hostOp_cases (op : HostOp) (s : State) :
    (∃ off size v, op = .write off size v ∧ hostOp op s = memWrite off size v s.advance) ∨
    (∃ off size x v, op = .read off size x ∧ memRead off size s.regs = .next v ∧
      hostOp op s = .next (s.advance.setVar x (v.setWidth 80))) ∨
    (∃ off size x f, op = .read off size x ∧ memRead off size s.regs = .fault f ∧
      hostOp op s = .fault f) ∨
    (∃ off size x r, op = .read off size x ∧ memRead off size s.regs = .refused r ∧
      hostOp op s = .refused r) ∨
    (∃ x bit target, op = .bnz x bit target ∧
      hostOp op s = .next (if (varsGet s.host.vars x).getLsbD bit then s.jump target else s.advance)) ∨
    (∃ x v, ((∃ a b, op = .joinBlock x a b ∧
          v = (blockOfWords (s.varWord a) (s.varWord b)).setWidth 80) ∨
        ∃ a b c, op = .joinKey x a b c ∧ v = keyOfWords (s.varWord a) (s.varWord b) (s.varWord c)) ∧
      hostOp op s = .next (s.advance.setVar x v)) := by
  cases op with
  | write off size v => exact .inl ⟨_, _, _, rfl, rfl⟩
  | read off size x =>
    cases h : memRead off size s.regs <;> simp [hostOp, h]
  | bnz x bit target => exact .inr (.inr (.inr (.inr (.inl ⟨_, _, _, rfl, rfl⟩))))
  | joinBlock x a b => exact .inr (.inr (.inr (.inr (.inr ⟨x, _, .inl ⟨a, b, rfl, rfl⟩, rfl⟩))))
  | joinKey x a b c => exact .inr (.inr (.inr (.inr (.inr ⟨x, _, .inr ⟨a, b, c, rfl, rfl⟩, rfl⟩))))

/-- The turn a step takes, and the state it takes it in: the first turn is used up. -/
theorem step_eq_takeTurn (s : State) :
    (s.turns = [] ∧ step s = takeTurn (defaultTurn s) s) ∨
    (∃ t rest, s.turns = t :: rest ∧ step s = takeTurn t { s with turns := rest }) := by
  unfold step nextEvent
  cases h : s.turns with
  | nil => simp
  | cons t rest => exact .inr ⟨t, rest, rfl, rfl⟩

end Sys2Proof.Machine
end

