-- ==== Sys2Proof/Laws/PerInstr.lean ====
section
/-! SUPPORT. The two facts about a command as syntax that every encoding proof needs, one lemma per
constructor: which fields its word has, and what the opcode map makes of those fields. -/

namespace Sys2Proof.Laws.EncodeFields

/-- The three fields of the command's word (R91, R99). -/
def Statement (i : Instr) : Prop :=
  opcOf (encode i) = i.opc ∧ rOf (encode i) = i.operand ∧ zOf (encode i) = 0

theorem nop : Statement .nop := by unfold Statement; decide
theorem seArk : Statement .seArk := by unfold Statement; decide
theorem seSbox : Statement .seSbox := by unfold Statement; decide
theorem sePerm : Statement .sePerm := by unfold Statement; decide
theorem seRound (r : Round) : Statement (.seRound r) := by unfold Statement; revert r; decide
theorem seEncrypt : Statement .seEncrypt := by unfold Statement; decide
theorem ksAdv (r : Round) : Statement (.ksAdv r) := by unfold Statement; revert r; decide
theorem bsEnslice : Statement .bsEnslice := by unfold Statement; decide
theorem bsUnslice : Statement .bsUnslice := by unfold Statement; decide
theorem bsArk : Statement .bsArk := by unfold Statement; decide
theorem bsSbox : Statement .bsSbox := by unfold Statement; decide
theorem bsPerm : Statement .bsPerm := by unfold Statement; decide
theorem bsRound (r : Round) : Statement (.bsRound r) := by unfold Statement; revert r; decide
theorem bsEncrypt : Statement .bsEncrypt := by unfold Statement; decide

end Sys2Proof.Laws.EncodeFields

namespace Sys2Proof.Laws.OpcodeMap

/-- The opcode map reads a well-formed command back from its own opcode and operand (R93, R94). -/
def Statement (i : Instr) : Prop :=
  i.wellFormed = true → decodeOpcode i.opc.toNat i.operand = .ok i

theorem nop : Statement .nop := fun _ => rfl
theorem seArk : Statement .seArk := fun _ => rfl
theorem seSbox : Statement .seSbox := fun _ => rfl
theorem sePerm : Statement .sePerm := fun _ => rfl
theorem seRound (r : Round) : Statement (.seRound r) := fun h => if_neg (by
  simpa [Instr.wellFormed, Round.inDomain, Instr.operand] using h)
theorem seEncrypt : Statement .seEncrypt := fun _ => rfl
theorem ksAdv (r : Round) : Statement (.ksAdv r) := fun h => if_neg (by
  simpa [Instr.wellFormed, Round.inDomain, Instr.operand] using h)
theorem bsEnslice : Statement .bsEnslice := fun _ => rfl
theorem bsUnslice : Statement .bsUnslice := fun _ => rfl
theorem bsArk : Statement .bsArk := fun _ => rfl
theorem bsSbox : Statement .bsSbox := fun _ => rfl
theorem bsPerm : Statement .bsPerm := fun _ => rfl
theorem bsRound (r : Round) : Statement (.bsRound r) := fun h => if_neg (by
  simpa [Instr.wellFormed, Round.inDomain, Instr.operand] using h)
theorem bsEncrypt : Statement .bsEncrypt := fun _ => rfl

end Sys2Proof.Laws.OpcodeMap
end

