-- ==== Sys2Proof/Laws/Step.lean ====
section
/-! SUPPORT. What one step can do, said once: the step of each kind of turn, and the inversion lemma that
every invariant starts from. -/

namespace Sys2Proof.Machine

/-- A host turn runs the line the host stands at. -/
theorem step_host {s : State} {op : HostOp} (h : s.currentTurn = .host)
    (hop : s.host.prog[s.host.pc]? = some op) :
    step s = hostOp op { s with turns := s.turns.tail } := by
  unfold step nextEvent
  unfold State.currentTurn at h
  cases ht : s.turns with
  | nil =>
    simp only [ht] at h
    simp only [h, takeTurn, hostTurn, hop, List.tail_nil]
    rw [← ht]
  | cons t r =>
    simp only [ht] at h
    subst h
    simp [takeTurn, hostTurn, hop]

/-- A host turn with no line left changes nothing but the turns. -/
theorem step_host_none {s : State} (h : s.currentTurn = .host)
    (hop : s.host.prog[s.host.pc]? = none) : step s = .next { s with turns := s.turns.tail } := by
  unfold step nextEvent
  unfold State.currentTurn at h
  cases ht : s.turns with
  | nil =>
    simp only [ht] at h
    simp only [h, takeTurn, hostTurn, hop, List.tail_nil]
    rw [← ht]
  | cons t r =>
    simp only [ht] at h
    subst h
    simp [takeTurn, hostTurn, hop]

theorem step_engine {s : State} (h : s.currentTurn = .engine) :
    step s = .next { s with regs := s.regs.engineStep, turns := s.turns.tail } := by
  unfold step nextEvent
  unfold State.currentTurn at h
  cases ht : s.turns with
  | nil =>
    simp only [ht] at h
    simp [h, takeTurn, engineTurn, State.withRegs, ht]
  | cons t r =>
    simp only [ht] at h
    subst h
    simp [takeTurn, engineTurn, State.withRegs]

theorem step_reset {s : State} (h : s.currentTurn = .reset) :
    step s = .next { s with regs := .reset, turns := s.turns.tail } := by
  unfold step nextEvent
  unfold State.currentTurn at h
  cases ht : s.turns with
  | nil =>
    simp only [ht, defaultTurn] at h
    split at h <;> cases h
  | cons t r =>
    simp only [ht] at h
    subst h
    simp [takeTurn, resetTurn, State.withRegs]

theorem turn_cases (s : State) :
    s.currentTurn = .reset ∨ s.currentTurn = .engine ∨ s.currentTurn = .host := by
  cases s.currentTurn <;> simp

/-- The host performs an operation only on its turn, and it is the line it stands at. -/
theorem currentOp_eq_some {s : State} {op : HostOp} (h : s.currentOp = some op) :
    s.currentTurn = .host ∧ s.host.prog[s.host.pc]? = some op := by
  unfold State.currentOp at h
  split at h
  · exact ⟨by assumption, h⟩
  · cases h
  · cases h

/-- Everything a step that gives a next state can do. -/
theorem step_next_cases {s t : State} (h : step s = .next t) :
    (s.currentTurn = .reset ∧ t = { s with regs := .reset, turns := s.turns.tail }) ∨
    (s.currentTurn = .engine ∧ t = { s with regs := s.regs.engineStep, turns := s.turns.tail }) ∨
    (s.currentTurn = .host ∧ s.currentOp = none ∧ t = { s with turns := s.turns.tail }) ∨
    (∃ off n v, s.currentOp = some (.write off n v) ∧
      memWrite off n v ({ s with turns := s.turns.tail } : State).advance = .next t) ∨
    (∃ off n x v, s.currentOp = some (.read off n x) ∧ memRead off n s.regs = .next v ∧
      t = ({ s with turns := s.turns.tail } : State).advance.setVar x (v.setWidth 80)) ∨
    (∃ x b n, s.currentOp = some (.bnz x b n) ∧
      t = if (varsGet s.host.vars x).getLsbD b then
          ({ s with turns := s.turns.tail } : State).jump n
        else ({ s with turns := s.turns.tail } : State).advance) ∨
    (∃ x v, ((∃ a b, s.currentOp = some (.joinBlock x a b) ∧
          v = (blockOfWords (s.varWord a) (s.varWord b)).setWidth 80) ∨
        ∃ a b c, s.currentOp = some (.joinKey x a b c) ∧
          v = keyOfWords (s.varWord a) (s.varWord b) (s.varWord c)) ∧
      t = ({ s with turns := s.turns.tail } : State).advance.setVar x v) := by
  rcases turn_cases s with ht | ht | ht
  · rw [step_reset ht] at h
    cases h
    exact .inl ⟨ht, rfl⟩
  · rw [step_engine ht] at h
    cases h
    exact .inr (.inl ⟨ht, rfl⟩)
  · have hc : s.currentOp = s.host.prog[s.host.pc]? := by simp [State.currentOp, ht]
    cases hop : s.host.prog[s.host.pc]? with
    | none =>
      rw [step_host_none ht hop] at h
      cases h
      exact .inr (.inr (.inl ⟨ht, hc.trans hop, rfl⟩))
    | some op =>
      rw [hop] at hc
      rw [step_host ht hop] at h
      rcases hostOp_cases op { s with turns := s.turns.tail } with
        ⟨o, n, v, rfl, h2⟩ | ⟨o, n, x, v, rfl, h1, h2⟩ | ⟨o, n, x, v, rfl, h1, h2⟩ |
        ⟨o, n, x, v, rfl, h1, h2⟩ | ⟨x, b, n, rfl, h2⟩ | ⟨x, v, h1, h2⟩ <;> rw [h2] at h
      · exact .inr (.inr (.inr (.inl ⟨o, n, v, hc, h⟩)))
      · cases h
        exact .inr (.inr (.inr (.inr (.inl ⟨o, n, x, v, hc, h1, rfl⟩))))
      · cases h
      · cases h
      · cases h
        exact .inr (.inr (.inr (.inr (.inr (.inl ⟨x, b, n, hc, rfl⟩)))))
      · cases h
        refine .inr (.inr (.inr (.inr (.inr (.inr ⟨x, v, ?_, rfl⟩)))))
        rcases h1 with ⟨a, b, rfl, hv⟩ | ⟨a, b, c, rfl, hv⟩
        · exact .inl ⟨a, b, hc, hv⟩
        · exact .inr ⟨a, b, c, hc, hv⟩

/-- A run of no event, and a run of one event more. -/
theorem run_zero (s : State) : core.run 0 s = .next s := rfl

theorem run_succ (n : Nat) (s : State) :
    core.run (n + 1) s =
      match step s with
      | .next t => core.run n t
      | .fault f => .fault f
      | .refused r => .refused r := by
  simp only [Host.Core.run, core]
  cases step s <;> rfl

/-- The run of a host program has at most one end (R273): a later state of the machine is not the end of
the run. -/
theorem runEnds_unique {n m : Nat} {s t u : State} (hn : runEnds n s t) (hm : runEnds m s u) :
    n = m ∧ t = u := by
  obtain ⟨h1, h2, h3⟩ := hn
  obtain ⟨k1, k2, k3⟩ := hm
  rcases Nat.lt_trichotomy n m with h | h | h
  · simp [k3 n t h h1] at h2
  · subst h
    rw [h1] at k1
    cases k1
    exact ⟨rfl, rfl⟩
  · simp [h3 m u h k1] at k2

/-- Writing a command word that decodes to `i` while busy or idle is presenting `i`. -/
theorem memWrite_cmd {s : State} {w : Word} {i : Instr} (hd : decode w = .ok i) :
    memWrite 0x000 4 w s = exec i s := by
  have ha : access 0x000 4 = .next .cmd := rfl
  simp only [memWrite, ha, writeWord]
  split
  · rename_i hb
    rw [exec_eq_present, present_busy hb]
  · simp [command, hd]

/-- A command leaves the control fields alone or starts a compound command (R199, R200). -/
theorem exec_control (i : Instr) (s : State) :
    ∃ c, exec i s = .next (s.withRegs c) ∧
      ((c.phase = s.regs.phase ∧ c.rnd = s.regs.rnd) ∨ (c.phase = .seRound ∧ c.rnd = 1) ∨
        (c.phase = .bsIn ∧ c.rnd = 0)) := by
  rw [exec_eq_present]
  rcases present_cases i.wellFormed (accepted i) s with ⟨_, h⟩ | ⟨_, _, h⟩ | ⟨_, _, h⟩ <;>
    rw [h] <;> refine ⟨_, rfl, ?_⟩
  · simp
  · simp
  · cases i <;> simp [accepted, CoreRegs.mixKey, CoreRegs.scalarRound, CoreRegs.sliceBatch,
      CoreRegs.unsliceBatch, CoreRegs.mixKeySliced, CoreRegs.slicedRound]

/-- A host write leaves the control fields alone or starts a compound command. -/
theorem memWrite_control {off n : Nat} {v : Word} {s t : State} (h : memWrite off n v s = .next t) :
    ∃ c, t = s.withRegs c ∧
      ((c.phase = s.regs.phase ∧ c.rnd = s.regs.rnd) ∨ (c.phase = .seRound ∧ c.rnd = 1) ∨
        (c.phase = .bsIn ∧ c.rnd = 0)) := by
  rcases memWrite_cases off n v s with ⟨p, _, h2⟩ | ⟨p, _, h2⟩ | ⟨p, _, h2⟩ <;> rw [h2] at h
  · rcases writeWord_cases p v s with ⟨_, h3⟩ | ⟨_, _, h3⟩ | ⟨_, _, h3⟩ | ⟨_, _, _, h3⟩ <;>
      rw [h3] at h
    · cases h
      exact ⟨_, rfl, by simp⟩
    · cases h
      exact ⟨_, rfl, by simp⟩
    · unfold command at h
      split at h
      · rename_i i _
        obtain ⟨c, h4, h5⟩ := exec_control i s
        rw [h4] at h
        cases h
        exact ⟨_, rfl, h5⟩
      · cases h
        exact ⟨_, rfl, by simp⟩
    · cases h
      refine ⟨_, rfl, ?_⟩
      cases p <;> simp [CoreRegs.writePort]
  · cases h
  · cases h

/-- The first turn is used up by every step that gives a next state. -/
theorem step_turns {s t : State} (h : step s = .next t) : t.turns = s.turns.tail := by
  rcases step_next_cases h with ⟨_, rfl⟩ | ⟨_, rfl⟩ | ⟨_, _, rfl⟩ | ⟨o, n, v, _, h⟩ |
    ⟨o, n, x, v, _, _, rfl⟩ | ⟨x, b, n, _, rfl⟩ | ⟨x, v, _, rfl⟩
  · rfl
  · rfl
  · rfl
  · obtain ⟨c, rfl, _⟩ := memWrite_control h
    rfl
  · rfl
  · split <;> rfl
  · rfl

/-- The control fields after an engine step, as a function of the control fields before it (R201). -/
def nextControl (p : Phase) (r : Round) : Phase × Round :=
  match p with
  | .idle => (.idle, r)
  | .seRound => if r = 31 then (.seFinal, 0) else (.seRound, r + 1)
  | .seFinal => (.idle, r)
  | .bsIn => (.bsRound, 1)
  | .bsRound => if r = 31 then (.bsFinal, 0) else (.bsRound, r + 1)
  | .bsFinal => (.bsOut, r)
  | .bsOut => (.idle, r)

theorem engineStep_nextControl (c : CoreRegs) :
    (c.engineStep.phase, c.engineStep.rnd) = nextControl c.phase c.rnd := by
  unfold CoreRegs.engineStep nextControl
  cases hp : c.phase <;>
    simp only [CoreRegs.mixKey, CoreRegs.complete, CoreRegs.nextRound, CoreRegs.scalarRound,
      CoreRegs.slicedRound, CoreRegs.sliceBatch, CoreRegs.unsliceBatch, CoreRegs.mixKeySliced] <;>
    simp [hp] <;> split <;> simp

end Sys2Proof.Machine
end

