-- ==== Sys2Proof/Tests/Slice0.lean ====
section
/-! SUPPORT. Tests with expected values from `95_test_vectors.md` and the rules' own examples, and one
witness theorem for every statement with hypotheses. -/

namespace Sys2Proof.Tests

open Sys2Proof Sys2Proof.Machine

set_option Elab.async false

/-! ### States and readers for the tests -/

/-- The next state of an outcome, if it is one. -/
def nextOf : Host.Outcome State Fault Refusal → Option State
  | .next s => some s
  | .fault _ => none
  | .refused _ => none

/-- One field of the CORE in the next state of an outcome. -/
def after {α : Type} (f : CoreRegs → α) (o : Host.Outcome State Fault Refusal) : Option α :=
  (nextOf o).map fun s => f s.regs

/-- The fault of an outcome, if it is one. -/
def faultOf {σ : Type} : Host.Outcome σ Fault Refusal → Option Fault
  | .fault f => some f
  | .next _ => none
  | .refused _ => none

/-- The refusal of an outcome, if it is one. -/
def refusalOf {σ : Type} : Host.Outcome σ Fault Refusal → Option Refusal
  | .refused r => some r
  | .next _ => none
  | .fault _ => none

/-- The word a read returns, if it returns one. -/
def wordOf : Host.Outcome Word Fault Refusal → Option Word
  | .next w => some w
  | .fault _ => none
  | .refused _ => none

theorem eq_next_of_nextOf {o : Host.Outcome State Fault Refusal} {t : State} (h : nextOf o = some t) :
    o = .next t := by
  cases o <;> simp_all [nextOf]

theorem exists_next {o : Host.Outcome State Fault Refusal} (h : (nextOf o).isSome = true) :
    ∃ t, o = .next t := by
  cases o <;> simp_all [nextOf]

/-- Idle, with `STATE` and `KEY` given. -/
def withData (p : Block) (k : Key) : State :=
  { State.reset with regs := { CoreRegs.reset with state := p, key := k } }

/-- Idle, with the slice file given. -/
def withSlice (r : Slices) (k : Key) : State :=
  { State.reset with regs := { CoreRegs.reset with slice := r, key := k } }

/-- Idle, with the batch given. -/
def withBatch (b : Batch) (k : Key) : State :=
  { State.reset with regs := { CoreRegs.reset with blk := b, key := k } }

/-- In a given phase with a given round index, data from the reset state. -/
def inPhase (p : Phase) (r : Round) : State :=
  { State.reset with regs := { CoreRegs.reset with phase := p, rnd := r } }

/-- Busy: `SE_ENCRYPT` just accepted. -/
def busySt : State := inPhase .seRound 1

/-- The host's turn comes first, and its next line is `op`. -/
def atOp (s : State) (op : HostOp) : State :=
  { s with host := { HostState.empty with prog := [op] }, turns := [.host] }

/-- The batch of V-BS2. -/
def batchV : Batch := Vector.ofFn fun j : Fin 32 => BitVec.ofNat 64 (j.val * 0x0101010101010101)

/-- The slice file `SLICE[i] = i` of V-LC2. -/
def sliceV : Slices := Vector.ofFn fun i : Fin 64 => BitVec.ofNat 32 i.val

/-- `B[j] = 1<<j` (R170). -/
def diagBatch : Batch := Vector.ofFn fun j : Fin 32 => 1#64 <<< j.val

/-- `R[i] = 1<<i` for `i` in 0..31 and 0 above (R171). -/
def diagSlices : Slices := Vector.ofFn fun i : Fin 64 => if i.val < 32 then 1#32 <<< i.val else 0#32

/-- `BLK[0]` all ones and every other block 0 (R170). -/
def onesFirst : Batch := Vector.ofFn fun j : Fin 32 => if j.val = 0 then 0xFFFFFFFFFFFFFFFF else 0

/-- The register inputs of the example of R143, in group 0. -/
def sboxSlices : Slices :=
  Vector.ofFn fun i : Fin 64 =>
    if i.val = 0 then 0x0000AAAA
    else if i.val = 1 then 0x0000CCCC
    else if i.val = 2 then 0x0000F0F0
    else if i.val = 3 then 0x0000FF00
    else 0

/-! ### WellFormed: the one check, on an ill-formed and a well-formed term of each constructor it reads -/

theorem test_wellFormed_refuses_seRound_zero : (Instr.seRound 0).wellFormed = false := by decide
theorem test_wellFormed_refuses_ksAdv_zero : (Instr.ksAdv 0).wellFormed = false := by decide
theorem test_wellFormed_refuses_bsRound_zero : (Instr.bsRound 0).wellFormed = false := by decide
theorem test_wellFormed_admits_the_ends :
    (Instr.seRound 1).wellFormed = true ∧ (Instr.ksAdv 31).wellFormed = true ∧
    (Instr.bsRound 17).wellFormed = true ∧ Instr.nop.wellFormed = true := by decide

/-! ### Decode: each constructor from a word written out bit by bit (fields Z 31:13, R 12:8, OPC 7:0 of
R91; opcodes of R93) -/

theorem test_decode_nop : decode 0b0000000000000000000_00000_00000000 = .ok .nop := by decide
theorem test_decode_seArk : decode 0b0000000000000000000_00000_00000001 = .ok .seArk := by decide
theorem test_decode_seSbox : decode 0b0000000000000000000_00000_00000010 = .ok .seSbox := by decide
theorem test_decode_sePerm : decode 0b0000000000000000000_00000_00000011 = .ok .sePerm := by decide
theorem test_decode_seRound :
    decode 0b0000000000000000000_11111_00000100 = .ok (.seRound 31) := by decide
theorem test_decode_seEncrypt :
    decode 0b0000000000000000000_00000_00000101 = .ok .seEncrypt := by decide
theorem test_decode_ksAdv : decode 0b0000000000000000000_00001_00010000 = .ok (.ksAdv 1) := by decide
theorem test_decode_bsEnslice :
    decode 0b0000000000000000000_00000_00100000 = .ok .bsEnslice := by decide
theorem test_decode_bsUnslice :
    decode 0b0000000000000000000_00000_00100001 = .ok .bsUnslice := by decide
theorem test_decode_bsArk : decode 0b0000000000000000000_00000_00100010 = .ok .bsArk := by decide
theorem test_decode_bsSbox : decode 0b0000000000000000000_00000_00100011 = .ok .bsSbox := by decide
theorem test_decode_bsPerm : decode 0b0000000000000000000_00000_00100100 = .ok .bsPerm := by decide
theorem test_decode_bsRound :
    decode 0b0000000000000000000_10001_00100101 = .ok (.bsRound 17) := by decide
theorem test_decode_bsEncrypt :
    decode 0b0000000000000000000_00000_00100110 = .ok .bsEncrypt := by decide

/-- The illegal words of V-CMD. -/
theorem test_decode_rejects :
    decode 0x00000004 = .error .operandZero ∧ decode 0x00000105 = .error .operandNotZero ∧
    decode 0x00000010 = .error .operandZero ∧ decode 0x00000006 = .error .unknownOpcode ∧
    decode 0x000000FF = .error .unknownOpcode ∧ decode 0x00000011 = .error .unknownOpcode ∧
    decode 0x00002000 = .error .reservedBits ∧ decode 0x80000005 = .error .reservedBits ∧
    decode 0x00002104 = .error .reservedBits ∧ decode 0x00000100 = .error .operandNotZero := by decide

theorem test_decodeBytes_lane_order :
    decodeBytes [0x25, 0x11, 0x00, 0x00, 0x07] = .ok (.bsRound 17, [0x07]) := by decide
theorem test_decodeBytes_truncated : decodeBytes [0x05, 0x00, 0x00] = .error .truncated := by decide

theorem test_encode_examples :
    encode .seEncrypt = 0x00000005 ∧ encode (.seRound 1) = 0x00000104 ∧
    encode (.ksAdv 31) = 0x00001F10 ∧ encode (.bsRound 17) = 0x00001125 ∧
    encode .bsEncrypt = 0x00000026 := by decide

theorem test_disassemble_operand : disassemble 0x00001F10 = "KS_ADV 31" := by decide +kernel
theorem test_disassemble_data : disassemble 0x80000005 = ".word 0x80000005" := by decide +kernel

theorem test_table_word_runs_first :
    after (·.key) (step (State.reset.withFetchWord 32 0x00000110)) = some 0xC0000000000000008000 := by
  decide +kernel

/-! ### The functions: values of V-SB2, V-PL, V-ARK, V-SR, V-KS1 to V-KS4, V-BS1, V-ENC2, V-ENC3 -/

theorem test_subLayer :
    subLayer 0xFEDCBA9876543210 = 0x21748FE3DA09B65C ∧ subLayer 0x8000000000000000 = 0x3CCCCCCCCCCCCCCC := by
  decide +kernel
theorem test_pLayer :
    pLayer 0xFEDCBA9876543210 = 0xFF00F0F0CCCCAAAA ∧ pLayer 0x5555555555555555 = 0x0000FFFF0000FFFF := by
  decide +kernel
theorem test_ark : ark 0x5579C1387B228445 0x6DAB31744F41D7008759 = 0x38D2F04C34635345 := by
  decide +kernel
theorem test_sRound : sRound 0x0123456789ABCDEF 0 = 0x9B70E16C32E559A6 := by decide +kernel
theorem test_rot_top_bit : rot 0x80000000000000000000 = 0x00001000000000000000 := by decide +kernel
theorem test_splice : splice 0x50000000000000000123 = 0x00000000000000000123 := by decide +kernel
theorem test_inject : inject 0 16 = 0x00000000000000080000 := by decide +kernel
theorem test_ksAdvance :
    ksAdvance 0x0123456789ABCDEF0123 31 = 0x1024602468ACF13AF9BD := by decide +kernel
theorem test_present80_vector :
    present80 0x0123456789ABCDEF 0x0123456789ABCDEF0123 =
      (0xF8DD50531D973BDE, 0x5D37D6AE211CDCF563C1) := by decide +kernel
theorem test_present80_published :
    (present80 0xFFFFFFFFFFFFFFFF 0xFFFFFFFFFFFFFFFFFFFF).1 = 0x3333DCD3213210D2 := by decide +kernel
theorem test_bsSbox4 :
    bsSbox4 0xAAAAAAAA 0xCCCCCCCC 0xF0F0F0F0 0xFF00FF00 2 = 0x36873687 ∧
    bsSbox4 0xAAAAAAAA 0xCCCCCCCC 0xF0F0F0F0 0xFF00FF00 3 = 0x0ED90ED9 := by decide +kernel

/-! ### The commands, one step each -/

theorem test_nop_keeps_done :
    after (·.done) (exec .nop { State.reset with regs := { CoreRegs.reset with done := true } }) = some true := by
  decide +kernel
theorem test_seArk_vector :
    after (·.state) (exec .seArk (withData 0x1234 0xFFFFFFFFFFFFFFFFFFFF)) = some 0xFFFFFFFFFFFFEDCB := by
  decide +kernel
theorem test_seSbox_vector :
    after (·.state) (exec .seSbox (withData 0x5555555555555555 0)) = some 0 := by decide +kernel
theorem test_sePerm_vector :
    after (·.state) (exec .sePerm (withData 0x0000000000000002 0)) = some 0x0000000000010000 := by
  decide +kernel
/-- V-ENC1, round 2 from the state after round 1. -/
theorem test_seRound_second :
    after (fun c => (c.state, c.key)) (exec (.seRound 2) (withData 0xFFFFFFFF00000000 0xC0000000000000008000)) =
      some (0x80FF00FFFF008000, 0x50001800000000010000) := by decide +kernel
theorem test_seRound_zero_refused :
    after (fun c => (c.errCmd, c.done, c.key)) (exec (.seRound 0) (withData 1 2)) = some (true, false, 2) := by
  decide +kernel
theorem test_seEncrypt_status :
    after (·.statusWord) (exec .seEncrypt State.reset) = some 0x00010101 := by decide +kernel
theorem test_ksAdv_vector :
    after (·.key) (exec (.ksAdv 31) (withData 0 0xFFFFFFFFFFFFFFFFFFFF)) = some 0x2FFFFFFFFFFFFFF07FFF := by
  decide +kernel
/-- V-LC1: `B[31] = 1` gives `SLICE[0] = 0x80000000`. -/
theorem test_bsEnslice_vector :
    after (fun c => (c.slice[0], c.slice[1]))
      (exec .bsEnslice (withBatch ((Vector.replicate 32 0#64).set 31 1) 0)) = some (0x80000000, 0) := by
  decide +kernel
theorem test_bsUnslice_vector :
    after (fun c => (c.blk[0], c.blk[5], c.blk[6])) (exec .bsUnslice (withSlice sliceV 0)) =
      some (0xAAAAAAAAAAAAAAAA, 0xFFFFFFFF00000000, 0) := by decide +kernel
/-- V-BS2, column `BSArk`. -/
theorem test_bsArk_vector :
    after (fun c => (c.slice[0], c.slice[3], c.slice[4], c.slice[5]))
      (exec .bsArk (withSlice (toSliced batchV) 0x0123456789ABCDEF0123)) =
      some (0x55555555, 0x00FF00FF, 0xFFFF0000, 0xFFFFFFFF) := by decide +kernel
/-- V-BS2, column `BSSub`. -/
theorem test_bsSbox_vector :
    after (fun c => (c.slice[1], c.slice[3], c.slice[4], c.slice[7]))
      (exec .bsSbox (withSlice (toSliced batchV) 0)) =
      some (0xA74CA74C, 0x0ED90ED9, 0xFFFF0000, 0x0000FFFF) := by decide +kernel
/-- V-BS2, column `BSPerm`. -/
theorem test_bsPerm_vector :
    after (fun c => (c.slice[0], c.slice[1], c.slice[2], c.slice[7]))
      (exec .bsPerm (withSlice (toSliced batchV) 0)) =
      some (0xAAAAAAAA, 0xFFFF0000, 0xAAAAAAAA, 0xFFFF0000) := by decide +kernel
/-- V-BS2: blocks 0 to 3 after one round. -/
theorem test_bsRound_vector :
    after (fun c => (lane c.slice 0, lane c.slice 1, lane c.slice 2, lane c.slice 3))
      (exec (.bsRound 1) (withSlice (toSliced batchV) 0x0123456789ABCDEF0123)) =
      some (0x9B70E16C32E559A6, 0xCF30F03C33F00CF3, 0xCE70B43962B55CA3, 0x9F60F06966F009F6) := by
  decide +kernel
theorem test_bsEncrypt_status :
    after (·.statusWord) (exec .bsEncrypt State.reset) = some 0x00000301 := by decide +kernel

/-! ### Engine steps (V-FSM1, V-FSM2) -/

theorem test_engine_last_scalar_round :
    (inPhase .seRound 31).regs.engineStep.statusWord = 0x00000201 := by decide +kernel
theorem test_engine_seFinal : (inPhase .seFinal 0).regs.engineStep.statusWord = 0x00000002 := by
  decide +kernel
theorem test_engine_bsIn : (inPhase .bsIn 0).regs.engineStep.statusWord = 0x00010401 := by
  decide +kernel
theorem test_engine_bsFinal : (inPhase .bsFinal 0).regs.engineStep.statusWord = 0x00000601 := by
  decide +kernel
theorem test_engine_bsOut : (inPhase .bsOut 0).regs.engineStep.statusWord = 0x00000002 := by
  decide +kernel

/-! ### The window (V-MEM, V-ERR) -/

theorem test_write_key2_ignores_high_half :
    after (·.key) (memWrite 0x018 4 0xFFFF0123 (withData 0 0x00000123456789ABCDEF)) =
      some 0x01230123456789ABCDEF := by decide +kernel
theorem test_write_batch_high_half :
    after (·.blk[1]) (memWrite 0x10C 4 0xCAFEF00D State.reset) = some 0xCAFEF00D00000000 := by
  decide +kernel
theorem test_write_last_slice :
    after (·.slice[63]) (memWrite 0x2FC 4 0x12345678 State.reset) = some 0x12345678 := by decide +kernel
theorem test_read_words :
    wordOf (memRead 0x024 4 (withData 0x5579C1387B228445 0).regs) = some 0x5579C138 ∧
    wordOf (memRead 0x000 4 busySt.regs) = some 0 ∧
    wordOf (memRead 0x018 4 (withData 0 0x01230123456789ABCDEF).regs) = some 0x00000123 := by
  decide +kernel
theorem test_bus_errors :
    [(0x008, 4), (0x01C, 4), (0x028, 4), (0x300, 4), (0x3FC, 4), (0x012, 4), (0x010, 1), (0x020, 2)].map
        (fun a => faultOf (memRead a.1 a.2 State.reset.regs)) =
      [some (.busError 0x008), some (.busError 0x01C), some (.busError 0x028), some (.busError 0x300),
       some (.busError 0x3FC), some (.busError 0x012), some (.busError 0x010), some (.busError 0x020)] := by
  decide +kernel
theorem test_busy_write_refused :
    after (·.statusWord) (memWrite 0x000 4 0x00000001 busySt) = some 0x00010109 := by decide +kernel
theorem test_errCmd_is_sticky :
    after (·.statusWord) (exec .seArk { State.reset with regs := { CoreRegs.reset with errCmd := true } }) =
      some 0x00000006 := by decide +kernel
theorem test_write_one_to_clear :
    after (·.statusWord) (memWrite 0x004 4 0x00000004
      { State.reset with regs := { CoreRegs.reset with errCmd := true, done := true } }) =
      some 0x00000002 := by decide +kernel
/-- The pseudo-instruction `LDKEY` writes the three words of R98. -/
theorem test_ldkey_words :
    pseudoLdKey 0x01230123456789ABCDEF =
      [.write 0x010 4 0x89ABCDEF, .write 0x014 4 0x01234567, .write 0x018 4 0x00000123] := by
  decide +kernel

/-- `CMD <MNEMONIC> <r>` writes `encode(MNEMONIC, r)` whether it is legal or not (R98, R99). -/
theorem test_pseudo_cmd_words :
    pseudoCmdWith .seEncrypt 1 = [.write 0x000 4 0x00000105] ∧
    pseudoCmdWith (.bsRound 1) 17 = [.write 0x000 4 0x00001125] ∧
    pseudoCmd (.seRound 1) = [.write 0x000 4 0x00000004] ∧
    pseudoCmd .bsEncrypt = [.write 0x000 4 0x00000026] := by decide

/-- A host about to run a program, with no turn given. -/
def running (s : State) (prog : List HostOp) : State :=
  { s with host := { HostState.empty with prog := prog } }

/-- `RDKEY`, `RDSTATE` and `RDBLK` assemble the key and the block in their variable (the values of
PRG1). -/
theorem test_read_pseudos :
    (nextOf (core.run 4 (running (withData 0 0x6DAB31744F41D7008759) (pseudoRdKey 9 0 1 2)))).map
      (fun t => varsGet t.host.vars 9) = some 0x6DAB31744F41D7008759 ∧
    (nextOf (core.run 3 (running (withData 0x5579C1387B228445 0) (pseudoRdState 9 0 1)))).map
      (fun t => varsGet t.host.vars 9) = some 0x5579C1387B228445 ∧
    (nextOf (core.run 3 (running (withBatch batchV 0) (pseudoRdBlk 31 9 0 1)))).map
      (fun t => varsGet t.host.vars 9) = some 0x1F1F1F1F1F1F1F1F := by decide +kernel

/-- A program that ends while busy is not clean, however long the machine goes on after it (R273). -/
theorem test_busy_end_is_not_clean (n : Nat) (t : State) :
    ¬ cleanRun n (running State.reset (pseudoCmd .bsEncrypt)) t := by
  rintro ⟨hr, hc⟩
  obtain ⟨u, hu⟩ := exists_next (o := core.run 1 (running State.reset (pseudoCmd .bsEncrypt)))
    (by decide +kernel)
  have hend : u.finished = true ∧ u.cleanEnd = false := by
    have h : (nextOf (core.run 1 (running State.reset (pseudoCmd .bsEncrypt)))).map
        (fun u => (u.finished, u.cleanEnd)) = some (true, false) := by decide +kernel
    rw [hu] at h
    injection h with h
    exact ⟨congrArg Prod.fst h, congrArg Prod.snd h⟩
  have h1 : runEnds 1 (running State.reset (pseudoCmd .bsEncrypt)) u := by
    refine ⟨hu, hend.1, fun m v hm hv => ?_⟩
    obtain rfl : m = 0 := by omega
    cases hv
    rfl
  rw [(runEnds_unique hr h1).2, hend.2] at hc
  cases hc

/-- `CLRST` and a read of `STATUS` run to a clean end (R273). -/
theorem test_clean_run : ∃ t, cleanRun 2 (running State.reset (pseudoClrSt ++ [r32 0x004 0])) t := by
  obtain ⟨t, ht⟩ := exists_next (o := core.run 2 (running State.reset (pseudoClrSt ++ [r32 0x004 0])))
    (by decide +kernel)
  obtain ⟨u, hu⟩ := exists_next (o := core.run 1 (running State.reset (pseudoClrSt ++ [r32 0x004 0])))
    (by decide +kernel)
  have h2 : (nextOf (core.run 2 (running State.reset (pseudoClrSt ++ [r32 0x004 0])))).map
      (fun t => (t.finished, t.cleanEnd)) = some (true, true) := by decide +kernel
  have h1 : (nextOf (core.run 1 (running State.reset (pseudoClrSt ++ [r32 0x004 0])))).map
      State.finished = some false := by decide +kernel
  rw [ht] at h2
  rw [hu] at h1
  injection h2 with h2
  injection h1 with h1
  refine ⟨t, ⟨ht, congrArg Prod.fst h2, fun m v hm hv => ?_⟩, congrArg Prod.snd h2⟩
  rcases (by omega : m = 0 ∨ m = 1) with rfl | rfl
  · cases hv
    rfl
  · rw [hu] at hv
    cases hv
    exact h1

/-! ### Witnesses: for every statement with hypotheses, concrete values that meet them, clause by clause -/

theorem witness_StepRunsTheDecodedCommand :
    (atOp State.reset (w32 0x000 0x104)).currentTurn = .host ∧
    (atOp State.reset (w32 0x000 0x104)).host.prog[(atOp State.reset (w32 0x000 0x104)).host.pc]? =
      some (.write 0x000 4 0x104) ∧
    decode 0x104 = .ok (.seRound 1) ∧ (atOp busySt (w32 0x000 0x26)).currentTurn = .host ∧
    decode 0x26 = .ok .bsEncrypt := by decide +kernel

theorem witness_RoundIndexInvariant :
    (∃ t, step busySt = .next t) ∧ (∃ t, step State.reset = .next t) ∧
    ((busySt.regs.phase = .seRound ∨ busySt.regs.phase = .bsRound) ↔
      (1 ≤ busySt.regs.rnd.toNat ∧ busySt.regs.rnd.toNat ≤ 31)) ∧
    (((inPhase .bsRound 31).regs.phase = .seRound ∨ (inPhase .bsRound 31).regs.phase = .bsRound) ↔
      (1 ≤ (inPhase .bsRound 31).regs.rnd.toNat ∧ (inPhase .bsRound 31).regs.rnd.toNat ≤ 31)) ∧
    ((State.reset.regs.phase = .seRound ∨ State.reset.regs.phase = .bsRound) ↔
      (1 ≤ State.reset.regs.rnd.toNat ∧ State.reset.regs.rnd.toNat ≤ 31)) ∧
    (Instr.ksAdv 31 ≠ .seEncrypt ∧ Instr.ksAdv 31 ≠ .bsEncrypt ∧
      (nextOf (exec (.ksAdv 31) State.reset)).isSome = true) ∧
    (nextOf (memWrite 0x004 4 0x0000000E busySt)).isSome = true ∧
    (nextOf (hostOp (.read 0x2FC 4 0) busySt)).isSome = true :=
  ⟨exists_next (by decide +kernel), exists_next (by decide +kernel), by decide +kernel, by decide +kernel,
    by decide +kernel, by decide +kernel, by decide +kernel, by decide +kernel⟩

theorem witness_TurnsActAsTheirAgents :
    ({ busySt with turns := [.reset] } : State).currentTurn = .reset ∧
    ({ State.reset with turns := [.engine] } : State).currentTurn = .engine ∧
    ({ State.reset with turns := [.engine] } : State).regs.phase = .idle ∧
    busySt.currentTurn = .engine ∧
    (atOp State.reset (.write 0x010 4 7)).currentOp = some (.write 0x010 4 7) ∧
    (atOp busySt (.read 0x004 4 0)).currentOp = some (.read 0x004 4 0) ∧
    wordOf (memRead 0x004 4 (atOp busySt (.read 0x004 4 0)).regs) = some 0x00010101 ∧
    (atOp State.reset (.bnz 0 0 5)).currentOp = some (.bnz 0 0 5) ∧
    State.reset.currentTurn = .host ∧ State.reset.host.prog.length ≤ State.reset.host.pc ∧
    varsSorted [(1, 0#80), (2, 0)] = true ∧
    (atOp State.reset (.joinBlock 2 0 1)).currentOp = some (.joinBlock 2 0 1) ∧
    (atOp busySt (.joinKey 3 0 1 2)).currentOp = some (.joinKey 3 0 1 2) ∧
    (nextOf (step (atOp State.reset (r32 0x004 3)))).isSome = true := by decide +kernel

theorem witness_DecodeOfEncodeIsTheCommand :
    (Instr.seRound 1).wellFormed = true ∧ (Instr.ksAdv 31).wellFormed = true ∧
    (Instr.bsRound 31).wellFormed = true ∧ Instr.bsEncrypt.wellFormed = true := by decide

theorem witness_DecoderAcceptsExactlyTheLegalWords :
    decode 0x00001F25 = .ok (.bsRound 31) ∧ State.reset.regs.phase = .idle ∧
    legal 0x00000025 = false ∧ legal 0x00000001 = true ∧ (0x00000001 : Word) ≠ 0 := by decide +kernel

theorem witness_LegalWordsCounted :
    (opcodeTable.map fun row => row.covers 0x00001F04) =
      [false, false, false, false, true, false, false, false, false, false, false, false, false, false] ∧
    (opcodeTable.map fun row => row.covers 0x00000004) = List.replicate 14 false ∧
    legal 0x00001F04 = true ∧ (opcodeTable.filter fun row => row.takesRound).length = 3 := by
  decide +kernel

theorem witness_EncodeBuildsTheWord :
    (Instr.ksAdv 31).takesRound = true ∧ legal (encodeWord Instr.nop.opc 0) = true ∧
    legal (encodeWord (Instr.ksAdv 0).opc 31) = true ∧ legal (encodeWord Instr.nop.opc 1) = false := by
  decide

theorem witness_DisassemblyOfEveryWord :
    Instr.bsArk.wellFormed = true ∧ Instr.bsArk.takesRound = false ∧
    (Instr.seRound 31).wellFormed = true ∧ (Instr.seRound 31).takesRound = true ∧
    legal 0xFFFFFFFF = false := by decide

theorem witness_SubLayerReplacesEveryNibble : 0 < 16 ∧ 15 < 16 := by decide

theorem witness_PermutationMovesEveryBit :
    0 < 64 ∧ 63 < 64 ∧ permIndex 62 = 47 ∧ permIndex 63 = 63 := by decide

theorem witness_RoundKeyIsTheHighBits :
    0 < 64 ∧ 63 < 64 ∧ 0 < 8 ∧ 7 < 8 ∧
    (0x0123456789ABCDEF0123 : Key).extractLsb' 16 64 = (0x0123456789ABCDEFFFFF : Key).extractLsb' 16 64 := by
  decide +kernel

theorem witness_RotatorMovesEveryKeyBit : 0 < 80 ∧ 18 < 80 ∧ 19 < 80 ∧ 79 < 80 := by decide

theorem witness_KeyAdvanceStages :
    0 < 76 ∧ 75 < 76 ∧ 0 < 5 ∧ 4 < 5 ∧ (14 < 80 ∧ (14 < 15 ∨ 19 < 14)) ∧
    (20 < 80 ∧ (20 < 15 ∨ 19 < 20)) ∧ (79 < 80 ∧ (79 < 15 ∨ 19 < 79)) := by decide

theorem witness_EncryptionIsTheRoundLoop : 0 < 31 ∧ 30 < 31 := by decide

theorem witness_SlicedKeyMixBroadcastsTheKey : 0 < 64 ∧ 63 < 64 := by decide

theorem witness_BooleanSboxReproducesTheTable : 0 < 32 ∧ 31 < 32 ∧ 0 < 4 ∧ 3 < 4 ∧ 0 < 16 ∧ 15 < 16 := by
  decide

theorem witness_SlicedPermutationMovesRegisters :
    0 < 64 ∧ permIndex 0 < 64 ∧ 63 < 64 ∧ permIndex 63 < 64 ∧
    (∀ i (h : i < 64), sliceV[i] = BitVec.ofNat 32 i) := by decide +kernel

theorem witness_LanesComputeTheScalarCipher : 0 < 32 ∧ 31 < 32 := by decide

theorem witness_LayoutConversionsTranspose :
    63 < 64 ∧ 31 < 32 ∧ 7 < 8 ∧ (∀ j (h : j < 32), diagBatch[j] = 1#64 <<< j) ∧
    (∀ j (h : j < 32), onesFirst[j] = if j = 0 then 0xFFFFFFFFFFFFFFFF else 0) ∧
    (∀ j (h : j < 32), (Vector.replicate 32 (5 : Block))[j] = 5) ∧
    (∀ i (h : i < 64), diagSlices[i] = if i < 32 then 1#32 <<< i else 0#32) := by decide +kernel

/-- The hypotheses that the statement of a command without operand shares with the others of its kind:
an idle state, a busy state, and a word of its opcode with a bit of 31:8 set, at both ends. -/
def plainHypotheses (opc : BitVec 8) (low high : Word) : Prop :=
  State.reset.regs.phase = .idle ∧ busySt.regs.phase ≠ .idle ∧ (inPhase .bsOut 0).regs.phase ≠ .idle ∧
  low.extractLsb' 0 8 = opc ∧ low.extractLsb' 8 24 ≠ 0 ∧
  high.extractLsb' 0 8 = opc ∧ high.extractLsb' 8 24 ≠ 0

theorem witness_NopChangesNothing :
    plainHypotheses 0x00 0x00000100 0x80000000 ∧ legal 0x00000003 = true ∧ (0x00000003 : Word) ≠ 0 := by
  unfold plainHypotheses; decide +kernel

theorem witness_SeArkMixesTheRoundKey :
    plainHypotheses 0x01 0x00000101 0x80000001 ∧
    (0x0123456789ABCDEF0000 : Key).extractLsb' 16 64 = (0x0123456789ABCDEF0123 : Key).extractLsb' 16 64 ∧
    (withData 0 0x0123456789ABCDEF0123).regs.phase = .idle ∧
    (withData 0 0x0123456789ABCDEF0123).regs.state = 0 ∧
    (withData 0 0x0123456789ABCDEF0123).regs.key = 0x0123456789ABCDEF0123 := by
  unfold plainHypotheses; decide +kernel

theorem witness_SeSboxSubstitutesTheState :
    plainHypotheses 0x02 0x00000102 0x80000002 ∧ 15 < 16 ∧
    (withData 0x0123456789ABCDEF 0).regs.phase = .idle ∧
    (withData 0x0123456789ABCDEF 0).regs.state = 0x0123456789ABCDEF := by
  unfold plainHypotheses; decide +kernel

theorem witness_SePermPermutesTheState :
    plainHypotheses 0x03 0x00000103 0x80000003 ∧ 0 ∈ [0, 21, 42, 63] ∧ 63 ∈ [0, 21, 42, 63] ∧
    (withData 0xCCCCCCCCCCCCCCCC 0).regs.phase = .idle ∧
    (withData 0xCCCCCCCCCCCCCCCC 0).regs.state = 0xCCCCCCCCCCCCCCCC := by
  unfold plainHypotheses; decide +kernel

/-- The hypotheses that the statement of a command with a round operand shares with the others of its
kind: both ends of the operand's range, and words with operand 0 and with a bit of 31:13 set. -/
def roundHypotheses (opc : BitVec 8) (zero high : Word) : Prop :=
  State.reset.regs.phase = .idle ∧ busySt.regs.phase ≠ .idle ∧ (1 : Round) ≠ 0 ∧ (31 : Round) ≠ 0 ∧
  zero.extractLsb' 0 8 = opc ∧ zero.extractLsb' 8 5 = 0 ∧
  high.extractLsb' 0 8 = opc ∧ high.extractLsb' 13 19 ≠ 0

theorem witness_SeRoundRunsOneScalarRound :
    roundHypotheses 0x04 0x00000004 0x00002104 ∧ State.reset.regs.state = 0 ∧ State.reset.regs.key = 0 := by
  unfold roundHypotheses; decide +kernel

theorem witness_SeEncryptRunsTheScalarCipher :
    plainHypotheses 0x05 0x00000105 0x80000005 ∧ (nextOf (exec .seEncrypt State.reset)).isSome = true ∧
    0 < 32 ∧ 31 < 32 ∧ ({ busySt with turns := [.reset] } : State).currentTurn = .reset ∧
    ({ busySt with turns := [.reset] } : State).regs.phase ≠ .idle ∧
    State.reset.regs.state = 0 ∧ State.reset.regs.key = 0 := by
  unfold plainHypotheses; decide +kernel

theorem witness_KsAdvAdvancesTheKey :
    roundHypotheses 0x10 0x00000010 0x00002110 ∧ State.reset.regs.key = 0 := by
  unfold roundHypotheses; decide +kernel

theorem witness_BsEnsliceSlicesTheBatch :
    plainHypotheses 0x20 0x00000120 0x80000020 ∧ 63 < 64 ∧ 31 < 32 ∧
    (withBatch diagBatch 0).regs.phase = .idle ∧
    (∀ j (h : j < 32), (withBatch diagBatch 0).regs.blk[j] = 1#64 <<< j) := by
  unfold plainHypotheses; decide +kernel

theorem witness_BsUnsliceRebuildsTheBatch :
    plainHypotheses 0x21 0x00000121 0x80000021 ∧ 63 < 64 ∧ 31 < 32 ∧
    (withSlice (Vector.replicate 64 1) 0).regs.phase = .idle ∧
    (∀ i (h : i < 64), (withSlice (Vector.replicate 64 1) 0).regs.slice[i] = 0x00000001) := by
  unfold plainHypotheses; decide +kernel

theorem witness_BsArkMixesTheRoundKey :
    plainHypotheses 0x22 0x00000122 0x80000022 ∧ 0 < 64 ∧ 63 < 64 ∧
    (0x0123456789ABCDEF0000 : Key).extractLsb' 16 64 = (0x0123456789ABCDEF0123 : Key).extractLsb' 16 64 ∧
    (withData 0 0x0123456789ABCDEF0123).regs.phase = .idle ∧
    (withData 0 0x0123456789ABCDEF0123).regs.key = 0x0123456789ABCDEF0123 ∧
    (∀ i (h : i < 64), (withData 0 0x0123456789ABCDEF0123).regs.slice[i] = 0) := by
  unfold plainHypotheses; decide +kernel

theorem witness_BsSboxSubstitutesTheSlices :
    plainHypotheses 0x23 0x00000123 0x80000023 ∧ 0 < 16 ∧ 15 < 16 ∧
    (∀ i (h : i < 64), (Vector.replicate 64 (0 : Word))[i] = 0) ∧
    (∀ i (h : i < 64), (Vector.replicate 64 (0xFFFFFFFF : Word))[i] = 0xFFFFFFFF) ∧
    (withSlice sboxSlices 0).regs.phase = .idle ∧ (withSlice sboxSlices 0).regs.slice[0] = 0x0000AAAA ∧
    (withSlice sboxSlices 0).regs.slice[1] = 0x0000CCCC ∧
    (withSlice sboxSlices 0).regs.slice[2] = 0x0000F0F0 ∧
    (withSlice sboxSlices 0).regs.slice[3] = 0x0000FF00 := by
  unfold plainHypotheses; decide +kernel

theorem witness_BsPermPermutesTheSlices :
    plainHypotheses 0x24 0x00000124 0x80000024 ∧
    (∀ i (h : i < 64), (Vector.replicate 64 (7 : Word))[i] = 7) ∧
    (withSlice sliceV 0).regs.phase = .idle ∧
    (∀ i (h : i < 64), (withSlice sliceV 0).regs.slice[i] = BitVec.ofNat 32 i) := by
  unfold plainHypotheses; decide +kernel

theorem witness_BsRoundRunsOneSlicedRound :
    roundHypotheses 0x25 0x00000025 0x00002125 ∧
    (∀ i (h : i < 64), State.reset.regs.slice[i] = 0) ∧ State.reset.regs.key = 0 := by
  unfold roundHypotheses; decide +kernel

theorem witness_BsEncryptRunsTheBatchCipher :
    plainHypotheses 0x26 0x00000126 0x80000026 ∧ (nextOf (exec .bsEncrypt State.reset)).isSome = true ∧
    0 < 34 ∧ 33 < 34 ∧ State.reset.regs.key = 0 ∧ (∀ j (h : j < 32), State.reset.regs.blk[j] = 0) ∧
    (withBatch batchV 0).regs.phase = .idle ∧ (withBatch batchV 0).regs.key = 0 ∧
    (nextOf (exec .bsEncrypt (withBatch batchV 0))).isSome = true ∧
    (∀ j (h : j < 32), (withBatch batchV 0).regs.blk[j] = BitVec.ofNat 64 (j * 0x0101010101010101)) := by
  unfold plainHypotheses; decide +kernel

/-- The reserved ranges at their ends, and the mapped words next to them (R61). -/
theorem witness_reserved_ranges :
    [0x007, 0x008, 0x00F, 0x010, 0x01B, 0x01C, 0x01F, 0x020, 0x027, 0x028, 0x0FF, 0x100, 0x2FF, 0x300,
      0x3FF].map reservedOffset =
    [false, true, true, false, false, true, true, false, false, true, true, false, false, true, true] := by
  decide

theorem witness_HostReadReturnsTheMappedWord :
    (0x3FC < 0x400 ∧ reservedOffset 0x3FC = true) ∧ (0x010 < 0x400 ∧ (1 : Nat) ≠ 4) ∧
    (0x012 < 0x400 ∧ 0x012 % 4 ≠ 0) ∧
    busySt.regs.phase ≠ .idle ∧ goodAccess 0x010 4 = true ∧ goodAccess 0x2FC 4 = true ∧
    State.reset.regs.phase = .idle ∧
    (0x100 ≤ 0x100 ∧ 0x100 ≤ 0x1FC ∧ 0x100 % 4 = 0) ∧ (0x100 ≤ 0x1FC ∧ 0x1FC ≤ 0x1FC ∧ 0x1FC % 4 = 0) ∧
    (0x200 ≤ 0x200 ∧ 0x200 ≤ 0x2FC ∧ 0x200 % 4 = 0) ∧ (0x200 ≤ 0x2FC ∧ 0x2FC ≤ 0x2FC ∧ 0x2FC % 4 = 0) ∧
    (nextOf (hostOp (.read 0x018 4 0) State.reset)).isSome = true := by decide +kernel

theorem witness_HostWriteReplacesTheMappedWord :
    (0x3FC < 0x400 ∧ reservedOffset 0x3FC = true) ∧ (0x010 < 0x400 ∧ (2 : Nat) ≠ 4) ∧
    (0x012 < 0x400 ∧ 0x012 % 4 ≠ 0) ∧
    busySt.regs.phase ≠ .idle ∧ goodAccess 0x000 4 = true ∧ (0x000 : Nat) ≠ 0x004 ∧
    goodAccess 0x2FC 4 = true ∧ State.reset.regs.phase = .idle ∧
    (0x100 ≤ 0x100 ∧ 0x100 ≤ 0x1FC ∧ 0x100 % 4 = 0) ∧ (0x100 ≤ 0x1FC ∧ 0x1FC ≤ 0x1FC ∧ 0x1FC % 4 = 0) ∧
    (0x200 ≤ 0x200 ∧ 0x200 ≤ 0x2FC ∧ 0x200 % 4 = 0) ∧ (0x200 ≤ 0x2FC ∧ 0x2FC ≤ 0x2FC ∧ 0x2FC % 4 = 0) := by
  decide +kernel

theorem witness_WrongAccessesEndTheRun :
    ((atOp busySt (.write 0x01C 4 1)).currentOp = some (.write 0x01C 4 1) ∧ goodAccess 0x01C 4 = false) ∧
    ((atOp State.reset (.read 0x3FF 4 0)).currentOp = some (.read 0x3FF 4 0) ∧ 0x3FF < 0x400 ∧
      goodAccess 0x3FF 4 = false) ∧
    ((atOp State.reset (.write 0x400 4 1)).currentOp = some (.write 0x400 4 1) ∧ 0x400 ≤ 0x400) ∧
    ((atOp State.reset (.read 0x404 4 0)).currentOp = some (.read 0x404 4 0) ∧ 0x400 ≤ 0x404) ∧
    faultOf (step (atOp State.reset (.read 0x008 4 0))) = some (.busError 0x008) ∧
    refusalOf (step (atOp busySt (.write 0x400 1 0))) = some (.outsideWindow 0x400) := by decide +kernel

theorem witness_RegisterBitsStandInTheirWords :
    State.reset.regs.phase = .idle ∧ 0 < 64 ∧ 63 < 64 ∧ 0 < 80 ∧ 79 < 80 ∧ 7 < 8 ∧ 9 < 10 ∧ 31 < 32 ∧
    (withData 0x5579C1387B228445 0).regs.phase = .idle ∧
    (withData 0x5579C1387B228445 0).regs.state = 0x5579C1387B228445 ∧ 0x3FF < 0x400 ∧ (8 : Nat) ≠ 4 := by
  decide +kernel

theorem witness_ReadBackAfterWrite :
    State.reset.regs.phase = .idle ∧ goodAccess 0x010 4 = true ∧ goodAccess 0x018 4 = true ∧
    goodAccess 0x2FC 4 = true ∧ goodAccess 0x000 4 = true ∧ goodAccess 0x004 4 = true ∧
    (0x018 : Nat) ≠ 0x000 ∧ (0x018 : Nat) ≠ 0x004 ∧ (0x014 : Nat) ≠ 0x018 := by decide

theorem witness_OneConditionPerAccess :
    (0x008 < 0x400 ∧ goodAccess 0x008 4 = false) ∧
    (busySt.regs.phase ≠ .idle ∧ goodAccess 0x000 4 = true ∧ (0x000 : Nat) ≠ 0x004) ∧
    (State.reset.regs.phase = .idle ∧ legal 0x00000006 = false) ∧
    (after (·.errBusy) (memWrite 0x020 4 0 busySt) = some true ∧ busySt.regs.errBusy = false) := by
  decide +kernel

theorem witness_WindowPlaceDoesNotMatter :
    0x000 < 0x400 ∧ 0x3FF < 0x400 ∧ (0x0FFF < 0x1000 ∨ 0x1000 + 0x400 ≤ 0x0FFF) ∧
    (0x1400 < 0x1000 ∨ 0x1000 + 0x400 ≤ 0x1400) := by decide

theorem witness_BusyReadsRevealNoData :
    busySt.regs.phase ≠ .idle ∧
    ({ busySt.regs with key := 1, state := 2 } : CoreRegs).phase = busySt.regs.phase ∧
    ({ busySt.regs with key := 1, state := 2 } : CoreRegs).rnd = busySt.regs.rnd ∧
    ({ busySt.regs with key := 1, state := 2 } : CoreRegs).done = busySt.regs.done ∧
    ({ busySt.regs with key := 1, state := 2 } : CoreRegs).errCmd = busySt.regs.errCmd ∧
    ({ busySt.regs with key := 1, state := 2 } : CoreRegs).errBusy = busySt.regs.errBusy := by
  decide +kernel

theorem witness_CommandWordsAreAcceptedOrRefused :
    busySt.regs.phase ≠ .idle ∧ State.reset.regs.phase = .idle ∧ legal 0x00000006 = false ∧
    legal 0x00000104 = true ∧ 0x00000104 ∉ [0x00000000#32, 0x00000005, 0x00000026] := by decide +kernel

theorem witness_ScalarEngineSteps :
    ((inPhase .seRound 31).regs.phase = .seRound ∧ (inPhase .seRound 31).regs.rnd = 31) ∧
    (busySt.regs.phase = .seRound ∧ busySt.regs.rnd ≠ 0 ∧ busySt.regs.rnd ≠ 31) ∧
    ((inPhase .seRound 30).regs.phase = .seRound ∧ (inPhase .seRound 30).regs.rnd ≠ 0 ∧
      (inPhase .seRound 30).regs.rnd ≠ 31) ∧
    (inPhase .seFinal 0).regs.phase = .seFinal := by decide +kernel

theorem witness_BatchEngineSteps :
    (inPhase .bsIn 0).regs.phase = .bsIn ∧
    ((inPhase .bsRound 31).regs.phase = .bsRound ∧ (inPhase .bsRound 31).regs.rnd = 31) ∧
    ((inPhase .bsRound 1).regs.phase = .bsRound ∧ (inPhase .bsRound 1).regs.rnd ≠ 0 ∧
      (inPhase .bsRound 1).regs.rnd ≠ 31) ∧
    (inPhase .bsFinal 0).regs.phase = .bsFinal ∧ (inPhase .bsOut 0).regs.phase = .bsOut := by
  decide +kernel

theorem witness_PhaseSequencesAndStepCounts :
    State.reset.regs.phase = .idle ∧ (nextOf (exec .seEncrypt State.reset)).isSome = true ∧
    (nextOf (exec .bsEncrypt State.reset)).isSome = true ∧ 0 < 31 ∧ 30 < 31 ∧
    Instr.ksAdv 31 ≠ .seEncrypt ∧ Instr.ksAdv 31 ≠ .bsEncrypt ∧
    (nextOf (exec (.ksAdv 31) State.reset)).isSome = true := by decide +kernel

/-- A state where a compound command has been accepted and host accesses lie between the engine steps: a
data write, a write of `STATUS` that clears the sticky bits, and a data read. -/
def interleaved (s : State) : State :=
  { s with
    host := { HostState.empty with prog := [w32 0x020 0x12345678, w32 0x004 0xE, r32 0x024 0] }
    turns := [.host, .engine, .host, .engine, .engine, .host, .engine] }

/-- Busy before each of the next `n` events. -/
def busyUntil : Nat → State → Bool
  | 0, _ => true
  | n + 1, s =>
    s.regs.busy &&
      match step s with
      | .next t => busyUntil n t
      | .fault _ => true
      | .refused _ => true

theorem busyUntil_spec (n : Nat) : ∀ s : State, busyUntil n s = true →
    ∀ m u, m < n → core.run m s = .next u → u.regs.phase ≠ .idle := by
  induction n with
  | zero => intro s _ m u hm; exact absurd hm (Nat.not_lt_zero m)
  | succ n ih =>
    intro s h m u hm hr
    rw [busyUntil, Bool.and_eq_true] at h
    cases m with
    | zero =>
      rw [run_zero] at hr
      cases hr
      exact CoreRegs.busy_eq_true.mp h.1
    | succ m =>
      rw [run_succ] at hr
      have h2 := h.2
      cases hs : step s with
      | next t =>
        rw [hs] at hr h2
        exact ih t h2 m u (Nat.lt_of_succ_lt_succ hm) hr
      | fault f => rw [hs] at hr; cases hr
      | refused r => rw [hs] at hr; cases hr

/-- The run that starts with the command `i` is idle for the first time after `n` events. -/
def endsAfter (n : Nat) (i : Instr) : Bool :=
  (nextOf (exec i (interleaved State.reset))).all fun s0 =>
    s0.noResetAhead && busyUntil n s0 &&
      (nextOf (core.run n s0)).isSome && (nextOf (core.run n s0)).all fun t => !t.regs.busy

theorem run_witness {n : Nat} {i : Instr} (hi : (nextOf (exec i (interleaved State.reset))).isSome = true)
    (h : endsAfter n i = true) :
    ∃ (s s0 t : State) (n : Nat), s.regs.phase = .idle ∧ exec i s = .next s0 ∧
      s0.noResetAhead = true ∧ core.run n s0 = .next t ∧ t.regs.phase = .idle ∧
      (∀ m u, m < n → core.run m s0 = .next u → u.regs.phase ≠ .idle) := by
  obtain ⟨s0, hs⟩ := exists_next hi
  unfold endsAfter at h
  rw [hs] at h
  replace h : (s0.noResetAhead && busyUntil n s0 && (nextOf (core.run n s0)).isSome &&
      (nextOf (core.run n s0)).all fun t => !t.regs.busy) = true := h
  simp only [Bool.and_eq_true] at h
  obtain ⟨⟨⟨h1, h2⟩, h3⟩, h4⟩ := h
  obtain ⟨t, ht⟩ := exists_next h3
  rw [ht] at h4
  replace h4 : (!t.regs.busy) = true := h4
  simp only [Bool.not_eq_true'] at h4
  exact ⟨_, s0, t, n, rfl, hs, h1, ht, CoreRegs.busy_eq_false.mp h4, busyUntil_spec n s0 h2⟩

/-- Three host events lie before the last of the 32 engine steps, so the run ends after 35 events. -/
theorem witness_ScalarResultUnderEveryInterleaving :
    ∃ (s s0 t : State) (n : Nat), s.regs.phase = .idle ∧ exec .seEncrypt s = .next s0 ∧
      s0.noResetAhead = true ∧ core.run n s0 = .next t ∧ t.regs.phase = .idle ∧
      (∀ m u, m < n → core.run m s0 = .next u → u.regs.phase ≠ .idle) :=
  run_witness (n := 35) (by decide +kernel) (by decide +kernel)

/-- The same with the 34 engine steps of `BS_ENCRYPT`. -/
theorem witness_BatchResultUnderEveryInterleaving :
    ∃ (s s0 t : State) (n : Nat), s.regs.phase = .idle ∧ exec .bsEncrypt s = .next s0 ∧
      s0.noResetAhead = true ∧ core.run n s0 = .next t ∧ t.regs.phase = .idle ∧
      (∀ m u, m < n → core.run m s0 = .next u → u.regs.phase ≠ .idle) :=
  run_witness (n := 37) (by decide +kernel) (by decide +kernel)

theorem witness_BothEnginesAgree :
    (withData 5 7).regs.phase = .idle ∧ (withBatch (Vector.replicate 32 5) 7).regs.phase = .idle ∧
    (withData 5 7).regs.key = (withBatch (Vector.replicate 32 5) 7).regs.key ∧
    (∀ j (h : j < 32), (withBatch (Vector.replicate 32 5) 7).regs.blk[j] = (withData 5 7).regs.state) ∧
    (nextOf (exec .seEncrypt (withData 5 7))).isSome = true ∧
    (nextOf (exec .bsEncrypt (withBatch (Vector.replicate 32 5) 7))).isSome = true := by decide +kernel

theorem witness_ProgressIsDataIndependent :
    ((withData 1 2).regs.phase = (withData 3 4).regs.phase ∧ (withData 1 2).regs.rnd = (withData 3 4).regs.rnd) ∧
    (nextOf (exec (.seRound 1) (withData 1 2))).isSome = true ∧
    (nextOf (exec (.seRound 1) (withData 3 4))).isSome = true ∧
    (nextOf (memWrite 0x010 4 1 (withData 1 2))).isSome = true ∧
    (nextOf (memWrite 0x010 4 9 (withData 3 4))).isSome = true ∧
    (withData 1 2).regs.phase = .idle ∧ Instr.seRound 1 ≠ .seEncrypt ∧ Instr.seRound 1 ≠ .bsEncrypt := by
  decide +kernel

/-- One step of every kind that changes a flag: the hypotheses of each clause, and the step that meets
them. -/
theorem witness_FlagsChangeOnlyByTheirEvents :
    after (·.done) (step (inPhase .seFinal 0)) = some true ∧ (inPhase .seFinal 0).regs.done = false ∧
    after (·.done) (step (atOp State.reset (w32 0x000 1))) = some true ∧
    after (·.done) (step (atOp { State.reset with regs := { CoreRegs.reset with done := true } }
      (w32 0x004 0x2))) = some false ∧
    after (·.errCmd) (step (atOp State.reset (w32 0x000 0x6))) = some true ∧
    after (·.errCmd) (step { State.reset with
      regs := { CoreRegs.reset with errCmd := true }, turns := [.reset] }) = some false ∧
    after (·.errBusy) (step (atOp busySt (w32 0x2FC 0))) = some true ∧ busySt.regs.errBusy = false ∧
    after (·.errBusy) (step (atOp { busySt with regs := { busySt.regs with errBusy := true } }
      (w32 0x004 0x8))) = some false := by decide +kernel

/-- One step of every kind that changes a data register. -/
theorem witness_DataRegistersChangeOnlyByTheirEvents :
    (nextOf (step busySt)).isSome = true ∧ busySt.currentTurn ≠ .reset ∧
    after (fun c => decide (c.state ≠ busySt.regs.state ∧ c.key ≠ busySt.regs.key)) (step busySt) = some true ∧
    after (fun c => decide (c.blk ≠ State.reset.regs.blk)) (step (atOp State.reset (w32 0x1FC 5))) = some true ∧
    after (fun c => decide (c.slice ≠ State.reset.regs.slice)) (step (atOp State.reset (w32 0x000 0x23))) =
      some true ∧ (atOp State.reset (w32 0x000 0x23)).currentTurn ≠ .reset := by decide +kernel

/-- One command for each clause, and two idle states that agree on what a command reads and differ in
what it does not read. -/
theorem witness_CommandsKeepToTheirRegisterSets :
    ([.nop, .seArk, .seSbox, .sePerm, .seRound 31, .seEncrypt, .ksAdv 1, .bsEnslice, .bsUnslice, .bsArk,
      .bsSbox, .bsPerm, .bsRound 1, .bsEncrypt] : List Instr).all (fun i => i.wellFormed &&
        (nextOf (exec i State.reset)).isSome && (nextOf (exec i (withBatch batchV 0))).isSome &&
        (nextOf (exec i (withSlice sliceV 0))).isSome) = true ∧
    (State.reset.regs.phase = .idle ∧ (withBatch batchV 0).regs.phase = .idle ∧
      (withSlice sliceV 0).regs.phase = .idle) ∧
    (Instr.bsEncrypt.mnemonic ∉ ["SE_ARK", "SE_SBOX", "SE_PERM", "SE_ROUND", "SE_ENCRYPT"] ∧
      Instr.bsSbox.mnemonic ∉ ["SE_ROUND", "SE_ENCRYPT", "KS_ADV", "BS_ROUND", "BS_ENCRYPT"] ∧
      Instr.bsEnslice.mnemonic ∉ ["BS_UNSLICE", "BS_ENCRYPT"] ∧
      Instr.seEncrypt.mnemonic ∉ ["BS_ENSLICE", "BS_ARK", "BS_SBOX", "BS_PERM", "BS_ROUND",
        "BS_ENCRYPT"] ∧ Instr.ksAdv 1 ≠ .nop) ∧
    (State.reset.regs.state = (withBatch batchV 0).regs.state ∧
      State.reset.regs.key = (withBatch batchV 0).regs.key ∧
      State.reset.regs.slice = (withBatch batchV 0).regs.slice ∧
      State.reset.regs.blk ≠ (withBatch batchV 0).regs.blk) ∧
    (State.reset.regs.blk = (withSlice sliceV 0).regs.blk ∧
      State.reset.regs.slice ≠ (withSlice sliceV 0).regs.slice) := by decide +kernel

theorem witness_ErrorBitsAreStickyAndHarmless :
    ({ State.reset with regs := { CoreRegs.reset with errCmd := true } } : State).regs.errCmd = true ∧
    ({ busySt with regs := { busySt.regs with errBusy := true } } : State).regs.errBusy = true ∧
    State.reset.regs.phase = .idle ∧ (Instr.bsRound 31).wellFormed = true := by decide +kernel

end Sys2Proof.Tests
end

/-! ## The decoder: what a word that decodes looks like (R91 to R95) -/

section DecoderFacts

namespace Sys2Proof

/-- A word is its three fields (R91). -/
theorem eq_of_fields_eq {a b : Word} (hopc : opcOf a = opcOf b) (hr : rOf a = rOf b)
    (hz : zOf a = zOf b) : a = b := by
  have hsplit : ∀ w : Word, w = zOf w ++ rOf w ++ opcOf w := by
    intro w
    apply BitVec.eq_of_getLsbD_eq
    intro i hi
    simp only [zOf, rOf, opcOf, BitVec.getLsbD_append, BitVec.getLsbD_extractLsb']
    grind
  rw [hsplit a, hsplit b, hopc, hr, hz]

theorem encode_fields (i : Instr) :
    opcOf (encode i) = i.opc ∧ rOf (encode i) = i.operand ∧ zOf (encode i) = 0 := by
  cases i with
  | nop => exact Laws.EncodeFields.nop
  | seArk => exact Laws.EncodeFields.seArk
  | seSbox => exact Laws.EncodeFields.seSbox
  | sePerm => exact Laws.EncodeFields.sePerm
  | seRound r => exact Laws.EncodeFields.seRound r
  | seEncrypt => exact Laws.EncodeFields.seEncrypt
  | ksAdv r => exact Laws.EncodeFields.ksAdv r
  | bsEnslice => exact Laws.EncodeFields.bsEnslice
  | bsUnslice => exact Laws.EncodeFields.bsUnslice
  | bsArk => exact Laws.EncodeFields.bsArk
  | bsSbox => exact Laws.EncodeFields.bsSbox
  | bsPerm => exact Laws.EncodeFields.bsPerm
  | bsRound r => exact Laws.EncodeFields.bsRound r
  | bsEncrypt => exact Laws.EncodeFields.bsEncrypt

theorem decodeOpcode_of_wellFormed {i : Instr} (h : i.wellFormed = true) :
    decodeOpcode i.opc.toNat i.operand = .ok i := by
  cases i with
  | nop => exact Laws.OpcodeMap.nop h
  | seArk => exact Laws.OpcodeMap.seArk h
  | seSbox => exact Laws.OpcodeMap.seSbox h
  | sePerm => exact Laws.OpcodeMap.sePerm h
  | seRound r => exact Laws.OpcodeMap.seRound r h
  | seEncrypt => exact Laws.OpcodeMap.seEncrypt h
  | ksAdv r => exact Laws.OpcodeMap.ksAdv r h
  | bsEnslice => exact Laws.OpcodeMap.bsEnslice h
  | bsUnslice => exact Laws.OpcodeMap.bsUnslice h
  | bsArk => exact Laws.OpcodeMap.bsArk h
  | bsSbox => exact Laws.OpcodeMap.bsSbox h
  | bsPerm => exact Laws.OpcodeMap.bsPerm h
  | bsRound r => exact Laws.OpcodeMap.bsRound r h
  | bsEncrypt => exact Laws.OpcodeMap.bsEncrypt h

theorem decodePlain_eq_ok {i j : Instr} {r : Round} (h : decodePlain i r = .ok j) :
    r = 0 ∧ i = j := by
  unfold decodePlain at h
  split at h
  · exact ⟨‹_›, Except.ok.inj h⟩
  · cases h

theorem decodeRound_eq_ok {f : Round → Instr} {j : Instr} {r : Round}
    (h : decodeRound f r = .ok j) : r ≠ 0 ∧ f r = j := by
  unfold decodeRound at h
  split at h
  · cases h
  · exact ⟨‹_›, Except.ok.inj h⟩

/-- The opcode map gives only well-formed commands, each from its own opcode and operand (R93). -/
theorem decodeOpcode_eq_ok {n : Nat} {r : Round} {i : Instr} (h : decodeOpcode n r = .ok i) :
    n = i.opc.toNat ∧ r = i.operand ∧ i.wellFormed = true := by
  unfold decodeOpcode at h
  split at h
  case h_5 | h_7 | h_13 =>
    obtain ⟨hr, rfl⟩ := decodeRound_eq_ok h
    exact ⟨rfl, rfl, by simpa [Instr.wellFormed, Round.inDomain] using hr⟩
  case h_15 => cases h
  all_goals
    obtain ⟨hr, rfl⟩ := decodePlain_eq_ok h
    exact ⟨rfl, hr, rfl⟩

/-- The words that decode are exactly the words of the well-formed commands. -/
theorem decode_eq_ok_iff {w : Word} {i : Instr} :
    decode w = .ok i ↔ w = encode i ∧ i.wellFormed = true := by
  obtain ⟨hopc, hr, hz⟩ := encode_fields i
  constructor
  · intro h
    unfold decode at h
    split at h
    · obtain ⟨hopc', hr', hwf⟩ := decodeOpcode_eq_ok h
      exact ⟨eq_of_fields_eq ((BitVec.eq_of_toNat_eq hopc').trans hopc.symm) (hr'.trans hr.symm)
        (by rw [hz]; assumption), hwf⟩
    · cases h
  · rintro ⟨rfl, hwf⟩
    rw [decode, if_pos hz, hopc, hr]
    exact decodeOpcode_of_wellFormed hwf

theorem opcOf_eq_of_decode {w : Word} {i : Instr} (h : decode w = .ok i) : opcOf w = i.opc := by
  rw [(decode_eq_ok_iff.mp h).1]
  exact (encode_fields i).1

theorem legal_encode {i : Instr} (h : i.wellFormed = true) : legal (encode i) = true := by
  obtain ⟨hopc, hr, hz⟩ := encode_fields i
  unfold legal
  rw [hopc, hr, hz]
  cases i with
  | seRound r | ksAdv r | bsRound r => exact h
  | _ => rfl

/-- `Legal` by fields: `Z = 0`, and `R` is 0 or not as the opcode wants it (R94). -/
theorem legal_iff_fields {w : Word} : legal w = true ↔ zOf w = 0 ∧
    (((opcOf w).toNat ∈ [0x04, 0x10, 0x25] ∧ rOf w ≠ 0) ∨
      ((opcOf w).toNat ∈ [0x00, 0x01, 0x02, 0x03, 0x05, 0x20, 0x21, 0x22, 0x23, 0x24, 0x26] ∧
        rOf w = 0)) := by
  unfold legal
  by_cases hz : zOf w = 0
  · by_cases hround : (opcOf w).toNat ∈ [0x04, 0x10, 0x25]
    · have hplain : (opcOf w).toNat ∉
          [0x00, 0x01, 0x02, 0x03, 0x05, 0x20, 0x21, 0x22, 0x23, 0x24, 0x26] := by
        simp only [List.mem_cons, List.not_mem_nil, or_false] at hround ⊢
        omega
      simp [hz, hround, hplain]
    · simp [hz, hround]
  · have hne : (zOf w != 0) = true := bne_iff_ne.mpr hz
    simp only [hne, if_true, hz, false_and, Bool.false_eq_true]

/-- The decoder accepts exactly the legal words (R94). -/
theorem legal_iff_decode {w : Word} : legal w = true ↔ ∃ i, decode w = .ok i := by
  constructor
  · intro h
    obtain ⟨hz, ⟨hopc, hr⟩ | ⟨hopc, hr⟩⟩ := legal_iff_fields.mp h <;>
      rw [decode, if_pos hz] <;>
      simp only [List.mem_cons, List.not_mem_nil, or_false] at hopc
    · rcases hopc with hopc | hopc | hopc <;> rw [hopc] <;> exact ⟨_, if_neg hr⟩
    · rcases hopc with hopc | hopc | hopc | hopc | hopc | hopc | hopc | hopc | hopc | hopc | hopc <;>
        rw [hopc] <;> exact ⟨_, if_pos hr⟩
  · rintro ⟨i, hi⟩
    obtain ⟨rfl, hwf⟩ := decode_eq_ok_iff.mp hi
    exact legal_encode hwf

theorem illegal_of_decode_error {w : Word} {e : DecodeError} (h : decode w = .error e) :
    legal w = false := by
  rw [← Bool.not_eq_true, legal_iff_decode]
  rintro ⟨i, hi⟩
  rw [h] at hi
  cases hi

end Sys2Proof

end DecoderFacts

/-! ## The address map: where each register word stands (R61) -/

section PortOffsets

namespace Sys2Proof.Machine

/-- The window offset of a register word, the first column of the address map (R61). -/
def Port.offset : Port → Nat
  | .cmd => 0x000
  | .status => 0x004
  | .key0 => 0x010
  | .key1 => 0x014
  | .key2 => 0x018
  | .sdata0 => 0x020
  | .sdata1 => 0x024
  | .batch w => 0x100 + 4 * w.val
  | .slice i => 0x200 + 4 * i.val

theorem portAt_offset (p : Port) : portAt p.offset = some p := by
  cases p with
  | batch w | slice w => revert w; decide
  | _ => rfl

/-- `portAt` inverts `Port.offset` on aligned offsets. -/
theorem portAt_eq_some_iff {off : Nat} {p : Port} (haligned : off % 4 = 0) :
    portAt off = some p ↔ off = p.offset := by
  constructor
  · intro h
    unfold portAt at h
    split_ifs at h <;> cases h <;> simp only [Port.offset] <;> omega
  · rintro rfl
    exact portAt_offset p

theorem Port.offset_aligned (p : Port) : p.offset % 4 = 0 ∧ p.offset < 0x400 := by
  cases p with
  | batch w | slice w => simp only [Port.offset]; omega
  | _ => decide

/-- An access reaches the register word `p` exactly when it is four bytes at the word's own offset. -/
theorem access_eq_next_iff {off size : Nat} {p : Port} :
    access off size = .next p ↔ off = p.offset ∧ size = 4 := by
  rw [access_eq_next]
  constructor
  · rintro ⟨_, hsize, haligned, hp⟩
    exact ⟨(portAt_eq_some_iff haligned).mp hp, hsize⟩
  · rintro ⟨rfl, hsize⟩
    exact ⟨p.offset_aligned.2, hsize, p.offset_aligned.1, portAt_offset p⟩

theorem goodAccess_offset (p : Port) : goodAccess p.offset 4 = true := by
  cases p with
  | batch w | slice w => revert w; decide
  | _ => rfl

theorem Port.offset_injective {p q : Port} (h : p.offset = q.offset) : p = q := by
  simpa [portAt_offset] using congrArg portAt h

end Sys2Proof.Machine

end PortOffsets

/-! ## The events of one step, as the CORE sees them (R195, R196, R201, R260) -/

section CoreEvents

namespace Sys2Proof.Machine

theorem currentOp_of_turn_ne_host {s : State} (h : s.currentTurn ≠ .host) : s.currentOp = none := by
  cases hop : s.currentOp with
  | none => rfl
  | some op => exact absurd (currentOp_eq_some hop).1 h

/-- `CoreEvent s c`: the next event of `s` is one that leaves the CORE as `c`. One constructor per kind of
event: reset, an engine step, a host turn that writes nothing, and the host's writes, by what becomes of
them. -/
inductive CoreEvent (s : State) : CoreRegs → Prop
  | reset (hturn : s.currentTurn = .reset) : CoreEvent s .reset
  | engine (hturn : s.currentTurn = .engine) : CoreEvent s s.regs.engineStep
  | noWrite (hturn : s.currentTurn = .host)
      (hop : ∀ off n v, s.currentOp ≠ some (.write off n v)) : CoreEvent s s.regs
  | clearStatus (v : Word) (hop : s.currentOp = some (.write 0x004 4 v)) :
      CoreEvent s (s.regs.clearStatus v)
  | refusedBusy (p : Port) (v : Word) (hop : s.currentOp = some (.write p.offset 4 v))
      (hp : p ≠ .status) (hbusy : s.regs.phase ≠ .idle) : CoreEvent s s.regs.takeErrBusy
  | illegalWord (w : Word) (hop : s.currentOp = some (.write 0x000 4 w))
      (hidle : s.regs.phase = .idle) (hw : legal w = false) : CoreEvent s s.regs.takeErrCmd
  | command (w : Word) (i : Instr) (hop : s.currentOp = some (.write 0x000 4 w))
      (hidle : s.regs.phase = .idle) (hw : decode w = .ok i) : CoreEvent s (accepted i s.regs)
  | dataWord (p : Port) (v : Word) (hop : s.currentOp = some (.write p.offset 4 v))
      (hcmd : p ≠ .cmd) (hstatus : p ≠ .status) (hidle : s.regs.phase = .idle) :
      CoreEvent s (s.regs.writePort p v)

/-- A word written to `CMD` while idle is the event of an illegal word or of an accepted command (R196). -/
theorem coreEvent_of_command {s u t : State} {w : Word}
    (hop : s.currentOp = some (.write 0x000 4 w)) (hregs : u.regs = s.regs)
    (hidle : s.regs.phase = .idle) (h : command w u = .next t) : CoreEvent s t.regs := by
  unfold command at h
  cases hd : decode w with
  | error e =>
    rw [hd] at h
    cases h
    simpa [hregs] using CoreEvent.illegalWord w hop hidle (illegal_of_decode_error hd)
  | ok i =>
    have hbusy : u.regs.busy = false := by rw [hregs, CoreRegs.busy_eq_false, hidle]
    rw [hd] at h
    change exec i u = _ at h
    rw [exec_eq_present, (decode_eq_ok_iff.mp hd).2, present_accepted hbusy] at h
    cases h
    simpa [hregs] using CoreEvent.command w i hop hidle hd

/-- A host write is one of the write events. -/
theorem coreEvent_of_write {s u t : State} {off n : Nat} {v : Word}
    (hop : s.currentOp = some (.write off n v)) (hregs : u.regs = s.regs)
    (h : memWrite off n v u = .next t) : CoreEvent s t.regs := by
  rcases memWrite_cases off n v u with ⟨p, hacc, heq⟩ | ⟨f, _, heq⟩ | ⟨r, _, heq⟩ <;> rw [heq] at h
  · obtain ⟨rfl, rfl⟩ := access_eq_next_iff.mp hacc
    rcases writeWord_cases p v u with ⟨rfl, heq⟩ | ⟨hp, hbusy, heq⟩ | ⟨rfl, hidle, heq⟩ |
      ⟨hstatus, hcmd, hidle, heq⟩ <;> rw [heq] at h
    · cases h
      simpa [hregs] using CoreEvent.clearStatus v hop
    · cases h
      rw [hregs, CoreRegs.busy_eq_true] at hbusy
      simpa [hregs] using CoreEvent.refusedBusy p v hop hp hbusy
    · rw [hregs, CoreRegs.busy_eq_false] at hidle
      exact coreEvent_of_command hop hregs hidle h
    · cases h
      rw [hregs, CoreRegs.busy_eq_false] at hidle
      simpa [hregs] using CoreEvent.dataWord p v hop hcmd hstatus hidle
  · cases h
  · cases h

/-- Every step that gives a next state is one of the events. -/
theorem coreEvent_of_step {s t : State} (h : step s = .next t) : CoreEvent s t.regs := by
  rcases step_next_cases h with ⟨hturn, rfl⟩ | ⟨hturn, rfl⟩ | ⟨hturn, hop, rfl⟩ |
    ⟨off, n, v, hop, hw⟩ | ⟨off, n, x, v, hop, _, rfl⟩ | ⟨x, b, n, hop, rfl⟩ |
    ⟨x, v, ⟨a, b, hop, _⟩ | ⟨a, b, c, hop, _⟩, rfl⟩
  · exact .reset hturn
  · exact .engine hturn
  · exact .noWrite hturn (by simp [hop])
  · exact coreEvent_of_write (u := ({ s with turns := s.turns.tail } : State).advance) hop rfl hw
  · exact .noWrite (currentOp_eq_some hop).1 (by simp [hop])
  · have hnone : CoreEvent s s.regs := .noWrite (currentOp_eq_some hop).1 (by simp [hop])
    split <;> exact hnone
  · exact .noWrite (currentOp_eq_some hop).1 (by simp [hop])
  · exact .noWrite (currentOp_eq_some hop).1 (by simp [hop])

end Sys2Proof.Machine

end CoreEvents

/-! ## One equation per engine step, and what each event leaves alone -/

section EventEffects

namespace Sys2Proof.Machine

section EngineSteps

variable {c : CoreRegs}

@[simp] theorem CoreRegs.engineStep_idle (h : c.phase = .idle) : c.engineStep = c := by
  simp only [engineStep, h]

@[simp] theorem CoreRegs.engineStep_seRound (h : c.phase = .seRound) : c.engineStep = { c with
    state := sRound c.state c.key
    key := ksAdvance c.key c.rnd
    phase := if c.rnd = 31 then .seFinal else .seRound
    rnd := if c.rnd = 31 then 0 else c.rnd + 1 } := by
  simp only [engineStep, h, nextRound, scalarRound, setState, setKey, setControl]
  split <;> rfl

@[simp] theorem CoreRegs.engineStep_seFinal (h : c.phase = .seFinal) : c.engineStep = { c with
    state := ark c.state c.key, phase := .idle, done := true } := by
  simp only [engineStep, h, complete, mixKey, setState, setControl, setDone]

@[simp] theorem CoreRegs.engineStep_bsIn (h : c.phase = .bsIn) : c.engineStep = { c with
    slice := toSliced c.blk, phase := .bsRound, rnd := 1 } := by
  simp only [engineStep, h, sliceBatch, setSlice, setControl]

@[simp] theorem CoreRegs.engineStep_bsRound (h : c.phase = .bsRound) : c.engineStep = { c with
    slice := bsRound c.slice c.key
    key := ksAdvance c.key c.rnd
    phase := if c.rnd = 31 then .bsFinal else .bsRound
    rnd := if c.rnd = 31 then 0 else c.rnd + 1 } := by
  simp only [engineStep, h, nextRound, slicedRound, setSlice, setKey, setControl]
  split <;> rfl

@[simp] theorem CoreRegs.engineStep_bsFinal (h : c.phase = .bsFinal) : c.engineStep = { c with
    slice := bsArk c.slice c.key, phase := .bsOut } := by
  simp only [engineStep, h, mixKeySliced, setSlice, setControl]

@[simp] theorem CoreRegs.engineStep_bsOut (h : c.phase = .bsOut) : c.engineStep = { c with
    blk := fromSliced c.slice, phase := .idle, done := true } := by
  simp only [engineStep, h, complete, unsliceBatch, setBlk, setControl, setDone]

theorem CoreRegs.engineStep_done (c : CoreRegs) :
    c.engineStep.done = (c.done || decide (c.phase = .seFinal ∨ c.phase = .bsOut)) := by
  cases hp : c.phase <;> simp [hp]

@[simp] theorem CoreRegs.engineStep_errCmd (c : CoreRegs) : c.engineStep.errCmd = c.errCmd := by
  cases hp : c.phase <;> simp [hp]

@[simp] theorem CoreRegs.engineStep_errBusy (c : CoreRegs) :
    c.engineStep.errBusy = c.errBusy := by
  cases hp : c.phase <;> simp [hp]

/-- Only the scalar phases write `STATE` (R202, R203). -/
theorem CoreRegs.engineStep_state (h : ¬(c.phase = .seRound ∨ c.phase = .seFinal)) :
    c.engineStep.state = c.state := by
  cases hp : c.phase <;> simp_all

/-- Only the round phases write `KEY` (R202, R205). -/
theorem CoreRegs.engineStep_key (h : ¬(c.phase = .seRound ∨ c.phase = .bsRound)) :
    c.engineStep.key = c.key := by
  cases hp : c.phase <;> simp_all

/-- Only `BS_OUT` writes `BLK` (R207). -/
theorem CoreRegs.engineStep_blk (h : c.phase ≠ .bsOut) : c.engineStep.blk = c.blk := by
  cases hp : c.phase <;> simp_all

/-- Only `BS_IN`, `BS_ROUND` and `BS_FINAL` write `SLICE` (R204 to R206). -/
theorem CoreRegs.engineStep_slice
    (h : ¬(c.phase = .bsIn ∨ c.phase = .bsRound ∨ c.phase = .bsFinal)) :
    c.engineStep.slice = c.slice := by
  cases hp : c.phase <;> simp_all

end EngineSteps

section DataWords

variable (c : CoreRegs) (p : Port) (v : Word)

@[simp] theorem CoreRegs.writePort_done : (c.writePort p v).done = c.done := by cases p <;> rfl
@[simp] theorem CoreRegs.writePort_errCmd : (c.writePort p v).errCmd = c.errCmd := by cases p <;> rfl
@[simp] theorem CoreRegs.writePort_errBusy : (c.writePort p v).errBusy = c.errBusy := by
  cases p <;> rfl

@[simp] theorem Port.offset_eq_cmd {p : Port} : p.offset = 0x000 ↔ p = .cmd :=
  ⟨fun h => Port.offset_injective (q := .cmd) h, fun h => h ▸ rfl⟩

@[simp] theorem Port.offset_eq_status {p : Port} : p.offset = 0x004 ↔ p = .status :=
  ⟨fun h => Port.offset_injective (q := .status) h, fun h => h ▸ rfl⟩

/-- `STATE` is written through its own two words alone (R61). -/
theorem CoreRegs.writePort_state (h : p.offset ∉ [0x020, 0x024]) :
    (c.writePort p v).state = c.state := by
  cases p with
  | sdata0 | sdata1 => simp [Port.offset] at h
  | _ => rfl

/-- `KEY` is written through its own three words alone (R61). -/
theorem CoreRegs.writePort_key (h : p.offset ∉ [0x010, 0x014, 0x018]) :
    (c.writePort p v).key = c.key := by
  cases p with
  | key0 | key1 | key2 => simp [Port.offset] at h
  | _ => rfl

/-- `BLK` is written through the words of `BATCH` alone (R61). -/
theorem CoreRegs.writePort_blk (h : ¬(0x100 ≤ p.offset ∧ p.offset ≤ 0x1FC)) :
    (c.writePort p v).blk = c.blk := by
  cases p with
  | batch w => simp only [Port.offset] at h; omega
  | _ => rfl

/-- `SLICE` is written through its own words alone (R61). -/
theorem CoreRegs.writePort_slice (h : ¬(0x200 ≤ p.offset ∧ p.offset ≤ 0x2FC)) :
    (c.writePort p v).slice = c.slice := by
  cases p with
  | slice i => simp only [Port.offset] at h; omega
  | _ => rfl

end DataWords

section AcceptedFields

variable (i : Instr) (c : CoreRegs)

@[simp] theorem CoreRegs.mixKey_eq : c.mixKey = c.setState (ark c.state c.key) := rfl

@[simp] theorem CoreRegs.scalarRound_eq (r : Round) :
    c.scalarRound r = (c.setState (sRound c.state c.key)).setKey (ksAdvance c.key r) := rfl

@[simp] theorem CoreRegs.sliceBatch_eq : c.sliceBatch = c.setSlice (toSliced c.blk) := rfl

@[simp] theorem CoreRegs.unsliceBatch_eq : c.unsliceBatch = c.setBlk (fromSliced c.slice) := rfl

@[simp] theorem CoreRegs.mixKeySliced_eq : c.mixKeySliced = c.setSlice (bsArk c.slice c.key) := rfl

@[simp] theorem CoreRegs.slicedRound_eq (r : Round) :
    c.slicedRound r = (c.setSlice (bsRound c.slice c.key)).setKey (ksAdvance c.key r) := rfl

/-- `DONE` at acceptance: `NOP` leaves it, a compound command clears it, any other sets it (R198 to R200). -/
theorem accepted_done : (accepted i c).done =
    if i = .nop then c.done else decide (i ≠ .seEncrypt ∧ i ≠ .bsEncrypt) := by
  cases i <;> simp [accepted]

theorem accepted_state {i : Instr} (h : i.opc ∉ [0x01#8, 0x02, 0x03, 0x04]) :
    (accepted i c).state = c.state := by
  cases i with
  | seArk | seSbox | sePerm | seRound => simp [Instr.opc] at h
  | _ => simp [accepted]

theorem accepted_key {i : Instr} (h : i.opc ∉ [0x04#8, 0x10, 0x25]) :
    (accepted i c).key = c.key := by
  cases i with
  | seRound | ksAdv | bsRound => simp [Instr.opc] at h
  | _ => simp [accepted]

theorem accepted_blk {i : Instr} (h : i.opc ≠ 0x21#8) : (accepted i c).blk = c.blk := by
  cases i with
  | bsUnslice => simp [Instr.opc] at h
  | _ => simp [accepted]

theorem accepted_slice {i : Instr} (h : i.opc ∉ [0x20#8, 0x22, 0x23, 0x24, 0x25]) :
    (accepted i c).slice = c.slice := by
  cases i with
  | bsEnslice | bsArk | bsSbox | bsPerm | bsRound => simp [Instr.opc] at h
  | _ => simp [accepted]

end AcceptedFields

end Sys2Proof.Machine

end EventEffects

/-! ## O57: the events of the flags (R38, R39, R40) -/

section FlagEvents

namespace Sys2Proof.Machine

/-- The events that set `DONE` (R38). -/
def State.setsDone (s : State) : Prop :=
  (s.currentTurn = .engine ∧ (s.regs.phase = .seFinal ∨ s.regs.phase = .bsOut)) ∨
  (s.regs.phase = .idle ∧ ∃ w, s.currentOp = some (.write 0x000 4 w) ∧ legal w = true ∧
    w ∉ [0x00000000#32, 0x00000005, 0x00000026])

/-- The events that clear `DONE` (R38). -/
def State.clearsDone (s : State) : Prop :=
  s.currentTurn = .reset ∨
  (∃ v, s.currentOp = some (.write 0x004 4 v) ∧ v.getLsbD 1 = true) ∨
  (s.regs.phase = .idle ∧ ∃ w, s.currentOp = some (.write 0x000 4 w) ∧
    (w = 0x00000005 ∨ w = 0x00000026))

/-- The events that set `ERR_CMD` (R39). -/
def State.setsErrCmd (s : State) : Prop :=
  s.regs.phase = .idle ∧ ∃ w, s.currentOp = some (.write 0x000 4 w) ∧ legal w = false

/-- The events that clear the error bit at bit `k` of `STATUS` (R39, R40). -/
def State.clearsErrorBit (s : State) (k : Nat) : Prop :=
  s.currentTurn = .reset ∨ ∃ v, s.currentOp = some (.write 0x004 4 v) ∧ v.getLsbD k = true

/-- The events that set `ERR_BUSY` (R40). -/
def State.setsErrBusy (s : State) : Prop :=
  s.regs.phase ≠ .idle ∧ ∃ off v, s.currentOp = some (.write off 4 v) ∧
    goodAccess off 4 = true ∧ off ≠ 0x004

@[simp] theorem currentOp_of_reset {s : State} (h : s.currentTurn = .reset) : s.currentOp = none :=
  currentOp_of_turn_ne_host (by simp [h])

@[simp] theorem currentOp_of_engine {s : State} (h : s.currentTurn = .engine) : s.currentOp = none :=
  currentOp_of_turn_ne_host (by simp [h])

@[simp] theorem currentTurn_of_op {s : State} {op : HostOp} (h : s.currentOp = some op) :
    s.currentTurn = .host := (currentOp_eq_some h).1

/-- Two words that decode are equal exactly when their commands are. -/
theorem word_eq_iff_of_decode {w w' : Word} {i j : Instr} (hi : decode w = .ok i)
    (hj : decode w' = .ok j) : w = w' ↔ i = j := by
  constructor
  · rintro rfl
    exact Except.ok.inj (hi.symm.trans hj)
  · rintro rfl
    rw [(decode_eq_ok_iff.mp hi).1, (decode_eq_ok_iff.mp hj).1]

theorem eq_nop_iff_of_decode {w : Word} {i : Instr} (h : decode w = .ok i) :
    i = .nop ↔ w = 0x00000000#32 := (word_eq_iff_of_decode h rfl).symm

theorem eq_seEncrypt_iff_of_decode {w : Word} {i : Instr} (h : decode w = .ok i) :
    i = .seEncrypt ↔ w = 0x00000005#32 := (word_eq_iff_of_decode h rfl).symm

theorem eq_bsEncrypt_iff_of_decode {w : Word} {i : Instr} (h : decode w = .ok i) :
    i = .bsEncrypt ↔ w = 0x00000026#32 := (word_eq_iff_of_decode h rfl).symm

variable {s : State} {c : CoreRegs}

theorem CoreEvent.done_eq_true_iff (h : CoreEvent s c) (hdone : s.regs.done = false) :
    c.done = true ↔ s.setsDone := by
  unfold State.setsDone
  cases h with
  | reset hturn => simp [hturn, CoreRegs.reset]
  | engine hturn => simp [hturn, CoreRegs.engineStep_done, hdone]
  | noWrite hturn hop => simp [hturn, hop, hdone]
  | clearStatus v hop => simp [hop, hdone]
  | refusedBusy p v hop hp hbusy => simp [hop, hdone, hbusy]
  | illegalWord w hop hidle hw => simp [hop, hdone, hw]
  | dataWord p v hop hcmd hstatus hidle => simp [hop, hdone, hcmd]
  | command w i hop hidle hw =>
    have hlegal := legal_iff_decode.mpr ⟨i, hw⟩
    simp [hop, hidle, hlegal, accepted_done, hdone, eq_nop_iff_of_decode hw,
      eq_seEncrypt_iff_of_decode hw, eq_bsEncrypt_iff_of_decode hw]

theorem CoreEvent.done_eq_false_iff (h : CoreEvent s c) (hdone : s.regs.done = true) :
    c.done = false ↔ s.clearsDone := by
  unfold State.clearsDone
  cases h with
  | reset hturn => simp [hturn, CoreRegs.reset]
  | engine hturn => simp [hturn, CoreRegs.engineStep_done, hdone]
  | noWrite hturn hop => simp [hturn, hop, hdone]
  | clearStatus v hop => simp [hop, hdone]
  | refusedBusy p v hop hp hbusy => simp [hop, hdone, hbusy, hp]
  | illegalWord w hop hidle hw =>
    have hne : w ≠ 0x00000005#32 ∧ w ≠ 0x00000026#32 := by
      constructor <;> rintro rfl <;> cases hw
    simp [hop, hdone, hne]
  | dataWord p v hop hcmd hstatus hidle => simp [hop, hdone, hcmd, hstatus]
  | command w i hop hidle hw =>
    have hwords : w = 0x00000005#32 ∨ w = 0x00000026#32 ↔ i = .seEncrypt ∨ i = .bsEncrypt := by
      rw [eq_seEncrypt_iff_of_decode hw, eq_bsEncrypt_iff_of_decode hw]
    simp only [accepted_done, hop, hidle, hdone, currentTurn_of_op hop]
    cases i <;> simp [hwords]

theorem CoreEvent.errCmd_eq_true_iff (h : CoreEvent s c) (herr : s.regs.errCmd = false) :
    c.errCmd = true ↔ s.setsErrCmd := by
  unfold State.setsErrCmd
  cases h with
  | reset hturn => simp [hturn, CoreRegs.reset]
  | engine hturn => simp [hturn, herr]
  | noWrite hturn hop => simp [hop, herr]
  | clearStatus v hop => simp [hop, herr]
  | refusedBusy p v hop hp hbusy => simp [herr, hbusy]
  | illegalWord w hop hidle hw => simp [hop, hidle, hw]
  | dataWord p v hop hcmd hstatus hidle => simp [hop, herr, hcmd]
  | command w i hop hidle hw =>
    simp [hop, herr, accepted_errCmd, legal_iff_decode.mpr ⟨i, hw⟩]

theorem CoreEvent.errCmd_eq_false_iff (h : CoreEvent s c) (herr : s.regs.errCmd = true) :
    c.errCmd = false ↔ s.clearsErrorBit 2 := by
  unfold State.clearsErrorBit
  cases h with
  | reset hturn => simp [hturn, CoreRegs.reset]
  | engine hturn => simp [hturn, herr]
  | noWrite hturn hop => simp [hturn, hop, herr]
  | clearStatus v hop => simp [hop, herr]
  | refusedBusy p v hop hp hbusy => simp [hop, herr, hp]
  | illegalWord w hop hidle hw => simp [hop]
  | dataWord p v hop hcmd hstatus hidle => simp [hop, herr, hstatus]
  | command w i hop hidle hw => simp [hop, herr, accepted_errCmd]

theorem CoreEvent.errBusy_eq_true_iff (h : CoreEvent s c) (herr : s.regs.errBusy = false) :
    c.errBusy = true ↔ s.setsErrBusy := by
  unfold State.setsErrBusy
  cases h with
  | reset hturn => simp [hturn, CoreRegs.reset]
  | engine hturn => simp [hturn, herr]
  | noWrite hturn hop => simp [hop, herr]
  | clearStatus v hop => simp [hop, herr]
  | refusedBusy p v hop hp hbusy => simp [hop, hbusy, hp, goodAccess_offset]
  | illegalWord w hop hidle hw => simp [hidle, herr]
  | dataWord p v hop hcmd hstatus hidle => simp [hidle, herr]
  | command w i hop hidle hw => simp [hidle, herr, accepted_errBusy]

theorem CoreEvent.errBusy_eq_false_iff (h : CoreEvent s c) (herr : s.regs.errBusy = true) :
    c.errBusy = false ↔ s.clearsErrorBit 3 := by
  unfold State.clearsErrorBit
  cases h with
  | reset hturn => simp [hturn, CoreRegs.reset]
  | engine hturn => simp [hturn, herr]
  | noWrite hturn hop => simp [hturn, hop, herr]
  | clearStatus v hop => simp [hop, herr]
  | refusedBusy p v hop hp hbusy => simp [hop, hp]
  | illegalWord w hop hidle hw => simp [hop, herr]
  | dataWord p v hop hcmd hstatus hidle => simp [hop, herr, hstatus]
  | command w i hop hidle hw => simp [hop, herr, accepted_errBusy]

end Sys2Proof.Machine

open Sys2Proof.Machine

/-- Settles O57, flag by flag over the events of a step. -/
theorem flagsChangeOnlyByTheirEvents : Obligations.FlagsChangeOnlyByTheirEvents := by
  refine ⟨⟨rfl, rfl, rfl⟩, fun s t hstep => ?_⟩
  have hev := coreEvent_of_step hstep
  exact ⟨hev.done_eq_true_iff, hev.done_eq_false_iff, hev.errCmd_eq_true_iff,
    hev.errCmd_eq_false_iff, hev.errBusy_eq_true_iff, hev.errBusy_eq_false_iff⟩

end FlagEvents

/-! ## O58: the events of the data registers (R31 to R34, R43) -/

section DataEvents

namespace Sys2Proof.Machine

/-- An event other than reset leaves all four data registers alone, or it is an engine step, the write of a
data word, or an accepted command. -/
theorem CoreEvent.data_cases {s : State} {c : CoreRegs} (h : CoreEvent s c)
    (hreset : s.currentTurn ≠ .reset) :
    (c.state = s.regs.state ∧ c.key = s.regs.key ∧ c.blk = s.regs.blk ∧ c.slice = s.regs.slice) ∨
    (s.currentTurn = .engine ∧ c = s.regs.engineStep) ∨
    (s.regs.phase = .idle ∧ ∃ p v, s.currentOp = some (.write (Port.offset p) 4 v) ∧
      c = s.regs.writePort p v) ∨
    (s.regs.phase = .idle ∧ ∃ w i, s.currentOp = some (.write 0x000 4 w) ∧
      w.extractLsb' 0 8 = Instr.opc i ∧ c = accepted i s.regs) := by
  cases h with
  | reset hturn => exact absurd hturn hreset
  | engine hturn => exact .inr (.inl ⟨hturn, rfl⟩)
  | dataWord p v hop _ _ hidle => exact .inr (.inr (.inl ⟨hidle, p, v, hop, rfl⟩))
  | command w i hop hidle hw =>
    exact .inr (.inr (.inr ⟨hidle, w, i, hop, opcOf_eq_of_decode hw, rfl⟩))
  | _ => exact .inl ⟨rfl, rfl, rfl, rfl⟩

end Sys2Proof.Machine

open Sys2Proof Sys2Proof.Machine

/-- Settles O58: each event that can write a data register, against the frame of what it writes. -/
theorem dataRegistersChangeOnlyByTheirEvents : Obligations.DataRegistersChangeOnlyByTheirEvents := by
  intro s t hstep hreset
  rcases (coreEvent_of_step hstep).data_cases hreset with ⟨hstate, hkey, hblk, hslice⟩ |
    ⟨hturn, heq⟩ | ⟨hidle, p, v, hop, heq⟩ | ⟨hidle, w, i, hop, hopc, heq⟩
  · exact ⟨absurd hstate, absurd hkey, absurd hblk, absurd hslice⟩
  · rw [heq]
    exact ⟨fun h => .inl ⟨hturn, not_imp_comm.mp CoreRegs.engineStep_state h⟩,
      fun h => .inl ⟨hturn, not_imp_comm.mp CoreRegs.engineStep_key h⟩,
      fun h => .inl ⟨hturn, not_imp_comm.mp CoreRegs.engineStep_blk h⟩,
      fun h => .inl ⟨hturn, not_imp_comm.mp CoreRegs.engineStep_slice h⟩⟩
  · rw [heq]
    refine ⟨fun h => ?_, fun h => ?_, fun h => ?_, fun h => ?_⟩ <;>
      refine .inr ⟨hidle, p.offset, v, hop, .inl ?_⟩
    · exact not_imp_comm.mp (CoreRegs.writePort_state s.regs p v) h
    · exact not_imp_comm.mp (CoreRegs.writePort_key s.regs p v) h
    · exact not_imp_comm.mp (CoreRegs.writePort_blk s.regs p v) h
    · exact not_imp_comm.mp (CoreRegs.writePort_slice s.regs p v) h
  · rw [heq]
    refine ⟨fun h => ?_, fun h => ?_, fun h => ?_, fun h => ?_⟩ <;>
      refine .inr ⟨hidle, 0x000, w, hop, .inr ⟨rfl, ?_⟩⟩ <;> rw [hopc]
    · exact not_imp_comm.mp (accepted_state s.regs) h
    · exact not_imp_comm.mp (accepted_key s.regs) h
    · exact not_imp_comm.mp (accepted_blk s.regs) h
    · exact not_imp_comm.mp (accepted_slice s.regs) h

end DataEvents

/-! ## O42, O47, O1: `STATUS`, reads while busy, reset (R41, R46, R47, R69, R71) -/

section StatusAndReads

namespace Sys2Proof.Machine

theorem getLsbD_flagAt (b : Bool) (bit i : Nat) :
    (flagAt b bit).getLsbD i = (decide (i < 32 ∧ i = bit) && b) := by
  simp only [flagAt, BitVec.getLsbD_shiftLeft, BitVec.getLsbD_setWidth, BitVec.getLsbD_ofBool]
  grind

theorem CoreRegs.busy_eq_decide (c : CoreRegs) : c.busy = decide (c.phase ≠ .idle) := by
  rw [Bool.eq_iff_iff, busy_eq_true, decide_eq_true_iff]

/-- Bit `i` of `STATUS`: the four flags, `phase` from bit 8, `rnd` from bit 16 (R41). -/
def CoreRegs.statusBit (c : CoreRegs) (i : Nat) : Bool :=
  (decide (i = 0) && c.busy) || (decide (i = 1) && c.done) || (decide (i = 2) && c.errCmd) ||
    (decide (i = 3) && c.errBusy) || (decide (8 ≤ i) && c.phase.code.getLsbD (i - 8)) ||
    (decide (16 ≤ i) && c.rnd.getLsbD (i - 16))

theorem CoreRegs.getLsbD_statusWord (c : CoreRegs) {i : Nat} (hi : i < 32) :
    c.statusWord.getLsbD i = c.statusBit i := by
  simp only [statusWord, statusBit, BitVec.getLsbD_or, getLsbD_flagAt, BitVec.getLsbD_shiftLeft,
    BitVec.getLsbD_setWidth]
  grind

/-- A field of `STATUS` from its bits. -/
theorem CoreRegs.extractLsb'_statusWord (c : CoreRegs) {lo n : Nat} {v : BitVec n} (hlo : lo + n ≤ 32)
    (h : ∀ k < n, c.statusBit (lo + k) = v.getLsbD k) : c.statusWord.extractLsb' lo n = v := by
  apply BitVec.eq_of_getLsbD_eq
  intro k hk
  rw [BitVec.getLsbD_extractLsb', c.getLsbD_statusWord (by omega), h k hk]
  simp [hk]

theorem memWrite_status (v : Word) (s : State) :
    memWrite 0x004 4 v s = .next (s.withRegs (s.regs.clearStatus v)) := rfl

/-- Which register word a read reaches does not depend on the CORE, so two COREs that read every word alike
answer every read alike. -/
theorem memRead_congr {c d : CoreRegs} (h : ∀ p, d.readWord p = c.readWord p) (off n : Nat) :
    memRead off n d = memRead off n c := by
  unfold memRead
  simp only [h]

theorem CoreRegs.readWord_of_busy {c : CoreRegs} (hbusy : c.phase ≠ .idle) (p : Port) :
    c.readWord p = if p = .status then c.statusWord else 0 := by
  have hb : c.busy = true := CoreRegs.busy_eq_true.mpr hbusy
  cases p <;> simp [readWord, hb, readPort]

end Sys2Proof.Machine

open Sys2Proof Sys2Proof.Machine

/-- Settles O1: every field of the reset value, read off. -/
theorem resetClearsEveryRegister : Obligations.ResetClearsEveryRegister := by
  refine ⟨rfl, rfl, fun j hj => ?_, fun i hi => ?_, rfl, rfl, rfl, rfl, rfl, rfl, by decide⟩
  · exact Vector.getElem_replicate hj
  · exact Vector.getElem_replicate hi

/-- Settles O47: while busy, a read sees `STATUS` or 0. -/
theorem busyReadsRevealNoData : Obligations.BusyReadsRevealNoData := by
  intro c d off n hbusy hphase hrnd hdone herrCmd herrBusy
  have hstatus : d.statusWord = c.statusWord := by
    simp only [CoreRegs.statusWord, CoreRegs.busy, hphase, hrnd, hdone, herrCmd, herrBusy]
  refine memRead_congr (fun p => ?_) off n
  rw [CoreRegs.readWord_of_busy hbusy, CoreRegs.readWord_of_busy (hphase ▸ hbusy), hstatus]

/-- Settles O42: the fields of `STATUS` from its bits, and write-1-to-clear. -/
theorem statusFieldsReadAndClear : Obligations.StatusFieldsReadAndClear := by
  refine ⟨fun c => ?_, fun s v => ⟨_, memWrite_status v s, rfl, ?_⟩, by decide, rfl, rfl, rfl, rfl,
    rfl, rfl, rfl⟩
  · refine ⟨?_, ?_, ?_, ?_, c.extractLsb'_statusWord (by decide) ?_,
      c.extractLsb'_statusWord (by decide) ?_, c.extractLsb'_statusWord (by decide) ?_,
      c.extractLsb'_statusWord (by decide) ?_, c.extractLsb'_statusWord (by decide) ?_, rfl⟩
    case refine_1 | refine_2 | refine_3 | refine_4 =>
      rw [c.getLsbD_statusWord (by decide)]
      simp [CoreRegs.statusBit, CoreRegs.busy_eq_decide]
    all_goals grind [CoreRegs.statusBit]
  · simp

end StatusAndReads

/-! ## O59: what a command leaves when its run is over (R45, R123, R147, R199, R203, R207) -/

section CommandRuns

namespace Sys2Proof.Machine

section Runs

variable (c : CoreRegs)

theorem CoreRegs.engineSteps_add (m n : Nat) :
    c.engineSteps (m + n) = (c.engineSteps m).engineSteps n := by
  induction n with
  | zero => rfl
  | succ n ih => rw [← Nat.add_assoc, engineSteps, ih, engineSteps]

variable {c}

theorem CoreRegs.engineSteps_of_idle (h : c.phase = .idle) (n : Nat) : c.engineSteps n = c := by
  induction n with
  | zero => rfl
  | succ n ih => rw [engineSteps, ih, engineStep_idle h]

/-- Counting on from round index `n + 1` (R202, R205). -/
theorem roundIndex_succ (n : Nat) :
    (BitVec.ofNat 5 (n + 1) : Round) + 1 = BitVec.ofNat 5 (n + 1 + 1) :=
  BitVec.ofNat_add_ofNat ..

theorem roundIndex_ne_31 {n : Nat} (h : n < 30) : (BitVec.ofNat 5 (n + 1) : Round) ≠ 31 := by
  intro heq
  have := congrArg BitVec.toNat heq
  simp at this
  omega

/-- `SE_ENCRYPT` after `n` rounds: the block and the key of R123, the counter one ahead (R202). -/
theorem CoreRegs.engineSteps_seRound (hphase : c.phase = .seRound) (hrnd : c.rnd = 1) {n : Nat}
    (hn : n ≤ 30) : c.engineSteps n = { c with
      state := blockAfter c.state c.key n
      key := keyAfter c.key n
      phase := .seRound
      rnd := BitVec.ofNat 5 (n + 1) } := by
  induction n with
  | zero => rw [← hphase]; exact congrArg (fun r => { c with rnd := r }) hrnd
  | succ n ih =>
    rw [engineSteps, ih (by omega), engineStep_seRound rfl]
    simp only [roundIndex_ne_31 (show n < 30 by omega), if_false, roundIndex_succ, blockAfter,
      keyAfter]

/-- `BS_ENCRYPT` after `n` rounds: the slice file and the key of R147, the counter one ahead (R205). -/
theorem CoreRegs.engineSteps_bsRound (hphase : c.phase = .bsRound) (hrnd : c.rnd = 1) {n : Nat}
    (hn : n ≤ 30) : c.engineSteps n = { c with
      slice := slicesAfter c.slice c.key n
      key := keyAfter c.key n
      phase := .bsRound
      rnd := BitVec.ofNat 5 (n + 1) } := by
  induction n with
  | zero => rw [← hphase]; exact congrArg (fun r => { c with rnd := r }) hrnd
  | succ n ih =>
    rw [engineSteps, ih (by omega), engineStep_bsRound rfl]
    simp only [roundIndex_ne_31 (show n < 30 by omega), if_false, roundIndex_succ, slicesAfter,
      keyAfter]

/-- `SE_ENCRYPT` after its 31 rounds (R202). -/
theorem CoreRegs.engineSteps_seRounds (hphase : c.phase = .seRound) (hrnd : c.rnd = 1) :
    c.engineSteps 31 = { c with
      state := blockAfter c.state c.key 31
      key := keyAfter c.key 31
      phase := .seFinal
      rnd := 0 } := by
  rw [engineSteps, engineSteps_seRound hphase hrnd (Nat.le_refl 30), engineStep_seRound rfl]
  rfl

/-- The slice rounds of `BS_ENCRYPT`, all 31 of them (R205). -/
theorem CoreRegs.engineSteps_bsRounds (hphase : c.phase = .bsRound) (hrnd : c.rnd = 1) :
    c.engineSteps 31 = { c with
      slice := slicesAfter c.slice c.key 31
      key := keyAfter c.key 31
      phase := .bsFinal
      rnd := 0 } := by
  rw [engineSteps, engineSteps_bsRound hphase hrnd (Nat.le_refl 30), engineStep_bsRound rfl]
  rfl

/-- The whole run of `SE_ENCRYPT`: 31 rounds and the final key mix (R203). -/
theorem CoreRegs.engineSteps_seEncrypt (hphase : c.phase = .seRound) (hrnd : c.rnd = 1) :
    c.engineSteps 32 = { c with
      state := (present80 c.state c.key).1
      key := (present80 c.state c.key).2
      phase := .idle
      rnd := 0
      done := true } := by
  rw [engineSteps, engineSteps_seRounds hphase hrnd, engineStep_seFinal rfl]
  rfl

/-- The whole run of `BS_ENCRYPT`: the batch to slices, 31 rounds, the final key mix, and back (R204 to
R207). -/
theorem CoreRegs.engineSteps_bsEncrypt (hphase : c.phase = .bsIn) :
    c.engineSteps 34 = { c with
      blk := fromSliced (bsEncryptSlices (toSliced c.blk) c.key).1
      slice := (bsEncryptSlices (toSliced c.blk) c.key).1
      key := (bsEncryptSlices (toSliced c.blk) c.key).2
      phase := .idle
      rnd := 0
      done := true } := by
  have hin : c.engineSteps 1 = { c with slice := toSliced c.blk, phase := .bsRound, rnd := 1 } :=
    engineStep_bsIn hphase
  have hrounds : c.engineSteps 32 = _ :=
    (c.engineSteps_add 1 31).trans (by rw [hin, engineSteps_bsRounds rfl rfl])
  have hfinal : c.engineSteps 33 = _ := (congrArg engineStep hrounds).trans (engineStep_bsFinal rfl)
  exact (congrArg engineStep hfinal).trans (engineStep_bsOut rfl)

end Runs

/-! The CORE when a command accepted from idle has run to its end. -/

/-- What a whole run of a command makes of an idle CORE: a compound command runs its engine to the end, any
other is over when it is accepted (R199, R200). -/
def completed : Instr → CoreRegs → CoreRegs
  | .seEncrypt, c => { c with
      state := (present80 c.state c.key).1
      key := (present80 c.state c.key).2
      phase := .idle
      rnd := 0
      done := true }
  | .bsEncrypt, c => { c with
      blk := fromSliced (bsEncryptSlices (toSliced c.blk) c.key).1
      slice := (bsEncryptSlices (toSliced c.blk) c.key).1
      key := (bsEncryptSlices (toSliced c.blk) c.key).2
      phase := .idle
      rnd := 0
      done := true }
  | i, c => accepted i c

theorem accepted_phase_idle {i : Instr} {c : CoreRegs} (hidle : c.phase = .idle)
    (hse : i ≠ .seEncrypt) (hbs : i ≠ .bsEncrypt) : (accepted i c).phase = .idle := by
  cases i with
  | seEncrypt => exact absurd rfl hse
  | bsEncrypt => exact absurd rfl hbs
  | _ => simp [accepted, hidle]

/-- After 34 engine steps every command is over (R45, R208). -/
theorem engineSteps_accepted {c : CoreRegs} (hidle : c.phase = .idle) (i : Instr) :
    (accepted i c).engineSteps 34 = completed i c := by
  cases i with
  | seEncrypt =>
    rw [CoreRegs.engineSteps_add _ 32 2, CoreRegs.engineSteps_seEncrypt rfl rfl,
      CoreRegs.engineSteps_of_idle rfl]
    rfl
  | bsEncrypt => exact CoreRegs.engineSteps_bsEncrypt rfl
  | _ => exact CoreRegs.engineSteps_of_idle (accepted_phase_idle hidle (by simp) (by simp)) 34

/-- A well-formed command presented to an idle CORE ends, after 34 engine steps, as `completed` says. -/
theorem engineSteps_of_exec {i : Instr} {s t : State} (hwf : i.wellFormed = true)
    (hidle : s.regs.phase = .idle) (h : exec i s = .next t) :
    t.regs.engineSteps 34 = completed i s.regs := by
  rw [exec_eq_present, hwf, present_accepted (CoreRegs.busy_eq_false.mpr hidle)] at h
  cases h
  exact engineSteps_accepted hidle i

end Sys2Proof.Machine

end CommandRuns

section RegisterSets

namespace Sys2Proof.Machine

/-! The columns of R45's table: the mnemonics of the commands that write, and that read, each register. -/

def stateWriters : List String := ["SE_ARK", "SE_SBOX", "SE_PERM", "SE_ROUND", "SE_ENCRYPT"]
def keyWriters : List String := ["SE_ROUND", "SE_ENCRYPT", "KS_ADV", "BS_ROUND", "BS_ENCRYPT"]
def blkWriters : List String := ["BS_UNSLICE", "BS_ENCRYPT"]
def sliceWriters : List String :=
  ["BS_ENSLICE", "BS_ARK", "BS_SBOX", "BS_PERM", "BS_ROUND", "BS_ENCRYPT"]
def stateReaders : List String := ["SE_ARK", "SE_SBOX", "SE_PERM", "SE_ROUND", "SE_ENCRYPT"]
def keyReaders : List String :=
  ["SE_ARK", "SE_ROUND", "SE_ENCRYPT", "KS_ADV", "BS_ARK", "BS_ROUND", "BS_ENCRYPT"]
def blkReaders : List String := ["BS_ENSLICE", "BS_ENCRYPT"]
def sliceReaders : List String := ["BS_UNSLICE", "BS_ARK", "BS_SBOX", "BS_PERM", "BS_ROUND"]

section Frames

variable {i : Instr} (c : CoreRegs)

theorem completed_state_frame (h : i.mnemonic ∉ stateWriters) : (completed i c).state = c.state := by
  cases i with
  | seArk | seSbox | sePerm | seRound | seEncrypt => simp [Instr.mnemonic, stateWriters] at h
  | _ => simp [completed, accepted]

theorem completed_key_frame (h : i.mnemonic ∉ keyWriters) : (completed i c).key = c.key := by
  cases i with
  | seRound | seEncrypt | ksAdv | bsRound | bsEncrypt => simp [Instr.mnemonic, keyWriters] at h
  | _ => simp [completed, accepted]

theorem completed_blk_frame (h : i.mnemonic ∉ blkWriters) : (completed i c).blk = c.blk := by
  cases i with
  | bsUnslice | bsEncrypt => simp [Instr.mnemonic, blkWriters] at h
  | _ => simp [completed, accepted]

theorem completed_slice_frame (h : i.mnemonic ∉ sliceWriters) :
    (completed i c).slice = c.slice := by
  cases i with
  | bsEnslice | bsArk | bsSbox | bsPerm | bsRound | bsEncrypt => simp [Instr.mnemonic, sliceWriters] at h
  | _ => simp [completed, accepted]

/-- Every command but `NOP` ends with `DONE = 1` (R38, R198). -/
theorem completed_done (h : i.mnemonic ≠ "NOP") : (completed i c).done = true := by
  cases i with
  | nop => exact absurd rfl h
  | _ => simp [completed, accepted]

end Frames

/-- Two COREs agree on the registers of the read set of `i`. -/
structure AgreeOnReads (i : Instr) (c d : CoreRegs) : Prop where
  state : i.mnemonic ∈ stateReaders → c.state = d.state
  key : i.mnemonic ∈ keyReaders → c.key = d.key
  blk : i.mnemonic ∈ blkReaders → c.blk = d.blk
  slice : i.mnemonic ∈ sliceReaders → c.slice = d.slice

section ReadSets

variable {i : Instr} {c d : CoreRegs} (h : AgreeOnReads i c d)

include h

theorem completed_state_congr (hw : i.mnemonic ∈ stateWriters) :
    (completed i c).state = (completed i d).state := by
  obtain ⟨hstate, hkey, -, -⟩ := h
  cases i with
  | seArk | seSbox | sePerm | seRound | seEncrypt =>
    simp [Instr.mnemonic, stateReaders, keyReaders] at hstate hkey
    simp [completed, accepted, *]
  | _ => simp [Instr.mnemonic, stateWriters] at hw

theorem completed_key_congr (hw : i.mnemonic ∈ keyWriters) :
    (completed i c).key = (completed i d).key := by
  have hkey : c.key = d.key := h.key (by
    cases i <;> simp [Instr.mnemonic, keyWriters, keyReaders] at hw ⊢)
  cases i with
  | seRound | seEncrypt | ksAdv | bsRound | bsEncrypt =>
    simp [completed, accepted, hkey, present80, bsEncryptSlices]
  | _ => simp [Instr.mnemonic, keyWriters] at hw

theorem completed_blk_congr (hw : i.mnemonic ∈ blkWriters) :
    (completed i c).blk = (completed i d).blk := by
  obtain ⟨-, hkey, hblk, hslice⟩ := h
  cases i with
  | bsUnslice | bsEncrypt =>
    simp [Instr.mnemonic, keyReaders, blkReaders, sliceReaders] at hkey hblk hslice
    simp [completed, accepted, *]
  | _ => simp [Instr.mnemonic, blkWriters] at hw

theorem completed_slice_congr (hw : i.mnemonic ∈ sliceWriters) :
    (completed i c).slice = (completed i d).slice := by
  obtain ⟨-, hkey, hblk, hslice⟩ := h
  cases i with
  | bsEnslice | bsArk | bsSbox | bsPerm | bsRound | bsEncrypt =>
    simp [Instr.mnemonic, keyReaders, blkReaders, sliceReaders] at hkey hblk hslice
    simp [completed, accepted, *]
  | _ => simp [Instr.mnemonic, sliceWriters] at hw

end ReadSets

end Sys2Proof.Machine

open Sys2Proof.Machine

/-- Settles O59: the CORE at the end of a run is `completed`, whose frames and read sets are R45's. -/
theorem commandsKeepToTheirRegisterSets : Obligations.CommandsKeepToTheirRegisterSets := by
  constructor
  · intro i s t hwf hidle hexec
    rw [engineSteps_of_exec hwf hidle hexec]
    exact ⟨completed_state_frame _, completed_key_frame _, completed_blk_frame _,
      completed_slice_frame _, completed_done _⟩
  · intro i s t s' t' hwf hs ht hexec hexec' hstate hkey hblk hslice
    have hagree : AgreeOnReads i s.regs t.regs := ⟨hstate, hkey, hblk, hslice⟩
    rw [engineSteps_of_exec hwf hs hexec, engineSteps_of_exec hwf ht hexec']
    exact ⟨completed_state_congr hagree, completed_key_congr hagree, completed_blk_congr hagree,
      completed_slice_congr hagree⟩

end RegisterSets

/-! ## O7: the three readings of a command's word (R65, R90, R91, R99) -/

section DecodeOfEncode

namespace Sys2Proof

open Machine

/-- A word is put together again from its four byte lanes (R65). -/
theorem wordOfLanes_wordLane (w : Word) :
    wordOfLanes (wordLane 0 w) (wordLane 1 w) (wordLane 2 w) (wordLane 3 w) = w := by
  simp only [wordOfLanes, wordLane]
  rw [BitVec.extractLsb'_append_extractLsb'_eq_extractLsb',
    BitVec.extractLsb'_append_extractLsb'_eq_extractLsb',
    BitVec.extractLsb'_append_extractLsb'_eq_extractLsb']
  · exact BitVec.extractLsb'_eq_self
  all_goals rfl

/-- The byte decoder on the lanes of a word is the word decoder, and hands back what follows. -/
theorem decodeBytes_lanes {w : Word} {i : Instr} (h : decode w = .ok i) (rest : List Byte) :
    decodeBytes (wordLane 0 w :: wordLane 1 w :: wordLane 2 w :: wordLane 3 w :: rest) =
      .ok (i, rest) := by
  rw [decodeBytes, wordOfLanes_wordLane, h]

theorem decodeTableWord_toNat {w : Word} {i : Instr} (h : decode w = .ok i) :
    decodeTableWord 32 w.toNat = some i := by
  have hmod : w.toNat % 2 ^ 32 = w.toNat := Nat.mod_eq_of_lt w.isLt
  have hlanes : decodeBytes [w.extractLsb' 0 8, w.extractLsb' 8 8, w.extractLsb' 16 8,
      w.extractLsb' 24 8] = .ok (i, []) := decodeBytes_lanes h []
  simp only [decodeTableWord, hmod, w.isLt, if_true, BitVec.ofNat_toNat, BitVec.setWidth_eq, hlanes]

end Sys2Proof

open Sys2Proof

/-- Settles O7: the word of a well-formed command decodes to it, and the two other forms read that word. -/
theorem decodeOfEncodeIsTheCommand : Obligations.DecodeOfEncodeIsTheCommand := by
  intro i hwf
  have hdecode : decode (encode i) = .ok i := decode_eq_ok_iff.mpr ⟨rfl, hwf⟩
  exact ⟨hdecode, decodeBytes_lanes hdecode, decodeTableWord_toNat hdecode⟩

end DecodeOfEncode

/-! ## Accesses to the window: which reach a register word, and how the others stop (R60 to R63) -/

section Accesses

namespace Sys2Proof.Machine

/-- The map has a word at an aligned offset of the window, or the offset is reserved (R61). -/
theorem reservedOffset_of_portAt_eq_none {off : Nat} (hlt : off < 0x400) (haligned : off % 4 = 0)
    (h : portAt off = none) : reservedOffset off = true := by
  unfold portAt at h
  split_ifs at h
  simp only [reservedOffset, Bool.or_eq_true, Bool.and_eq_true, decide_eq_true_eq]
  omega

/-- The three ways an access inside the window can be wrong (R62, R63). -/
theorem goodAccess_eq_false {off size : Nat}
    (h : size ≠ 4 ∨ off % 4 ≠ 0 ∨ reservedOffset off = true) : goodAccess off size = false := by
  rcases h with h | h | h <;> simp [goodAccess, h]

/-- Everything an access can do, in the order of the checks (R234): it is outside the window, it is one the
window does not take, or it reaches the register word that stands at its offset. -/
theorem access_cases (off size : Nat) :
    (0x400 ≤ off ∧ access off size = .refused (.outsideWindow off)) ∨
    (off < 0x400 ∧ goodAccess off size = false ∧ access off size = .fault (.busError off)) ∨
    (∃ p : Port, off = p.offset ∧ size = 4 ∧ access off size = .next p) := by
  by_cases hout : Config.windowBytes ≤ off
  · exact .inl ⟨hout, if_pos hout⟩
  have hlt : off < 0x400 := not_le.mp hout
  by_cases hwrong : size ≠ Config.accessBytes ∨ off % 4 ≠ 0
  · exact .inr (.inl ⟨hlt, goodAccess_eq_false (hwrong.imp_right .inl),
      by rw [access, if_neg hout, if_pos hwrong]⟩)
  cases hp : portAt off with
  | none =>
    have hreserved := reservedOffset_of_portAt_eq_none hlt (by omega) hp
    exact .inr (.inl ⟨hlt, goodAccess_eq_false (.inr (.inr hreserved)),
      by rw [access, if_neg hout, if_neg hwrong, hp]⟩)
  | some p =>
    have hnext : access off size = .next p := by
      rw [access, if_neg hout, if_neg hwrong, hp]
    obtain ⟨hoff, hsize⟩ := access_eq_next_iff.mp hnext
    exact .inr (.inr ⟨p, hoff, hsize, hnext⟩)

/-- The accesses the window takes are those of four bytes at the offset of a register word. -/
theorem goodAccess_iff {off size : Nat} :
    goodAccess off size = true ↔ ∃ p : Port, off = p.offset ∧ size = 4 := by
  constructor
  · intro hgood
    rcases access_cases off size with ⟨hout, _⟩ | ⟨_, hbad, _⟩ | ⟨p, hoff, hsize, _⟩
    · simp only [goodAccess, Bool.and_eq_true, decide_eq_true_eq] at hgood
      omega
    · rw [hgood] at hbad
      cases hbad
    · exact ⟨p, hoff, hsize⟩
  · rintro ⟨p, rfl, rfl⟩
    exact goodAccess_offset p

theorem access_of_bad {off size : Nat} (hlt : off < 0x400) (hbad : goodAccess off size = false) :
    access off size = .fault (.busError off) := by
  rcases access_cases off size with ⟨hout, _⟩ | ⟨_, _, h⟩ | ⟨p, rfl, rfl, _⟩
  · omega
  · exact h
  · rw [goodAccess_offset] at hbad
    cases hbad

theorem access_outside {off : Nat} (hout : 0x400 ≤ off) (size : Nat) :
    access off size = .refused (.outsideWindow off) := if_pos hout

section Stops

variable {off size : Nat}

theorem memRead_of_bad (hlt : off < 0x400) (hbad : goodAccess off size = false) (c : CoreRegs) :
    memRead off size c = .fault (.busError off) := by
  rw [memRead, access_of_bad hlt hbad]

theorem memWrite_of_bad (hlt : off < 0x400) (hbad : goodAccess off size = false) (v : Word)
    (s : State) : memWrite off size v s = .fault (.busError off) := by
  rw [memWrite, access_of_bad hlt hbad]

theorem memRead_outside (hout : 0x400 ≤ off) (c : CoreRegs) :
    memRead off size c = .refused (.outsideWindow off) := by
  rw [memRead, access_outside hout]

theorem memWrite_outside (hout : 0x400 ≤ off) (v : Word) (s : State) :
    memWrite off size v s = .refused (.outsideWindow off) := by
  rw [memWrite, access_outside hout]

end Stops

section Words

theorem access_offset (p : Port) : access p.offset 4 = .next p := access_eq_next_iff.mpr ⟨rfl, rfl⟩

theorem memRead_offset (p : Port) (c : CoreRegs) : memRead p.offset 4 c = .next (c.readWord p) := by
  rw [memRead, access_offset]

theorem memWrite_offset (p : Port) (v : Word) (s : State) :
    memWrite p.offset 4 v s = writeWord p v s := by
  rw [memWrite, access_offset]

/-- While idle every register word reads as it stands (R67). -/
theorem memRead_of_idle {c : CoreRegs} (hidle : c.phase = .idle) {off : Nat} {p : Port}
    (hoff : off = p.offset) : memRead off 4 c = .next (c.readPort p) := by
  have hbusy : c.busy = false := CoreRegs.busy_eq_false.mpr hidle
  rw [hoff, memRead_offset]
  cases p <;> simp [CoreRegs.readWord, hbusy]

/-- While busy every write but that of `STATUS` is turned away (R70). -/
theorem memWrite_of_busy {s : State} (hphase : s.regs.phase ≠ .idle) {p : Port} (hp : p ≠ .status)
    (v : Word) : memWrite p.offset 4 v s = .next (s.withRegs s.regs.takeErrBusy) := by
  have hbusy : s.regs.busy = true := CoreRegs.busy_eq_true.mpr hphase
  rw [memWrite_offset]
  rcases writeWord_cases p v s with ⟨h, _⟩ | ⟨_, _, h⟩ | ⟨_, hidle, _⟩ | ⟨_, _, hidle, _⟩
  · exact absurd h hp
  · exact h
  all_goals simp [hbusy] at hidle

/-- While idle the write of a data register word replaces it (R68). -/
theorem memWrite_of_idle {s : State} (hidle : s.regs.phase = .idle) (v : Word) {off : Nat} {p : Port}
    (hoff : off = p.offset) (hcmd : p ≠ .cmd) (hstatus : p ≠ .status) :
    memWrite off 4 v s = .next (s.withRegs (s.regs.writePort p v)) := by
  have hbusy : s.regs.busy = false := CoreRegs.busy_eq_false.mpr hidle
  rw [hoff, memWrite_offset]
  rcases writeWord_cases p v s with ⟨h, _⟩ | ⟨_, h, _⟩ | ⟨h, _⟩ | ⟨_, _, _, h⟩
  · exact absurd h hstatus
  · simp [hbusy] at h
  · exact absurd h hcmd
  · exact h

/-- While idle a word written to `CMD` is presented to the command decoder (R68, R196). -/
theorem memWrite_cmd_of_idle {s : State} (hidle : s.regs.phase = .idle) (v : Word) :
    memWrite 0x000 4 v s = command v s := by
  have hbusy : s.regs.busy = false := CoreRegs.busy_eq_false.mpr hidle
  calc memWrite 0x000 4 v s = writeWord .cmd v s := memWrite_offset .cmd v s
    _ = command v s := by simp [writeWord, hbusy]

theorem offset_batch {off : Nat} (hlo : 0x100 ≤ off) (hhi : off ≤ 0x1FC) (haligned : off % 4 = 0) :
    off = (Port.batch ⟨(off - 0x100) / 4, by omega⟩).offset := by
  simp only [Port.offset]
  omega

theorem offset_slice {off : Nat} (hlo : 0x200 ≤ off) (hhi : off ≤ 0x2FC) (haligned : off % 4 = 0) :
    off = (Port.slice ⟨(off - 0x200) / 4, by omega⟩).offset := by
  simp only [Port.offset]
  omega

end Words

end Sys2Proof.Machine

end Accesses

/-! ## O39: what a host read returns (R67, R69, R72) -/

section HostReads

namespace Sys2Proof.Machine

/-- A read line moves the host and leaves the CORE (R72). -/
theorem hostOp_read_regs {off size x : Nat} {s t : State} (h : hostOp (.read off size x) s = .next t) :
    t.regs = s.regs := by
  simp only [hostOp] at h
  split at h <;> cases h
  rfl

end Sys2Proof.Machine

open Sys2Proof Sys2Proof.Machine

/-- Settles O39: the access is wrong, or it reaches a register word, which reads 0, `STATUS` or its part of
its register. -/
theorem hostReadReturnsTheMappedWord : Obligations.HostReadReturnsTheMappedWord := by
  refine ⟨fun c off n hlt h => memRead_of_bad hlt (goodAccess_eq_false h) c, fun c => ⟨rfl, rfl⟩,
    fun c off hbusy hgood _ hstatus => ?_, fun c hidle => ?_, fun s t off n x => hostOp_read_regs⟩
  · obtain ⟨p, rfl, -⟩ := goodAccess_iff.mp hgood
    rw [memRead_offset, CoreRegs.readWord_of_busy hbusy, if_neg (mt Port.offset_eq_status.mpr hstatus)]
  · exact ⟨memRead_of_idle hidle (p := .key0) rfl, memRead_of_idle hidle (p := .key1) rfl,
      memRead_of_idle hidle (p := .key2) rfl, memRead_of_idle hidle (p := .sdata0) rfl,
      memRead_of_idle hidle (p := .sdata1) rfl,
      fun off hlo hhi haligned => memRead_of_idle hidle (offset_batch hlo hhi haligned),
      fun off hlo hhi haligned => memRead_of_idle hidle (offset_slice hlo hhi haligned)⟩

end HostReads

/-! ## O40: what a host write does (R68, R70) -/

section HostWrites

namespace Sys2Proof.Machine

/-- Write-1-to-clear, in the form of R71. -/
theorem CoreRegs.clearStatus_eq (c : CoreRegs) (v : Word) : c.clearStatus v = { c with
    done := if v.getLsbD 1 then false else c.done
    errCmd := if v.getLsbD 2 then false else c.errCmd
    errBusy := if v.getLsbD 3 then false else c.errBusy } := by
  have hclear : ∀ flag bit : Bool, (flag && !bit) = if bit then false else flag := by decide
  simp only [clearStatus, hclear]

/-- Writing one half of a block replaces it. -/
theorem blockHalf_setBlockHalf_same {h : Nat} (hh : h < 2) (b : Block) (v : Word) :
    blockHalf h (setBlockHalf h b v) = v := by
  obtain rfl | rfl : h = 0 ∨ h = 1 := by omega
  · exact BitVec.extractLsb'_append_eq_right
  · exact BitVec.extractLsb'_append_eq_left

/-- Writing one half of a block leaves the other. -/
theorem blockHalf_setBlockHalf_other {h : Nat} (hh : h < 2) (b : Block) (v : Word) :
    blockHalf (1 - h) (setBlockHalf h b v) = blockHalf (1 - h) b := by
  obtain rfl | rfl : h = 0 ∨ h = 1 := by omega
  · exact BitVec.extractLsb'_append_eq_left
  · exact BitVec.extractLsb'_append_eq_right

section KeyWords

variable (c : CoreRegs) (v : Word)

theorem CoreRegs.writePort_key0_key :
    (c.writePort .key0 v).key.extractLsb' 0 32 = v ∧
    (c.writePort .key0 v).key.extractLsb' 32 48 = c.key.extractLsb' 32 48 :=
  ⟨BitVec.extractLsb'_append_eq_right, BitVec.extractLsb'_append_eq_left⟩

theorem CoreRegs.writePort_key1_key :
    (c.writePort .key1 v).key.extractLsb' 32 32 = v ∧
    (c.writePort .key1 v).key.extractLsb' 0 32 = c.key.extractLsb' 0 32 ∧
    (c.writePort .key1 v).key.extractLsb' 64 16 = c.key.extractLsb' 64 16 := by
  refine ⟨?_, BitVec.extractLsb'_append_eq_right, ?_⟩
  · exact (BitVec.extractLsb'_append_eq_of_le (by decide)).trans BitVec.extractLsb'_append_eq_right
  · exact (BitVec.extractLsb'_append_eq_of_le (by decide)).trans BitVec.extractLsb'_append_eq_left

theorem CoreRegs.writePort_key2_key :
    (c.writePort .key2 v).key.extractLsb' 64 16 = v.extractLsb' 0 16 ∧
    (c.writePort .key2 v).key.extractLsb' 0 64 = c.key.extractLsb' 0 64 :=
  ⟨BitVec.extractLsb'_append_eq_left, BitVec.extractLsb'_append_eq_right⟩

end KeyWords

end Sys2Proof.Machine

open Sys2Proof Sys2Proof.Machine

/-- Settles O40: the access is wrong, or it reaches a register word, whose write is turned away while busy
and replaces that word while idle. -/
theorem hostWriteReplacesTheMappedWord : Obligations.HostWriteReplacesTheMappedWord := by
  refine ⟨fun s off n v hlt h => memWrite_of_bad hlt (goodAccess_eq_false h) v s, fun s v => ?_,
    fun s off v hbusy hgood hstatus => ?_, fun s v hidle => ?_⟩
  · rw [memWrite_status, CoreRegs.clearStatus_eq]
    rfl
  · obtain ⟨p, rfl, -⟩ := goodAccess_iff.mp hgood
    exact memWrite_of_busy hbusy (mt Port.offset_eq_status.mpr hstatus) v
  · have hwrite {off : Nat} {p : Port} := memWrite_of_idle hidle v (off := off) (p := p)
    refine ⟨memWrite_cmd_of_idle hidle v,
      ⟨_, hwrite (p := .key0) rfl nofun nofun, s.regs.writePort_key0_key v⟩,
      ⟨_, hwrite (p := .key1) rfl nofun nofun, s.regs.writePort_key1_key v⟩,
      ⟨_, hwrite (p := .key2) rfl nofun nofun, s.regs.writePort_key2_key v⟩,
      ⟨_, hwrite (p := .sdata0) rfl nofun nofun, blockHalf_setBlockHalf_same (by decide) _ v,
        blockHalf_setBlockHalf_other (by decide) _ v⟩,
      ⟨_, hwrite (p := .sdata1) rfl nofun nofun, blockHalf_setBlockHalf_same (by decide) _ v,
        blockHalf_setBlockHalf_other (by decide) _ v⟩,
      fun off hlo hhi haligned => ?_, fun off hlo hhi haligned => ?_⟩
    · refine ⟨_, hwrite (offset_batch hlo hhi haligned) nofun nofun, ?_, ?_,
        fun j hj hne => Vector.getElem_set_ne _ _ hne.symm⟩ <;> rw [Vector.getElem_set_self]
      · exact blockHalf_setBlockHalf_same (Nat.mod_lt _ two_pos) _ v
      · exact blockHalf_setBlockHalf_other (Nat.mod_lt _ two_pos) _ v
    · exact ⟨_, hwrite (offset_slice hlo hhi haligned) nofun nofun, Vector.getElem_set_self _,
        fun i hi hne => Vector.getElem_set_ne _ _ hne.symm⟩

end HostWrites

/-! ## O41: how a run stops at a wrong access, and that nothing else stops it (R60, R62, R63, R233, R273) -/

section Stopping

namespace Sys2Proof.Machine

/-- The host line is an access of `size` bytes at `off`. -/
def HostOp.accesses (op : HostOp) (off size : Nat) : Prop :=
  (∃ v, op = .write off size v) ∨ ∃ x, op = .read off size x

section HostLines

variable {op : HostOp} {off size : Nat}

theorem hostOp_of_bad (hop : op.accesses off size) (hlt : off < 0x400)
    (hbad : goodAccess off size = false) (s : State) : hostOp op s = .fault (.busError off) := by
  rcases hop with ⟨v, rfl⟩ | ⟨x, rfl⟩
  · exact memWrite_of_bad hlt hbad v s.advance
  · rw [hostOp, memRead_of_bad hlt hbad]

theorem hostOp_outside (hop : op.accesses off size) (hout : 0x400 ≤ off) (s : State) :
    hostOp op s = .refused (.outsideWindow off) := by
  rcases hop with ⟨v, rfl⟩ | ⟨x, rfl⟩
  · exact memWrite_outside hout v s.advance
  · rw [hostOp, memRead_outside hout]

/-- An access that reaches a register word gives a next state. -/
theorem hostOp_next_of_access {p : Port} (hop : op.accesses p.offset 4) (s : State) :
    ∃ t, hostOp op s = .next t := by
  rcases hop with ⟨v, rfl⟩ | ⟨x, rfl⟩
  · obtain ⟨c, hc⟩ := writeWord_next p v s.advance
    exact ⟨_, (memWrite_offset p v s.advance).trans hc⟩
  · exact ⟨_, by rw [hostOp, memRead_offset]⟩

end HostLines

/-- A host line is an access, or it gives a next state. -/
theorem hostOp_accesses_or_next (op : HostOp) (s : State) :
    (∃ off size, op.accesses off size) ∨ ∃ t, hostOp op s = .next t := by
  cases op with
  | write off size v => exact .inl ⟨off, size, .inl ⟨v, rfl⟩⟩
  | read off size x => exact .inl ⟨off, size, .inr ⟨x, rfl⟩⟩
  | _ => exact .inr ⟨_, rfl⟩

/-- How a host line ends: as a next state, or stopped by its own access. -/
theorem hostOp_outcome (op : HostOp) (s : State) :
    (∃ t, hostOp op s = .next t) ∨
    (∃ off size, op.accesses off size ∧ off < 0x400 ∧ goodAccess off size = false ∧
      hostOp op s = .fault (.busError off)) ∨
    (∃ off size, op.accesses off size ∧ 0x400 ≤ off ∧
      hostOp op s = .refused (.outsideWindow off)) := by
  rcases hostOp_accesses_or_next op s with ⟨off, size, hop⟩ | hnext
  · rcases access_cases off size with ⟨hout, _⟩ | ⟨hlt, hbad, _⟩ | ⟨p, rfl, rfl, _⟩
    · exact .inr (.inr ⟨off, size, hop, hout, hostOp_outside hop hout s⟩)
    · exact .inr (.inl ⟨off, size, hop, hlt, hbad, hostOp_of_bad hop hlt hbad s⟩)
    · exact .inl (hostOp_next_of_access hop s)
  · exact .inl hnext

theorem step_of_currentOp {s : State} {op : HostOp} (h : s.currentOp = some op) :
    step s = hostOp op { s with turns := s.turns.tail } :=
  step_host (currentOp_eq_some h).1 (currentOp_eq_some h).2

/-- A step in which the host performs no operation gives a next state. -/
theorem step_next_of_no_op {s : State} (h : s.currentOp = none) : ∃ t, step s = .next t := by
  rcases turn_cases s with hturn | hturn | hturn
  · exact ⟨_, step_reset hturn⟩
  · exact ⟨_, step_engine hturn⟩
  · exact ⟨_, step_host_none hturn (by simpa [State.currentOp, hturn] using h)⟩

/-- How a step ends: as a next state, or stopped by the access of the host line it performs. -/
theorem step_outcome (s : State) :
    (∃ t, step s = .next t) ∨
    (∃ op off size, s.currentOp = some op ∧ op.accesses off size ∧ off < 0x400 ∧
      goodAccess off size = false ∧ step s = .fault (.busError off)) ∨
    (∃ op off size, s.currentOp = some op ∧ op.accesses off size ∧ 0x400 ≤ off ∧
      step s = .refused (.outsideWindow off)) := by
  cases hop : s.currentOp with
  | none => exact .inl (step_next_of_no_op hop)
  | some op =>
    rw [step_of_currentOp hop]
    rcases hostOp_outcome op { s with turns := s.turns.tail } with
      hnext | ⟨off, size, hacc, hlt, hbad, hstop⟩ | ⟨off, size, hacc, hout, hstop⟩
    · exact .inl hnext
    · exact .inr (.inl ⟨op, off, size, rfl, hacc, hlt, hbad, hstop⟩)
    · exact .inr (.inr ⟨op, off, size, rfl, hacc, hout, hstop⟩)

/-- The line a step performs is an access: the statement's two forms of it. -/
theorem currentOp_of_accesses {s : State} {op : HostOp} {off size : Nat} (h : s.currentOp = some op)
    (hacc : op.accesses off size) :
    (∃ v, s.currentOp = some (.write off size v)) ∨ ∃ x, s.currentOp = some (.read off size x) := by
  rcases hacc with ⟨v, rfl⟩ | ⟨x, rfl⟩
  · exact .inl ⟨v, h⟩
  · exact .inr ⟨x, h⟩

end Sys2Proof.Machine

open Sys2Proof Sys2Proof.Machine

/-- Settles O41: a wrong access stops the step, and how a step ends leaves no other stop. -/
theorem wrongAccessesEndTheRun : Obligations.WrongAccessesEndTheRun := by
  refine ⟨fun s off n v hop hlt hbad => ?_, fun s off n x hop hlt hbad => ?_,
    fun s off n v hop hout => ?_, fun s off n x hop hout => ?_, fun s f hstep => ?_,
    fun s r hstep => ?_⟩
  · rw [step_of_currentOp hop, hostOp_of_bad (.inl ⟨v, rfl⟩) hlt hbad]
  · rw [step_of_currentOp hop, hostOp_of_bad (.inr ⟨x, rfl⟩) hlt hbad]
  · rw [step_of_currentOp hop, hostOp_outside (.inl ⟨v, rfl⟩) hout]
  · rw [step_of_currentOp hop, hostOp_outside (.inr ⟨x, rfl⟩) hout]
  · rcases step_outcome s with ⟨t, h⟩ | ⟨op, off, n, hop, hacc, hlt, hbad, h⟩ |
      ⟨_, _, _, _, _, _, h⟩ <;>
      rw [h] at hstep <;> cases hstep
    exact ⟨off, n, rfl, hlt, hbad, currentOp_of_accesses hop hacc⟩
  · rcases step_outcome s with ⟨t, h⟩ | ⟨_, _, _, _, _, _, _, h⟩ |
      ⟨op, off, n, hop, hacc, hout, h⟩ <;>
      rw [h] at hstep <;> cases hstep
    exact ⟨off, n, rfl, hout, currentOp_of_accesses hop hacc⟩

end Stopping

/-! ## O43: where the bits and bytes of the registers stand in the bus words (R65, R66) -/

section RegisterBits

namespace Sys2Proof.Machine

section Parts

variable {n : Nat} (x : BitVec n)

/-- Bit `i` of a value is bit `i mod 32` of its word `i div 32`. -/
theorem getLsbD_wordOfBit (i : Nat) :
    (x.extractLsb' (32 * (i / 32)) 32).getLsbD (i % 32) = x.getLsbD i := by
  have hlt : i % 32 < 32 := Nat.mod_lt _ (by decide)
  rw [BitVec.getLsbD_extractLsb', Nat.div_add_mod]
  simp [hlt]

/-- A part of a part of a value is a part of the value. -/
theorem extractLsb'_extractLsb'_of_add_le {start len start' len' : Nat} (h : start' + len' ≤ len) :
    (x.extractLsb' start len).extractLsb' start' len' = x.extractLsb' (start + start') len' := by
  apply BitVec.eq_of_getLsbD_eq
  intro i hi
  have hin : start' + i < len := by omega
  simp [hi, hin, Nat.add_assoc]

/-- Values that agree on a part agree on every part of it. -/
theorem extractLsb'_congr {y : BitVec n} {start len start' len' : Nat}
    (h : x.extractLsb' start len = y.extractLsb' start len) (hlo : start ≤ start')
    (hhi : start' + len' ≤ start + len) : x.extractLsb' start' len' = y.extractLsb' start' len' := by
  obtain ⟨d, rfl⟩ := Nat.exists_eq_add_of_le hlo
  rw [← extractLsb'_extractLsb'_of_add_le x (len := len) (by omega), h,
    extractLsb'_extractLsb'_of_add_le y (by omega)]

/-- Byte `k` of a value is byte lane `k mod 4` of its word `k div 4`. -/
theorem wordLane_wordOfByte (k : Nat) :
    wordLane (k % 4) (x.extractLsb' (32 * (k / 4)) 32) = x.extractLsb' (8 * k) 8 := by
  have hbit : 32 * (k / 4) + 8 * (k % 4) = 8 * k := by omega
  rw [wordLane, extractLsb'_extractLsb'_of_add_le x (by omega), hbit]

end Parts

/-- The third word of the key is zero above bit 15 (R64). -/
theorem key2_word (k : Key) : (k.extractLsb' 64 16).setWidth 32 = k.extractLsb' 64 32 := by
  apply BitVec.eq_of_getLsbD_eq
  intro i hi
  by_cases h : i < 16
  · simp [h, hi]
  · have hzero : k.getLsbD (64 + i) = false := BitVec.getLsbD_of_ge _ _ (by omega)
    simp [h, hzero]

/-- `KEY` from its three words (R66). -/
theorem key_of_words (k : Key) :
    (k.extractLsb' 64 32).extractLsb' 0 16 ++ k.extractLsb' 32 32 ++ k.extractLsb' 0 32 = k := by
  rw [extractLsb'_extractLsb'_of_add_le k (by decide),
    BitVec.extractLsb'_append_extractLsb'_eq_extractLsb' (by rfl)]
  exact BitVec.extractLsb'_append_extractLsb'

section IdleReads

variable {c : CoreRegs} (hidle : c.phase = .idle)

include hidle

/-- The words of `SDATA` are the words of `STATE` (R61). -/
theorem memRead_stateWord {m : Nat} (hm : m < 2) :
    memRead (0x020 + 4 * m) 4 c = .next (c.state.extractLsb' (32 * m) 32) := by
  obtain rfl | rfl : m = 0 ∨ m = 1 := by omega
  · exact memRead_of_idle hidle (p := .sdata0) rfl
  · exact memRead_of_idle hidle (p := .sdata1) rfl

/-- The words of `KEY`: the third holds bits 79..64 and, above them, zeros (R61, R64). -/
theorem memRead_keyWord {m : Nat} (hm : m < 3) :
    memRead (0x010 + 4 * m) 4 c = .next (c.key.extractLsb' (32 * m) 32) := by
  obtain rfl | rfl | rfl : m = 0 ∨ m = 1 ∨ m = 2 := by omega
  · exact memRead_of_idle hidle (p := .key0) rfl
  · exact memRead_of_idle hidle (p := .key1) rfl
  · exact (memRead_of_idle hidle (p := .key2) rfl).trans (congrArg _ (key2_word c.key))

/-- The words of `BATCH` are the halves of the blocks of `BLK` (R61). -/
theorem memRead_batchWord {j h : Nat} (hj : j < 32) (hh : h < 2) :
    memRead (0x100 + 4 * (2 * j + h)) 4 c = .next (c.blk[j].extractLsb' (32 * h) 32) := by
  have hread := memRead_of_idle hidle (p := .batch ⟨2 * j + h, by omega⟩) rfl
  have hdiv : (2 * j + h) / 2 = j := by omega
  have hmod : (2 * j + h) % 2 = h := by omega
  simpa only [Port.offset, CoreRegs.readPort, blockHalf, hdiv, hmod] using hread

end IdleReads

end Sys2Proof.Machine

open Sys2Proof Sys2Proof.Machine

/-- Settles O43: the bus words are the words of the registers, and a bit or a byte of a value is found in
its word. -/
theorem registerBitsStandInTheirWords : Obligations.RegisterBitsStandInTheirWords := by
  refine ⟨fun c hidle => ?_, fun c hidle hstate => ?_, fun c off n hlt hsize =>
    memRead_of_bad hlt (goodAccess_eq_false (.inl hsize)) c⟩
  · have hstate {m : Nat} := memRead_stateWord hidle (m := m)
    have hkey {m : Nat} := memRead_keyWord hidle (m := m)
    exact ⟨fun i hi => ⟨_, hstate (by omega), getLsbD_wordOfBit _ i⟩,
      fun k hk => ⟨_, hkey (by omega), getLsbD_wordOfBit _ k⟩,
      ⟨_, _, hstate (m := 0) (by decide), hstate (m := 1) (by decide),
        BitVec.extractLsb'_append_extractLsb'⟩,
      ⟨_, _, _, hkey (m := 0) (by decide), hkey (m := 1) (by decide), hkey (m := 2) (by decide),
        key_of_words c.key⟩,
      fun k hk => ⟨_, hstate (by omega), wordLane_wordOfByte _ k⟩,
      fun k hk => ⟨_, hkey (by omega), wordLane_wordOfByte _ k⟩,
      fun j k hj hk => ⟨_, memRead_batchWord hidle hj (by omega), wordLane_wordOfByte _ k⟩⟩
  · refine ⟨?_, ?_, ?_⟩
    · rw [memRead_stateWord hidle (m := 1) (by decide), hstate]
      rfl
    · rw [memRead_stateWord hidle (m := 0) (by decide), hstate]
      rfl
    · rw [hstate]
      decide

end RegisterBits

/-! ## O44: reading back what was written (R64, R72) -/

section ReadBack

namespace Sys2Proof.Machine

section WordsApart

variable (c : CoreRegs) (v : Word)

@[simp] theorem CoreRegs.writePort_phase (p : Port) : (c.writePort p v).phase = c.phase := by
  cases p <;> rfl

@[simp] theorem CoreRegs.writePort_statusWord (p : Port) :
    (c.writePort p v).statusWord = c.statusWord := by
  cases p <;> rfl

/-- A data register word reads as it was written, `KEY2` its low half (R64, R72). -/
theorem CoreRegs.readPort_writePort_same {p : Port} (hcmd : p ≠ .cmd) (hstatus : p ≠ .status) :
    (c.writePort p v).readPort p =
      if p = .key2 then (v.extractLsb' 0 16).setWidth 32 else v := by
  cases p with
  | cmd => exact absurd rfl hcmd
  | status => exact absurd rfl hstatus
  | key0 => exact (c.writePort_key0_key v).1
  | key1 => exact (c.writePort_key1_key v).1
  | key2 => exact congrArg (BitVec.setWidth 32) (c.writePort_key2_key v).1
  | sdata0 => exact blockHalf_setBlockHalf_same (by decide) _ v
  | sdata1 => exact blockHalf_setBlockHalf_same (by decide) _ v
  | batch w =>
    simp only [readPort, writePort, Vector.getElem_set_self]
    exact blockHalf_setBlockHalf_same (Nat.mod_lt _ two_pos) _ v
  | slice i => exact Vector.getElem_set_self _

/-- Blocks of `BLK`, and the two halves of one, lie apart (R61). -/
theorem CoreRegs.readPort_writePort_batch_other {w w' : Fin 64} (hne : w' ≠ w) :
    (c.writePort (.batch w) v).readPort (.batch w') = c.readPort (.batch w') := by
  simp only [readPort, writePort]
  by_cases hblock : w.val / 2 = w'.val / 2
  · have hhalf : w'.val % 2 = 1 - w.val % 2 := by omega
    simp only [hblock, Vector.getElem_set_self, hhalf]
    exact blockHalf_setBlockHalf_other (Nat.mod_lt _ two_pos) _ v
  · rw [Vector.getElem_set_ne _ _ hblock]

/-- Every other register word reads as before (R72). -/
theorem CoreRegs.readPort_writePort_other {p q : Port} (hne : q ≠ p) :
    (c.writePort p v).readPort q = c.readPort q := by
  cases q with
  | cmd => rfl
  | status => exact c.writePort_statusWord v p
  | key0 =>
    cases p with
    | key0 => exact absurd rfl hne
    | key1 => exact (c.writePort_key1_key v).2.1
    | key2 => exact extractLsb'_congr _ (c.writePort_key2_key v).2 (by decide) (by decide)
    | _ => rfl
  | key1 =>
    cases p with
    | key0 => exact extractLsb'_congr _ (c.writePort_key0_key v).2 (by decide) (by decide)
    | key1 => exact absurd rfl hne
    | key2 => exact extractLsb'_congr _ (c.writePort_key2_key v).2 (by decide) (by decide)
    | _ => rfl
  | key2 =>
    refine congrArg (BitVec.setWidth 32) ?_
    cases p with
    | key0 => exact extractLsb'_congr _ (c.writePort_key0_key v).2 (by decide) (by decide)
    | key1 => exact (c.writePort_key1_key v).2.2
    | key2 => exact absurd rfl hne
    | _ => rfl
  | sdata0 =>
    cases p with
    | sdata0 => exact absurd rfl hne
    | sdata1 => exact blockHalf_setBlockHalf_other (h := 1) (by decide) _ v
    | _ => rfl
  | sdata1 =>
    cases p with
    | sdata0 => exact blockHalf_setBlockHalf_other (h := 0) (by decide) _ v
    | sdata1 => exact absurd rfl hne
    | _ => rfl
  | batch w' =>
    cases p with
    | batch w => exact c.readPort_writePort_batch_other v fun h => hne (congrArg Port.batch h)
    | _ => rfl
  | slice i' =>
    cases p with
    | slice i =>
      have hval : i.val ≠ i'.val := fun h => hne (congrArg Port.slice (Fin.ext h.symm))
      exact Vector.getElem_set_ne i.isLt i'.isLt hval
    | _ => rfl

end WordsApart

theorem Port.offset_eq_key2 {p : Port} : p.offset = 0x018 ↔ p = .key2 :=
  ⟨fun h => Port.offset_injective (q := .key2) h, fun h => h ▸ rfl⟩

end Sys2Proof.Machine

open Sys2Proof Sys2Proof.Machine

/-- Settles O44: the register words lie apart, so a write of one is seen in that one alone. -/
theorem readBackAfterWrite : Obligations.ReadBackAfterWrite := by
  intro s off v hidle hgood hcmd hstatus
  obtain ⟨p, rfl, -⟩ := goodAccess_iff.mp hgood
  replace hcmd : p ≠ .cmd := mt Port.offset_eq_cmd.mpr hcmd
  replace hstatus : p ≠ .status := mt Port.offset_eq_status.mpr hstatus
  have hidle' : (s.regs.writePort p v).phase = .idle := (s.regs.writePort_phase v p).trans hidle
  refine ⟨s.regs.writePort p v, memWrite_of_idle hidle v rfl hcmd hstatus, ?_, fun off' hgood' hne => ?_⟩
  · rw [memRead_of_idle hidle' rfl, CoreRegs.readPort_writePort_same _ v hcmd hstatus]
    simp only [Port.offset_eq_key2]
  · obtain ⟨q, rfl, -⟩ := goodAccess_iff.mp hgood'
    have hport : q ≠ p := fun h => hne (congrArg Port.offset h)
    rw [memRead_of_idle hidle' rfl, memRead_of_idle hidle rfl,
      CoreRegs.readPort_writePort_other _ v hport]

end ReadBack

/-! ## O46: the place of the window (R60) -/

section WindowPlace

namespace Sys2Proof.Machine

theorem windowOffset_base_add (base : Nat) {off : Nat} (hlt : off < 0x400) :
    windowOffset base (base + off) = some off := by
  have hin : base ≤ base + off ∧ base + off < base + Config.windowBytes :=
    ⟨Nat.le_add_right base off, Nat.add_lt_add_left hlt base⟩
  rw [windowOffset, if_pos hin, Nat.add_sub_cancel_left]

theorem windowOffset_outside {base addr : Nat} (hout : addr < base ∨ base + 0x400 ≤ addr) :
    windowOffset base addr = none := by
  refine if_neg fun hin => ?_
  simp only [Config.windowBytes] at hin
  omega

end Sys2Proof.Machine

open Sys2Proof Sys2Proof.Machine

/-- Settles O46: a bus access goes through its window offset, which the base cancels out of. -/
theorem windowPlaceDoesNotMatter : Obligations.WindowPlaceDoesNotMatter := by
  refine ⟨fun base off n c hlt => ?_, fun base off n v s hlt => ?_, fun base addr n c hout => ?_,
    fun base addr n v s hout => ?_⟩
  · rw [busRead, windowOffset_base_add base hlt, Option.map_some]
  · rw [busWrite, windowOffset_base_add base hlt, Option.map_some]
  · rw [busRead, windowOffset_outside hout, Option.map_none]
  · rw [busWrite, windowOffset_outside hout, Option.map_none]

end WindowPlace

/-! ## Words by fields: the encoder, and legality as R94 lists it (R91, R94, R99) -/

section FieldFacts

namespace Sys2Proof

/-- The encoder lays the fields side by side: `Z = 0`, `R`, `OPC` (R91, R99). -/
theorem encodeWord_eq_append (opc : BitVec 8) (r : Round) : encodeWord opc r = 0#19 ++ r ++ opc := by
  have hr : r.toNat < 2 ^ 32 := r.isLt.trans (by decide)
  have hopc : opc.toNat < 2 ^ 32 := opc.isLt.trans (by decide)
  have hshift : r.toNat <<< 8 < 2 ^ 32 := by rw [Nat.shiftLeft_eq]; omega
  apply BitVec.eq_of_toNat_eq
  simp only [encodeWord, BitVec.toNat_or, BitVec.toNat_shiftLeft, BitVec.toNat_setWidth,
    BitVec.toNat_append, BitVec.toNat_zero, Nat.zero_shiftLeft, Nat.zero_or, Nat.mod_eq_of_lt hr,
    Nat.mod_eq_of_lt hopc, Nat.mod_eq_of_lt hshift]

@[simp] theorem opcOf_encodeWord (opc : BitVec 8) (r : Round) : opcOf (encodeWord opc r) = opc := by
  rw [encodeWord_eq_append]
  exact BitVec.extractLsb'_append_eq_right

@[simp] theorem rOf_encodeWord (opc : BitVec 8) (r : Round) : rOf (encodeWord opc r) = r := by
  rw [encodeWord_eq_append, rOf, BitVec.extractLsb'_append_eq_of_le (Nat.le_refl 8)]
  exact BitVec.extractLsb'_append_eq_right

@[simp] theorem zOf_encodeWord (opc : BitVec 8) (r : Round) : zOf (encodeWord opc r) = 0 := by
  rw [encodeWord_eq_append, zOf, BitVec.extractLsb'_append_eq_of_le (by decide : 8 ≤ 13)]
  exact BitVec.extractLsb'_append_eq_left

/-- A word with `Z = 0` is the encoding of its other two fields. -/
theorem encodeWord_of_zOf_eq_zero {w : Word} (hz : zOf w = 0) : encodeWord (opcOf w) (rOf w) = w :=
  eq_of_fields_eq (opcOf_encodeWord ..) (rOf_encodeWord ..) ((zOf_encodeWord ..).trans hz.symm)

/-- The opcodes that take a round operand (R93). -/
def roundOpcodes : List (BitVec 8) := [0x04, 0x10, 0x25]

/-- The opcodes that take none (R93). -/
def plainOpcodes : List (BitVec 8) :=
  [0x00, 0x01, 0x02, 0x03, 0x05, 0x20, 0x21, 0x22, 0x23, 0x24, 0x26]

/-- `legal_iff_fields` over opcodes instead of their numbers. -/
theorem legal_iff_opcodes {w : Word} : legal w = true ↔ zOf w = 0 ∧
    ((opcOf w ∈ roundOpcodes ∧ rOf w ≠ 0) ∨ (opcOf w ∈ plainOpcodes ∧ rOf w = 0)) := by
  rw [legal_iff_fields]
  simp [roundOpcodes, plainOpcodes, ← BitVec.toNat_inj]

theorem legal_encodeWord_iff {opc : BitVec 8} {r : Round} : legal (encodeWord opc r) = true ↔
    (opc ∈ roundOpcodes ∧ r ≠ 0) ∨ (opc ∈ plainOpcodes ∧ r = 0) := by
  simp [legal_iff_opcodes]

theorem opc_mem_roundOpcodes {i : Instr} : i.opc ∈ roundOpcodes ↔ i.takesRound = true := by
  cases i <;> simp [Instr.opc, Instr.takesRound, roundOpcodes]

theorem opc_mem_plainOpcodes {i : Instr} : i.opc ∈ plainOpcodes ↔ i.takesRound = false := by
  cases i <;> simp [Instr.opc, Instr.takesRound, plainOpcodes]

theorem decode_of_illegal {w : Word} (h : legal w = false) : ∃ e, decode w = .error e := by
  cases hd : decode w with
  | error e => exact ⟨e, rfl⟩
  | ok i => rw [legal_iff_decode.mpr ⟨i, hd⟩] at h; cases h

end Sys2Proof

end FieldFacts

/-! ## O8: the decoder, the refusal of the other words, and the one command that does nothing (R94, R95) -/

section LegalWords

namespace Sys2Proof.Machine

/-- An illegal word sets `ERR_CMD` and nothing else (R231). -/
theorem command_of_illegal {w : Word} (h : legal w = false) (s : State) :
    command w s = .next (s.withRegs s.regs.takeErrCmd) := by
  obtain ⟨e, he⟩ := decode_of_illegal h
  rw [command, he]

/-- A legal word is accepted while idle (R196). -/
theorem command_of_decode {w : Word} {i : Instr} {s : State} (h : decode w = .ok i)
    (hidle : s.regs.phase = .idle) : command w s = .next (s.withRegs (accepted i s.regs)) := by
  simp only [command, h]
  rw [exec_eq_present, (decode_eq_ok_iff.mp h).2, present_accepted (CoreRegs.busy_eq_false.mpr hidle)]

/-- Every command but `NOP` leaves its mark on an idle CORE with `DONE = 0`: a compound command makes it
busy, any other sets `DONE` (R199, R200). -/
theorem accepted_ne_self {i : Instr} {c : CoreRegs} (hnop : i ≠ .nop) (hidle : c.phase = .idle)
    (hdone : c.done = false) : accepted i c ≠ c := by
  intro heq
  have hphase : (accepted i c).phase = .idle := by rw [heq, hidle]
  have hflag : (accepted i c).done = false := by rw [heq, hdone]
  by_cases hcompound : i = .seEncrypt ∨ i = .bsEncrypt
  · rcases hcompound with rfl | rfl <;> cases hphase
  · rw [accepted_done, if_neg hnop] at hflag
    exact of_decide_eq_false hflag (not_or.mp hcompound)

/-- An opcode has no legal word exactly when R93 does not list it. -/
theorem all_illegal_eq (o : Nat) : ((List.range 32).all fun r =>
      !legal (encodeWord (BitVec.ofNat 8 o) (BitVec.ofNat 5 r))) =
    decide (BitVec.ofNat 8 o ∉ roundOpcodes ++ plainOpcodes) := by
  rw [Bool.eq_iff_iff]
  simp only [List.all_eq_true, Bool.not_eq_true', ← Bool.not_eq_true, legal_encodeWord_iff,
    decide_eq_true_eq, List.mem_append, not_or]
  constructor
  · intro h
    obtain ⟨hround, -⟩ := h 1 (by decide)
    obtain ⟨-, hplain⟩ := h 0 (by decide)
    exact ⟨fun hmem => hround ⟨hmem, by decide⟩, fun hmem => hplain ⟨hmem, rfl⟩⟩
  · rintro ⟨hround, hplain⟩ r -
    exact ⟨fun hmem => hround hmem.1, fun hmem => hplain hmem.1⟩

/-- 242 of the 256 opcode values are not in R93 (R95). -/
theorem unlisted_opcodes_length : ((List.range 256).filter fun o =>
    decide (BitVec.ofNat 8 o ∉ roundOpcodes ++ plainOpcodes)).length = 242 := by
  decide +kernel

end Sys2Proof.Machine

open Sys2Proof Sys2Proof.Machine

/-- Settles O8: legality by fields is what the decoder decides, and an accepted command other than `NOP`
changes the CORE of reset. -/
theorem decoderAcceptsExactlyTheLegalWords : Obligations.DecoderAcceptsExactlyTheLegalWords := by
  refine ⟨fun w => ⟨legal_iff_opcodes, legal_iff_decode, fun i hi => ?_, fun s _ hw => ?_⟩, ?_,
    fun w hw hne => ?_⟩
  · obtain ⟨rfl, hwf⟩ := decode_eq_ok_iff.mp hi
    exact ⟨hwf, rfl⟩
  · exact command_of_illegal hw s
  · simp only [all_illegal_eq]
    exact unlisted_opcodes_length
  · obtain ⟨i, hi⟩ := legal_iff_decode.mp hw
    have hnop : i ≠ .nop := fun h => hne ((eq_nop_iff_of_decode hi).mp h)
    refine ⟨State.reset, rfl, fun hsame => ?_⟩
    rw [command_of_decode hi rfl] at hsame
    exact accepted_ne_self hnop rfl rfl (congrArg State.regs (Host.Outcome.next.inj hsame))

end LegalWords

/-! ## O9: the legal words counted, and the rows of the opcode table (R96) -/

section LegalWordCount

namespace Sys2Proof

/-- The words of the commands without an operand. -/
def plainWords : List Word := plainOpcodes.map fun opc => encodeWord opc 0

/-- The words of the commands with an operand, `r` in 1..31. -/
def roundWords : List Word := (roundOpcodes ×ˢ roundIndices).map fun x => encodeWord x.1 x.2

theorem encodeWord_eq_iff {opc : BitVec 8} {r : Round} {w : Word} :
    encodeWord opc r = w ↔ zOf w = 0 ∧ opc = opcOf w ∧ r = rOf w := by
  constructor
  · rintro rfl
    simp
  · rintro ⟨hz, rfl, rfl⟩
    exact encodeWord_of_zOf_eq_zero hz

theorem mem_roundIndices {r : Round} : r ∈ roundIndices ↔ r ≠ 0 := by revert r; decide

theorem mem_plainWords {w : Word} :
    w ∈ plainWords ↔ zOf w = 0 ∧ opcOf w ∈ plainOpcodes ∧ rOf w = 0 := by
  simp only [plainWords, List.mem_map, encodeWord_eq_iff]
  constructor
  · rintro ⟨opc, hopc, hz, rfl, hr⟩
    exact ⟨hz, hopc, hr.symm⟩
  · rintro ⟨hz, hopc, hr⟩
    exact ⟨_, hopc, hz, rfl, hr.symm⟩

theorem mem_roundWords {w : Word} :
    w ∈ roundWords ↔ zOf w = 0 ∧ opcOf w ∈ roundOpcodes ∧ rOf w ≠ 0 := by
  simp only [roundWords, List.mem_map, Prod.exists, List.mem_product, mem_roundIndices, encodeWord_eq_iff]
  constructor
  · rintro ⟨opc, r, ⟨hopc, hr⟩, hz, rfl, rfl⟩
    exact ⟨hz, hopc, hr⟩
  · rintro ⟨hz, hopc, hr⟩
    exact ⟨_, _, ⟨hopc, hr⟩, hz, rfl, rfl⟩

theorem plainWords_nodup : plainWords.Nodup := by
  refine List.Nodup.map (fun a b hab => ?_) (by decide)
  simpa using congrArg opcOf hab

theorem roundWords_nodup : roundWords.Nodup := by
  refine List.Nodup.map (fun a b hab => Prod.ext ?_ ?_) (List.Nodup.product (by decide) (by decide))
  · simpa using congrArg opcOf hab
  · simpa using congrArg rOf hab

theorem plainWords_length : plainWords.length = 11 := rfl

theorem roundWords_length : roundWords.length = 93 := by
  simp [roundWords, roundOpcodes, roundIndices]

theorem legalWords_nodup : (plainWords ++ roundWords).Nodup := by
  refine List.Nodup.append plainWords_nodup roundWords_nodup fun w hplain hround => ?_
  exact (mem_roundWords.mp hround).2.2 (mem_plainWords.mp hplain).2.2

theorem mem_legalWords {w : Word} : w ∈ plainWords ++ roundWords ↔ legal w = true := by
  rw [List.mem_append, mem_plainWords, mem_roundWords, legal_iff_opcodes, ← and_or_left, or_comm]

theorem legalWords_filter_zero :
    ((plainWords ++ roundWords).filter fun w => rOf w == 0) = plainWords := by
  have hplain : (plainWords.filter fun w => rOf w == 0) = plainWords :=
    List.filter_eq_self.mpr fun w hw => beq_iff_eq.mpr (mem_plainWords.mp hw).2.2
  have hround : (roundWords.filter fun w => rOf w == 0) = [] :=
    List.filter_eq_nil_iff.mpr fun w hw h => (mem_roundWords.mp hw).2.2 (beq_iff_eq.mp h)
  rw [List.filter_append, hplain, hround, List.append_nil]

theorem legalWords_filter_nonzero :
    ((plainWords ++ roundWords).filter fun w => rOf w != 0) = roundWords := by
  have hplain : (plainWords.filter fun w => rOf w != 0) = [] :=
    List.filter_eq_nil_iff.mpr fun w hw h => bne_iff_ne.mp h (mem_plainWords.mp hw).2.2
  have hround : (roundWords.filter fun w => rOf w != 0) = roundWords :=
    List.filter_eq_self.mpr fun w hw => bne_iff_ne.mpr (mem_roundWords.mp hw).2.2
  rw [List.filter_append, hplain, hround, List.nil_append]

/-- The mask of an operand row keeps `OPC` and `Z` and clears `R`. -/
theorem and_roundMask_eq_iff {w p : Word} : w &&& 0xFFFFE0FF = p ↔
    opcOf w = opcOf p ∧ rOf p = 0 ∧ zOf w = zOf p := by
  have hopc : opcOf (w &&& 0xFFFFE0FF) = opcOf w := by
    rw [opcOf, BitVec.extractLsb'_and]
    exact BitVec.and_allOnes
  have hr : rOf (w &&& 0xFFFFE0FF) = 0 := by
    rw [rOf, BitVec.extractLsb'_and]
    exact BitVec.and_zero
  have hz : zOf (w &&& 0xFFFFE0FF) = zOf w := by
    rw [zOf, BitVec.extractLsb'_and]
    exact BitVec.and_allOnes
  constructor
  · rintro rfl
    exact ⟨hopc.symm, hr, hz.symm⟩
  · rintro ⟨hopc', hr', hz'⟩
    exact eq_of_fields_eq (hopc.trans hopc') (hr.trans hr'.symm) (hz.trans hz')

/-- What the fourteen rows have in common: a pattern is a bare opcode, and the mask leaves out the operand
field where the row takes an operand, and nothing else (R96). -/
theorem opcodeTable_rows : ∀ row ∈ opcodeTable, zOf row.pattern = 0 ∧ rOf row.pattern = 0 ∧
    row.mask = if row.takesRound then 0xFFFFE0FF else 0xFFFFFFFF := by
  decide

/-- A word belongs to a row when its opcode is the row's, `Z = 0`, and the operand is as the row wants it. -/
theorem covers_iff {row : OpcodeRow} (hrow : row ∈ opcodeTable) {w : Word} : row.covers w = true ↔
    zOf w = 0 ∧ opcOf w = opcOf row.pattern ∧ (row.takesRound = true ↔ rOf w ≠ 0) := by
  obtain ⟨hz, hr, hmask⟩ := opcodeTable_rows row hrow
  rw [OpcodeRow.covers, Bool.and_eq_true, beq_iff_eq, hmask]
  cases row.takesRound with
  | true =>
    rw [if_pos rfl, and_roundMask_eq_iff, hz]
    simp [hr, and_assoc, and_comm, and_left_comm]
  | false =>
    have hall : w &&& 0xFFFFFFFF = w := BitVec.and_allOnes
    have hpattern : encodeWord (opcOf row.pattern) 0 = row.pattern :=
      encodeWord_eq_iff.mpr ⟨hz, rfl, hr.symm⟩
    rw [if_neg Bool.false_ne_true, hall, ← hpattern, eq_comm, encodeWord_eq_iff]
    simp [eq_comm]

/-- The operand rows have the operand opcodes, and the others the others. -/
theorem opcodeTable_patterns (takes : Bool) :
    ((opcodeTable.filter fun row => row.takesRound == takes).map fun row => opcOf row.pattern) =
      if takes then roundOpcodes else plainOpcodes := by
  cases takes <;> rfl

theorem exists_row_iff (takes : Bool) {opc : BitVec 8} :
    (∃ row ∈ opcodeTable, row.takesRound = takes ∧ opcOf row.pattern = opc) ↔
      opc ∈ if takes then roundOpcodes else plainOpcodes := by
  simp [← opcodeTable_patterns takes, and_assoc]

/-- The table covers exactly the legal words (R96). -/
theorem legal_iff_covered {w : Word} : legal w = true ↔ ∃ row ∈ opcodeTable, row.covers w = true := by
  rw [legal_iff_opcodes]
  constructor
  · rintro ⟨hz, ⟨hopc, hr⟩ | ⟨hopc, hr⟩⟩
    · obtain ⟨row, hrow, htakes, hpattern⟩ := (exists_row_iff true).mpr hopc
      exact ⟨row, hrow, (covers_iff hrow).mpr ⟨hz, hpattern.symm, iff_of_true htakes hr⟩⟩
    · obtain ⟨row, hrow, htakes, hpattern⟩ := (exists_row_iff false).mpr hopc
      exact ⟨row, hrow, (covers_iff hrow).mpr ⟨hz, hpattern.symm, by simp [htakes, hr]⟩⟩
  · rintro ⟨row, hrow, hcovers⟩
    obtain ⟨hz, hopc, htakes⟩ := (covers_iff hrow).mp hcovers
    by_cases hr : rOf w = 0
    · have hplain : row.takesRound = false := by simpa [hr] using htakes
      exact ⟨hz, .inr ⟨(exists_row_iff false).mp ⟨row, hrow, hplain, hopc.symm⟩, hr⟩⟩
    · exact ⟨hz, .inl ⟨(exists_row_iff true).mp ⟨row, hrow, htakes.mpr hr, hopc.symm⟩, hr⟩⟩

/-- No word stands in two rows: the rows' opcodes differ. -/
theorem row_eq_of_covers {w : Word} {a b : OpcodeRow} (ha : a ∈ opcodeTable) (hb : b ∈ opcodeTable)
    (hwa : a.covers w = true) (hwb : b.covers w = true) : a = b := by
  have hdistinct : (opcodeTable.map fun row => opcOf row.pattern).Nodup := by decide
  obtain ⟨_, hopca, _⟩ := (covers_iff ha).mp hwa
  obtain ⟨_, hopcb, _⟩ := (covers_iff hb).mp hwb
  exact List.inj_on_of_nodup_map hdistinct ha hb (hopca.symm.trans hopcb)

end Sys2Proof

open Sys2Proof

/-- Settles O9: the legal words are listed by opcode and operand, and a row of the table is one opcode. -/
theorem legalWordsCounted : Obligations.LegalWordsCounted := by
  refine ⟨⟨plainWords ++ roundWords, legalWords_nodup, fun w => mem_legalWords, ?_, ?_, ?_⟩, rfl,
    fun w => legal_iff_covered, fun w a b ha hb => row_eq_of_covers ha hb, fun row hrow htakes => ?_⟩
  · rw [List.length_append, plainWords_length, roundWords_length]
  · exact (congrArg List.length legalWords_filter_zero).trans plainWords_length
  · exact (congrArg List.length legalWords_filter_nonzero).trans roundWords_length
  · obtain ⟨_, _, hmask⟩ := opcodeTable_rows row hrow
    rw [hmask, if_pos htakes]

end LegalWordCount

/-! ## O10: the encoder (R99) -/

section Encoder

namespace Sys2Proof

/-- Which operands make a legal word of a command's opcode (R94, R99). -/
theorem legal_encodeWord_opc_iff {i : Instr} {r : Round} :
    legal (encodeWord i.opc r) = true ↔ if i.takesRound then r ≠ 0 else r = 0 := by
  rw [legal_encodeWord_iff, opc_mem_roundOpcodes, opc_mem_plainOpcodes]
  cases i.takesRound <;> simp

theorem round_ne_zero_iff {r : Round} : r ≠ 0 ↔ 1 ≤ r.toNat ∧ r.toNat ≤ 31 := by
  bv_omega

end Sys2Proof

open Sys2Proof

/-- Settles O10: the fields of the encoded word, and `Legal` over them. -/
theorem encodeBuildsTheWord : Obligations.EncodeBuildsTheWord := by
  refine ⟨fun i r => ⟨rfl, opcOf_encodeWord _ _, rOf_encodeWord _ _, zOf_encodeWord _ _, ?_⟩,
    fun i => rfl, rfl, rfl, rfl, rfl, rfl⟩
  rw [legal_encodeWord_opc_iff, round_ne_zero_iff]

end Encoder

/-! ## O11: the disassembler (R100) -/

section Disassembler

namespace Sys2Proof

theorem disassemble_encode {i : Instr} (h : i.wellFormed = true) : disassemble (encode i) =
    if i.takesRound then i.mnemonic ++ " " ++ Nat.repr i.operand.toNat else i.mnemonic := by
  rw [disassemble, decode_eq_ok_iff.mpr ⟨rfl, h⟩]

theorem disassemble_of_illegal {w : Word} (h : legal w = false) :
    disassemble w = ".word 0x" ++ String.ofList (hexDigits w) := by
  obtain ⟨e, he⟩ := decode_of_illegal h
  rw [disassemble, he]

end Sys2Proof

open Sys2Proof

/-- Settles O11: the disassembler on the words that decode and on those that do not. -/
theorem disassemblyOfEveryWord : Obligations.DisassemblyOfEveryWord := by
  refine ⟨⟨rfl, rfl, rfl, rfl, fun r => rfl, rfl, fun r => rfl, rfl, rfl, rfl, rfl, rfl, fun r => rfl,
    rfl⟩, by decide, fun i hwf htakes => ?_, fun i hwf htakes => ?_, fun w hw => disassemble_of_illegal hw⟩
  · rw [disassemble_encode hwf, htakes, if_neg Bool.false_ne_true]
  · rw [disassemble_encode hwf, if_pos htakes]

end Disassembler

/-! ## O6: words written out from the encoding (R91, R93) -/

section TableWords

/-- Settles O6: each word is the encoding of a well-formed command, or breaks the one condition of R95 that
the decoder names. -/
theorem tableWordsDecode : Obligations.TableWordsDecode := by
  unfold Obligations.TableWordsDecode
  simp only [Sys2Proof.decode_eq_ok_iff]
  decide

end TableWords

/-! ## The layers of the scalar round: S-box, substitution, permutation, round key (R110 to R116) -/

section ScalarLayers

namespace Sys2Proof.Machine

theorem sbox_injective : Function.Injective sbox := by
  unfold Function.Injective
  decide

theorem nibble_subLayer {n : Nat} (hn : n < 16) (s : Block) :
    nibble n (subLayer s) = sbox (nibble n s) := by
  apply BitVec.eq_of_getLsbD_eq
  intro t ht
  have hbit : 4 * n + t < 64 := by omega
  have hdiv : (4 * n + t) / 4 = n := by omega
  have hmod : (4 * n + t) % 4 = t := by omega
  simp [nibble, subLayer, ht, hbit, hdiv, hmod]

/-- A block is its sixteen nibbles (R111). -/
theorem eq_of_nibbles_eq {a b : Block} (h : ∀ n, n < 16 → nibble n a = nibble n b) : a = b := by
  apply BitVec.eq_of_getLsbD_eq
  intro i hi
  have hmod : i % 4 < 4 := Nat.mod_lt _ (by decide)
  have hbit : ∀ s : Block, (nibble (i / 4) s).getLsbD (i % 4) = s.getLsbD i := fun s => by
    rw [nibble, BitVec.getLsbD_extractLsb', Nat.div_add_mod]
    simp [hmod]
  rw [← hbit a, ← hbit b, h (i / 4) (by omega)]

theorem subLayer_injective : Function.Injective subLayer := by
  intro a b hab
  refine eq_of_nibbles_eq fun n hn => sbox_injective ?_
  rw [← nibble_subLayer hn, ← nibble_subLayer hn, hab]

theorem getLsbD_pLayer_permIndex {b : Nat} (hb : b < 64) (s : Block) :
    (pLayer s).getLsbD (permIndex b) = s.getLsbD b := by
  simp [pLayer, permIndex_lt hb, permSource_permIndex hb]

theorem permIndex_eq_self_iff {b : Nat} (hb : b < 64) : permIndex b = b ↔ b ∈ [0, 21, 42, 63] := by
  simp only [permIndex, List.mem_cons, List.not_mem_nil, or_false]
  omega

theorem getLsbD_roundKey (k : Key) {i : Nat} (hi : i < 64) :
    (roundKey k).getLsbD i = k.getLsbD (16 + i) := by
  simp [roundKey, hi]

/-- Byte `m` of the round key is key byte `m + 2` (R115). -/
theorem blockByte_roundKey (k : Key) {m : Nat} (hm : m < 8) :
    blockByte m (roundKey k) = keyByte (m + 2) k := by
  have hbyte : 16 + 8 * m = 8 * (m + 2) := by omega
  rw [blockByte, roundKey, extractLsb'_extractLsb'_of_add_le k (by omega), hbyte, keyByte]

theorem getLsbD_ark (s : Block) (k : Key) {i : Nat} (hi : i < 64) :
    (ark s k).getLsbD i = (s.getLsbD i ^^ k.getLsbD (16 + i)) := by
  rw [ark, BitVec.getLsbD_xor, getLsbD_roundKey k hi]

theorem ark_ark (s : Block) (k : Key) : ark (ark s k) k = s := by
  rw [ark, ark, BitVec.xor_assoc, BitVec.xor_self, BitVec.xor_zero]

end Sys2Proof.Machine

open Sys2Proof.Machine

/-- Settles O12: the table entry by entry; no entry stands in it twice. -/
theorem sboxTableIsABijection : Obligations.SboxTableIsABijection :=
  ⟨rfl, rfl, rfl, rfl, rfl, rfl, rfl, rfl, rfl, rfl, rfl, rfl, rfl, rfl, rfl, rfl,
    sbox_injective.bijective_of_finite⟩

/-- Settles O13: the substitution layer nibble by nibble, and its values at three blocks. -/
theorem subLayerReplacesEveryNibble : Obligations.SubLayerReplacesEveryNibble :=
  ⟨fun s _ hn => nibble_subLayer hn s, by decide +kernel, by decide +kernel, by decide +kernel⟩

/-- Settles O14: `permSource` inverts `permIndex`, and the layer moves the bits by it. -/
theorem permutationMovesEveryBit : Obligations.PermutationMovesEveryBit := by
  refine ⟨fun b hb => ⟨rfl, permIndex_lt hb⟩,
    fun q hq => ⟨permSource q, permSource_lt hq, permIndex_permSource hq, fun b hb hbq => ?_⟩,
    fun b hb => permIndex_eq_self_iff hb, by decide, fun s b hb => getLsbD_pLayer_permIndex hb s,
    by decide +kernel, by decide +kernel, by decide +kernel, by decide +kernel⟩
  rw [← hbq, permSource_permIndex hb]

/-- Settles O15: the round key by bits and by bytes, and the exclusive or with it. -/
theorem roundKeyIsTheHighBits : Obligations.RoundKeyIsTheHighBits :=
  ⟨fun k _ hi => getLsbD_roundKey k hi, fun k _ hm => blockByte_roundKey k hm,
    fun _ _ h => h, fun s k _ hi => getLsbD_ark s k hi,
    by decide +kernel, by decide +kernel, by decide +kernel⟩

end ScalarLayers

/-! ## O19: the encryption as a fold over the round indices (R123, R124) -/

section RoundLoop

namespace Sys2Proof.Machine

/-- One turn of R123's loop: a round with the present key, and the key's advance. -/
def roundStep (x : Block × Key) (r : Round) : Block × Key := (sRound x.1 x.2, ksAdvance x.2 r)

/-- The round indices from 1 to `n`. -/
def roundsUpTo (n : Nat) : List Round := (List.range n).map fun k => BitVec.ofNat 5 (k + 1)

/-- The loop's block and key after `n` rounds (R123, R124). -/
theorem foldl_roundStep_roundsUpTo (p : Block) (k : Key) (n : Nat) :
    (roundsUpTo n).foldl roundStep (p, k) = (blockAfter p k n, keyAfter k n) := by
  induction n with
  | zero => rfl
  | succ n ih =>
    rw [roundsUpTo, List.range_succ, List.map_append, List.foldl_append, ← roundsUpTo, ih]
    rfl

theorem roundIndices_eq_roundsUpTo : roundIndices = roundsUpTo 31 := rfl

/-- `PRESENT80` is the loop over all round indices and one more key mix (R123). -/
theorem present80_eq_foldl (p : Block) (k : Key) : present80 p k =
    let x := roundIndices.foldl roundStep (p, k)
    (ark x.1 x.2, x.2) := by
  rw [roundIndices_eq_roundsUpTo, foldl_roundStep_roundsUpTo]
  rfl

theorem roundIndices_getD {n : Nat} (hn : n < 31) :
    roundIndices.getD n 0 = BitVec.ofNat 5 (n + 1) := by
  simp [roundIndices, hn]

/-- The source's known answer (R123). -/
theorem present80_zero : present80 0 0 = (0x5579C1387B228445, 0x6DAB31744F41D7008759) := by
  decide +kernel

end Sys2Proof.Machine

open Sys2Proof Sys2Proof.Machine

/-- Settles O19: the loop by induction on its rounds; the key sequence and the known answer. -/
theorem encryptionIsTheRoundLoop : Obligations.EncryptionIsTheRoundLoop := by
  refine ⟨present80_eq_foldl, fun s k => rfl, fun k n hn => ?_,
    fun p k => ⟨rfl, rfl, fun n _ => rfl, rfl⟩, present80_zero⟩
  rw [roundIndices_getD hn, keyAfter]

end RoundLoop

/-! ## A command presented to the CORE: accepted while idle, refused with `ERR_BUSY` while busy, and its
opcode's other words refused with `ERR_CMD` (R95, R196) -/

section PresentedCommands

namespace Sys2Proof.Machine

theorem exec_of_idle {i : Instr} {s : State} (hwf : i.wellFormed = true)
    (hidle : s.regs.phase = .idle) : exec i s = .next (s.withRegs (accepted i s.regs)) := by
  rw [exec_eq_present, hwf, present_accepted (CoreRegs.busy_eq_false.mpr hidle)]

theorem exec_of_not_wellFormed {i : Instr} {s : State} (hwf : i.wellFormed = false)
    (hidle : s.regs.phase = .idle) : exec i s = .next (s.withRegs s.regs.takeErrCmd) := by
  rw [exec_eq_present, hwf, present_illegal (CoreRegs.busy_eq_false.mpr hidle)]

theorem exec_of_busy {s : State} (hbusy : s.regs.phase ≠ .idle) (i : Instr) :
    exec i s = .next (s.withRegs s.regs.takeErrBusy) := by
  rw [exec_eq_present, present_busy (CoreRegs.busy_eq_true.mpr hbusy)]

theorem execAll_cons {i : Instr} {s t : State} (h : exec i s = .next t) (is : List Instr) :
    execAll (i :: is) s = execAll is t := by
  rw [execAll, h]

/-- `Legal` for the words of a command's opcode: `Z = 0`, and `R` as the command takes it (R94). -/
theorem legal_iff_of_opcode {i : Instr} {w : Word} (hopc : opcOf w = i.opc) : legal w = true ↔
    zOf w = 0 ∧ if i.takesRound then rOf w ≠ 0 else rOf w = 0 := by
  rw [legal_iff_opcodes, hopc, opc_mem_roundOpcodes, opc_mem_plainOpcodes]
  cases i.takesRound <;> simp

/-- A command without operand has one word: any bit of 31:8 makes another (R91, R95). -/
theorem command_of_plain_opcode (i : Instr) (htakes : i.takesRound = false) {w : Word}
    (hopc : w.extractLsb' 0 8 = i.opc) (hrest : w.extractLsb' 8 24 ≠ 0) (s : State) :
    command w s = .next (s.withRegs s.regs.takeErrCmd) := by
  refine command_of_illegal (Bool.eq_false_iff.mpr fun hlegal => hrest ?_) s
  obtain ⟨hz, hr⟩ := (legal_iff_of_opcode hopc).mp hlegal
  rw [htakes, if_neg Bool.false_ne_true] at hr
  have hjoin : zOf w ++ rOf w = w.extractLsb' 8 24 :=
    BitVec.extractLsb'_append_extractLsb'_eq_extractLsb' (by rfl)
  rw [← hjoin, hz, hr]
  rfl

/-- A command with a round operand has no word with operand 0 or a bit of 31:13 set (R94, R95). -/
theorem command_of_round_opcode (i : Instr) (htakes : i.takesRound = true) {w : Word}
    (hopc : w.extractLsb' 0 8 = i.opc) (hbad : w.extractLsb' 8 5 = 0 ∨ w.extractLsb' 13 19 ≠ 0)
    (s : State) : command w s = .next (s.withRegs s.regs.takeErrCmd) := by
  refine command_of_illegal (Bool.eq_false_iff.mpr fun hlegal => ?_) s
  obtain ⟨hz, hr⟩ := (legal_iff_of_opcode hopc).mp hlegal
  rw [if_pos htakes] at hr
  exact hbad.elim hr (absurd hz)

end Sys2Proof.Machine

end PresentedCommands

/-! ## O26, O27, O28: the primitive layer commands (R118, R119, R120) -/

section LayerCommands

namespace Sys2Proof.Machine

/-- A second `SE_ARK` takes the key mix of the first away (R118). -/
theorem execAll_seArk_seArk {s : State} (hidle : s.regs.phase = .idle) :
    execAll [.seArk, .seArk] s = .next (s.withRegs { s.regs with done := true }) := by
  rw [execAll_cons (exec_of_idle rfl hidle),
    execAll_cons (exec_of_idle rfl (accepted_phase_idle hidle (by simp) (by simp)))]
  simp only [execAll, accepted_seArk, State.withRegs, ark_ark]

/-- The four fixed points of `P` are fixed bits of the layer (R113). -/
theorem getLsbD_pLayer_fixed {b : Nat} (hb : b ∈ [0, 21, 42, 63]) (v : Block) :
    (pLayer v).getLsbD b = v.getLsbD b := by
  have hlt : b < 64 := by
    simp only [List.mem_cons, List.not_mem_nil, or_false] at hb
    omega
  simpa only [(permIndex_eq_self_iff hlt).mpr hb] using getLsbD_pLayer_permIndex hlt v

/-- `P` only changes the order of the bit positions (R113). -/
theorem map_permIndex_perm : ((List.range 64).map permIndex).Perm (List.range 64) := by
  decide +kernel

/-- The permutation layer keeps the number of one bits (R120): the ones of `PLayer(v)`, counted over the
positions `P(b)`, are the ones of `v`, counted over the positions `b`. -/
theorem onesCount_pLayer (v : Block) :
    ((List.range 64).filter fun b => (pLayer v).getLsbD b).length =
      ((List.range 64).filter fun b => v.getLsbD b).length := by
  simp only [← List.countP_eq_length_filter]
  rw [← map_permIndex_perm.countP_eq, List.countP_map]
  exact List.countP_congr fun b hb => by
    rw [Function.comp_apply, getLsbD_pLayer_permIndex (List.mem_range.mp hb)]

end Sys2Proof.Machine

open Sys2Proof Sys2Proof.Machine

/-- Settles O26: the effect of `SE_ARK`, its refusals, and the exclusive or that undoes itself. -/
theorem seArkMixesTheRoundKey : Obligations.SeArkMixesTheRoundKey := by
  refine ⟨rfl, decode_eq_ok_iff.mpr ⟨rfl, rfl⟩, fun s hidle => exec_of_idle rfl hidle,
    fun s hbusy => exec_of_busy hbusy _,
    fun s w _ hopc hrest => command_of_plain_opcode .seArk rfl hopc hrest s,
    fun s k k' h => congrArg (s ^^^ ·) h,
    fun s hidle => ⟨_, execAll_seArk_seArk hidle, rfl, rfl⟩,
    fun s hidle hstate hkey => ⟨_, exec_of_idle rfl hidle, ?_⟩⟩
  change ark s.regs.state s.regs.key = _
  rw [hstate, hkey]
  decide +kernel

/-- Settles O27: the effect of `SE_SBOX`, its refusals, and the layer's bijectivity. -/
theorem seSboxSubstitutesTheState : Obligations.SeSboxSubstitutesTheState := by
  refine ⟨rfl, decode_eq_ok_iff.mpr ⟨rfl, rfl⟩, fun s hidle => exec_of_idle rfl hidle,
    fun s hbusy => exec_of_busy hbusy _,
    fun s w _ hopc hrest => command_of_plain_opcode .seSbox rfl hopc hrest s,
    fun v n hn => nibble_subLayer hn v, by decide +kernel, subLayer_injective.bijective_of_finite,
    fun s hidle hstate => ⟨_, exec_of_idle rfl hidle, ?_⟩⟩
  change subLayer s.regs.state = _
  rw [hstate]
  decide +kernel

/-- Settles O28: the effect of `SE_PERM`, its refusals, and what the permutation keeps. -/
theorem sePermPermutesTheState : Obligations.SePermPermutesTheState := by
  refine ⟨rfl, decode_eq_ok_iff.mpr ⟨rfl, rfl⟩, fun s hidle => exec_of_idle rfl hidle,
    fun s hbusy => exec_of_busy hbusy _,
    fun s w _ hopc hrest => command_of_plain_opcode .sePerm rfl hopc hrest s,
    fun v b hb => getLsbD_pLayer_fixed hb v, by decide +kernel, by decide +kernel, onesCount_pLayer,
    fun s hidle hstate => ⟨_, exec_of_idle rfl hidle, ?_⟩⟩
  change pLayer s.regs.state = _
  rw [hstate]
  decide +kernel

end LayerCommands

/-! ## O29: the single round (R121) -/

section RoundCommand

namespace Sys2Proof.Machine

theorem inDomain_iff {r : Round} : r.inDomain = true ↔ r ≠ 0 := bne_iff_ne

/-- `SE_ROUND` over any list of legal round indices, then `SE_ARK`: the fold over the indices and one more
key mix (R121). -/
theorem execAll_seRounds_seArk {rs : List Round} (hrs : ∀ r ∈ rs, r ≠ 0) {s : State}
    (hidle : s.regs.phase = .idle) {x : Block × Key}
    (hx : rs.foldl roundStep (s.regs.state, s.regs.key) = x) :
    execAll (rs.map .seRound ++ [.seArk]) s =
      .next (s.withRegs { s.regs with state := ark x.1 x.2, key := x.2, done := true }) := by
  induction rs generalizing s with
  | nil =>
    rw [List.map_nil, List.nil_append, execAll_cons (exec_of_idle rfl hidle), ← hx]
    rfl
  | cons r rs ih =>
    rw [List.forall_mem_cons] at hrs
    have hwf : (Instr.seRound r).wellFormed = true := inDomain_iff.mpr hrs.1
    rw [List.map_cons, List.cons_append, execAll_cons (exec_of_idle hwf hidle)]
    exact ih hrs.2 hidle hx

end Sys2Proof.Machine

open Sys2Proof Sys2Proof.Machine

/-- Settles O29: the effect of `SE_ROUND` and its refusals; the rounds in order and `SE_ARK` are the fold
that `PRESENT80` is, and so is the run of `SE_ENCRYPT`. -/
theorem seRoundRunsOneScalarRound : Obligations.SeRoundRunsOneScalarRound := by
  refine ⟨fun r => BitVec.or_comm _ _, fun s r hidle hr => exec_of_idle (inDomain_iff.mpr hr) hidle,
    fun s hidle => exec_of_not_wellFormed rfl hidle, fun s r hbusy => exec_of_busy hbusy _,
    fun s w _ hopc hbad => command_of_round_opcode (.seRound 0) rfl hopc hbad s,
    fun s hidle => ⟨?_, ?_⟩,
    fun s hidle hstate hkey => ⟨_, exec_of_idle rfl hidle, ?_⟩⟩
  · rw [execAll_seRounds_seArk (fun r => mem_roundIndices.mp) hidle rfl, present80_eq_foldl]
    rfl
  · refine ⟨_, exec_of_idle rfl hidle, ?_⟩
    rw [State.withRegs_regs, CoreRegs.engineSteps_seEncrypt rfl rfl]
    exact ⟨rfl, rfl⟩
  · change sRound s.regs.state s.regs.key = _ ∧ ksAdvance s.regs.key 1 = _
    rw [hstate, hkey]
    decide +kernel

end RoundCommand

/-! ## O30: the whole scalar encryption (R122) -/

section EncryptCommand

namespace Sys2Proof.Machine

/-- While `SE_ENCRYPT` runs: 31 steps in `SE_ROUND`, one in `SE_FINAL`, `DONE` untouched (R200, R208). -/
theorem CoreRegs.engineSteps_seEncrypt_running {c : CoreRegs} (hphase : c.phase = .seRound)
    (hrnd : c.rnd = 1) {n : Nat} (hn : n < 32) :
    (c.engineSteps n).phase = (if n < 31 then .seRound else .seFinal) ∧
      (c.engineSteps n).done = c.done := by
  by_cases hround : n < 31
  · rw [engineSteps_seRound hphase hrnd (by omega), if_pos hround]
    exact ⟨rfl, rfl⟩
  · obtain rfl : n = 31 := by omega
    rw [engineSteps_seRounds hphase hrnd]
    exact ⟨rfl, rfl⟩

/-- An accepted `SE_ENCRYPT` after its 32 engine steps (R122). -/
theorem engineSteps_accepted_seEncrypt (c : CoreRegs) :
    (accepted .seEncrypt c).engineSteps 32 = completed .seEncrypt c :=
  CoreRegs.engineSteps_seEncrypt rfl rfl

end Sys2Proof.Machine

open Sys2Proof Sys2Proof.Machine

/-- Settles O30: the phases and the end of the run are those of the engine's 32 steps. -/
theorem seEncryptRunsTheScalarCipher : Obligations.SeEncryptRunsTheScalarCipher := by
  refine ⟨rfl, decode_eq_ok_iff.mpr ⟨rfl, rfl⟩, fun s hidle => exec_of_idle rfl hidle,
    fun s hbusy => exec_of_busy hbusy _,
    fun s w _ hopc hrest => command_of_plain_opcode .seEncrypt rfl hopc hrest s,
    fun s t hidle hexec => ?_, fun s hturn _ => ⟨_, step_reset hturn, rfl⟩,
    fun s t hidle hstate hkey hexec => ?_⟩
  · rw [exec_of_idle rfl hidle] at hexec
    cases hexec
    exact ⟨fun n hn => CoreRegs.engineSteps_seEncrypt_running rfl rfl hn,
      engineSteps_accepted_seEncrypt s.regs⟩
  · rw [exec_of_idle rfl hidle] at hexec
    cases hexec
    rw [State.withRegs_regs, engineSteps_accepted_seEncrypt, completed, hstate, hkey, present80_zero]
    exact ⟨rfl, rfl⟩

end EncryptCommand

/-! ## The layers of the bit-sliced round, register by register (R141 to R145) -/

section SlicedLayers

namespace Sys2Proof.Machine

theorem xor_bcast (x : Word) (b : Bool) : x ^^^ bcast b = if b then ~~~x else x := by
  cases b
  · exact BitVec.xor_zero
  · exact BitVec.xor_allOnes

theorem getLsbD_bcast (b : Bool) {j : Nat} (hj : j < 32) : (bcast b).getLsbD j = b := by
  cases b
  · exact BitVec.getLsbD_zero
  · exact BitVec.getLsbD_allOnes.trans (decide_eq_true hj)

variable (r : Slices) (k : Key)

theorem getElem_bsArk {i : Nat} (hi : i < 64) :
    (bsArk r k)[i] = r[i] ^^^ bcast (k.getLsbD (16 + i)) :=
  Vector.getElem_ofFn hi

/-- The key mix complements register `i`, or leaves it, by bit `i` of the round key (R142). -/
theorem getElem_bsArk_eq_ite {i : Nat} (hi : i < 64) :
    (bsArk r k)[i] = if (roundKey k).getLsbD i then ~~~r[i] else r[i] := by
  rw [getElem_bsArk r k hi, xor_bcast, getLsbD_roundKey k hi]

theorem getElem_bsSub {g t : Nat} (hg : g < 16) (ht : t < 4) :
    (bsSub r)[4 * g + t] = bsSbox4 r[4 * g] r[4 * g + 1] r[4 * g + 2] r[4 * g + 3] t := by
  have hdiv : (4 * g + t) / 4 = g := by omega
  have hmod : (4 * g + t) % 4 = t := by omega
  rw [bsSub, Vector.getElem_ofFn]
  simp only [hdiv, hmod]

/-- The four registers of group `g` (R144). -/
theorem bsSub_group {g : Nat} (hg : g < 16) :
    (bsSub r)[4 * g] = bsSbox4 r[4 * g] r[4 * g + 1] r[4 * g + 2] r[4 * g + 3] 0 ∧
    (bsSub r)[4 * g + 1] = bsSbox4 r[4 * g] r[4 * g + 1] r[4 * g + 2] r[4 * g + 3] 1 ∧
    (bsSub r)[4 * g + 2] = bsSbox4 r[4 * g] r[4 * g + 1] r[4 * g + 2] r[4 * g + 3] 2 ∧
    (bsSub r)[4 * g + 3] = bsSbox4 r[4 * g] r[4 * g + 1] r[4 * g + 2] r[4 * g + 3] 3 :=
  ⟨getElem_bsSub r (t := 0) hg (by decide), getElem_bsSub r hg (by decide),
    getElem_bsSub r hg (by decide), getElem_bsSub r hg (by decide)⟩

theorem getElem_bsPerm {q : Nat} (hq : q < 64) :
    (bsPerm r)[q] = r[permSource q]'(permSource_lt hq) :=
  Vector.getElem_ofFn hq

theorem getElem_bsPerm_permIndex {i : Nat} (hi : i < 64) :
    (bsPerm r)[permIndex i]'(permIndex_lt hi) = r[i] := by
  simp only [getElem_bsPerm r (permIndex_lt hi), permSource_permIndex hi]

/-- R142's example: an all-zero register shows its round-key bit in all its lanes. -/
theorem getElem_bsArk_example {r : Slices} {i : Nat} (hi : i < 64) (hr : r[i] = 0) :
    (bsArk r 0x0123456789ABCDEF0123)[i] =
      if i ∈ [0, 1, 2, 3, 5, 6, 7, 8, 10, 11, 14, 15, 16, 17, 19, 21, 23, 24, 27, 31, 32, 33, 34, 37,
        38, 40, 42, 46, 48, 49, 53, 56] then 0xFFFFFFFF else 0 := by
  rw [getElem_bsArk_eq_ite r _ hi, hr]
  clear hr
  revert i
  decide +kernel

/-- R145's example: with register `i` holding `i`, the file lists the sources of `P` in order. -/
theorem bsPerm_example {r : Slices} (hr : ∀ i (h : i < 64), r[i] = BitVec.ofNat 32 i) :
    (bsPerm r).toList.take 20 =
      [0, 4, 8, 12, 16, 20, 24, 28, 32, 36, 40, 44, 48, 52, 56, 60, 1, 5, 9, 13] := by
  have hfile : bsPerm r = Vector.ofFn fun q : Fin 64 => BitVec.ofNat 32 (permSource q) := by
    apply Vector.ext
    intro q hq
    rw [getElem_bsPerm r hq, hr _ (permSource_lt hq), Vector.getElem_ofFn]
  rw [hfile]
  decide +kernel

end Sys2Proof.Machine

open Sys2Proof.Machine

/-- Settles O20: each register of the key mix, by the broadcast and by the complement. -/
theorem slicedKeyMixBroadcastsTheKey : Obligations.SlicedKeyMixBroadcastsTheKey :=
  ⟨rfl, rfl, fun r k _ hi => ⟨getElem_bsArk r k hi, getElem_bsArk_eq_ite r k hi⟩,
    fun _ hi => getElem_bsArk_example hi (Vector.getElem_replicate hi)⟩

/-- Settles O22: the permutation register by register, and its example. -/
theorem slicedPermutationMovesRegisters : Obligations.SlicedPermutationMovesRegisters :=
  ⟨fun r _ hi _ => getElem_bsPerm_permIndex r hi, fun _ hr => bsPerm_example hr⟩

end SlicedLayers

/-! ## O21: the Boolean S-box, lane by lane (R143, R144) -/

section BooleanSbox

namespace Sys2Proof.Machine

/-- The nibble that four registers hold in lane `j`, the first of them lowest (R143). -/
def laneNibble (x0 x1 x2 x3 : Word) (j : Nat) : BitVec 4 :=
  BitVec.ofBool (x3.getLsbD j) ++ BitVec.ofBool (x2.getLsbD j) ++
    BitVec.ofBool (x1.getLsbD j) ++ BitVec.ofBool (x0.getLsbD j)

/-- The four formulas are the S-box in every lane. They act bitwise, so this is a fact about four bits. -/
theorem getLsbD_bsSbox4 (x0 x1 x2 x3 : Word) {j t : Nat} (hj : j < 32) (ht : t < 4) :
    (bsSbox4 x0 x1 x2 x3 t).getLsbD j = (sbox (laneNibble x0 x1 x2 x3 j)).getLsbD t := by
  have hones : allOnesWord.getLsbD j = true := getLsbD_bcast true hj
  unfold laneNibble
  interval_cases t
  all_goals
    simp only [bsSbox4, bsY0, bsY1, bsY2, bsY3, BitVec.getLsbD_xor, BitVec.getLsbD_and, hones]
    generalize x0.getLsbD j = b0, x1.getLsbD j = b1, x2.getLsbD j = b2, x3.getLsbD j = b3
    revert b0 b1 b2 b3
    decide

end Sys2Proof.Machine

open Sys2Proof.Machine

/-- Settles O21: the formulas, their lanes, the groups of registers, and the example. -/
theorem booleanSboxReproducesTheTable : Obligations.BooleanSboxReproducesTheTable :=
  ⟨fun _ _ _ _ => ⟨rfl, rfl, rfl, rfl⟩,
    fun x0 x1 x2 x3 _ _ hj ht => getLsbD_bsSbox4 x0 x1 x2 x3 hj ht,
    fun r _ hg => bsSub_group r hg, by decide, by decide, by decide, by decide⟩

end BooleanSbox

/-! ## O23: the bit-sliced layers, rounds and encryption in every lane (R147, R148) -/

section LaneLaws

namespace Sys2Proof.Machine

section Layers

variable (r : Slices) (k : Key)

theorem getLsbD_lane (j : Nat) {i : Nat} (hi : i < 64) : (lane r j).getLsbD i = r[i].getLsbD j := by
  simp [lane, hi]

theorem getElem_fromSliced {j : Nat} (hj : j < 32) : (fromSliced r)[j] = lane r j :=
  Vector.getElem_ofFn hj

/-- Nibble `g` of a lane stands in the group `g` of four registers (R144). -/
theorem nibble_lane (j : Nat) {g : Nat} (hg : g < 16) :
    nibble g (lane r j) = laneNibble r[4 * g] r[4 * g + 1] r[4 * g + 2] r[4 * g + 3] j := by
  apply BitVec.eq_of_getLsbD_eq
  intro t ht
  have hbit : (nibble g (lane r j)).getLsbD t = r[4 * g + t].getLsbD j := by
    rw [nibble, BitVec.getLsbD_extractLsb', decide_eq_true ht, Bool.true_and,
      getLsbD_lane r j (by omega)]
  rw [hbit, laneNibble]
  interval_cases t
  all_goals
    generalize r[4 * g].getLsbD j = b0, r[4 * g + 1].getLsbD j = b1, r[4 * g + 2].getLsbD j = b2,
      r[4 * g + 3].getLsbD j = b3
    revert b0 b1 b2 b3
    decide

theorem lane_bsPerm (j : Nat) : lane (bsPerm r) j = pLayer (lane r j) := by
  refine eq_ofBits fun q hq => ?_
  rw [getLsbD_lane _ j hq, getElem_bsPerm r hq, getLsbD_lane r j (permSource_lt hq)]

variable {j : Nat} (hj : j < 32)
include hj

theorem lane_bsArk : lane (bsArk r k) j = ark (lane r j) k := by
  apply BitVec.eq_of_getLsbD_eq
  intro i hi
  rw [getLsbD_lane _ j hi, getElem_bsArk r k hi, BitVec.getLsbD_xor, getLsbD_bcast _ hj,
    getLsbD_ark _ k hi, getLsbD_lane r j hi]

theorem lane_bsSub : lane (bsSub r) j = subLayer (lane r j) := by
  refine eq_of_nibbles_eq fun g hg => ?_
  rw [nibble_subLayer hg, nibble_lane r j hg]
  apply BitVec.eq_of_getLsbD_eq
  intro t ht
  rw [nibble, BitVec.getLsbD_extractLsb', decide_eq_true ht, Bool.true_and,
    getLsbD_lane _ j (by omega), getElem_bsSub r hg ht, getLsbD_bsSbox4 _ _ _ _ hj ht]

theorem lane_bsRound : lane (bsRound r k) j = sRound (lane r j) k := by
  rw [bsRound, lane_bsPerm, lane_bsSub _ hj, lane_bsArk r k hj, sRound]

theorem lane_slicesAfter (n : Nat) :
    lane (slicesAfter r k n) j = blockAfter (lane r j) k n := by
  induction n with
  | zero => rfl
  | succ n ih => rw [slicesAfter, lane_bsRound _ _ hj, ih, blockAfter]

/-- The central property of the bit-sliced engine (R148). -/
theorem lane_bsEncryptSlices :
    lane (bsEncryptSlices r k).1 j = (present80 (lane r j) k).1 := by
  rw [bsEncryptSlices, lane_bsArk _ _ hj, lane_slicesAfter r k hj, present80]

end Layers

/-- One turn of R147's loop: a bit-sliced round with the present key, and the key's advance. -/
def slicedStep (x : Slices × Key) (i : Round) : Slices × Key := (bsRound x.1 x.2, ksAdvance x.2 i)

/-- The loop's slice file and key after `n` rounds (R147). -/
theorem foldl_slicedStep_roundsUpTo (r : Slices) (k : Key) (n : Nat) :
    (roundsUpTo n).foldl slicedStep (r, k) = (slicesAfter r k n, keyAfter k n) := by
  induction n with
  | zero => rfl
  | succ n ih =>
    rw [roundsUpTo, List.range_succ, List.map_append, List.foldl_append, ← roundsUpTo, ih]
    rfl

/-- `BSEncrypt` is the loop over all round indices and one more key mix (R147). -/
theorem bsEncryptSlices_eq_foldl (r : Slices) (k : Key) : bsEncryptSlices r k =
    let x := roundIndices.foldl slicedStep (r, k)
    (bsArk x.1 x.2, x.2) := by
  rw [roundIndices_eq_roundsUpTo, foldl_slicedStep_roundsUpTo]
  rfl

end Sys2Proof.Machine

open Sys2Proof Sys2Proof.Machine

/-- Settles O23: layer by layer, then by induction on the rounds. -/
theorem lanesComputeTheScalarCipher : Obligations.LanesComputeTheScalarCipher :=
  ⟨fun r k => ⟨bsEncryptSlices_eq_foldl r k, fun _ => rfl⟩,
    fun r k j hj => ⟨fun _ hi => getLsbD_lane r j hi, (getElem_fromSliced r hj).symm,
      lane_bsArk r k hj, lane_bsSub r hj, lane_bsPerm r j, lane_bsRound r k hj,
      lane_bsEncryptSlices r k hj⟩⟩

end LaneLaws

/-! ## O34, O35, O36: the primitive bit-sliced commands (R150, R151, R152) -/

section SlicedCommands

namespace Sys2Proof.Machine

/-- `exec_of_idle` with the command's effect written out by its equation. -/
theorem exec_of_accepted_eq {i : Instr} {s : State} {c : CoreRegs} (h : accepted i s.regs = c)
    (hwf : i.wellFormed = true) (hidle : s.regs.phase = .idle) : exec i s = .next (s.withRegs c) := by
  rw [exec_of_idle hwf hidle, h]

theorem bsArk_congr {k k' : Key} (r : Slices) (h : roundKey k = roundKey k') :
    bsArk r k = bsArk r k' := by
  apply Vector.ext
  intro i hi
  rw [getElem_bsArk_eq_ite r k hi, getElem_bsArk_eq_ite r k' hi, h]

/-- The four fixed points of `P` are fixed registers (R152). -/
theorem getElem_bsPerm_fixed (r : Slices) {i : Nat} (hi : i < 64) (hfix : permIndex i = i) :
    (bsPerm r)[i] = r[i] := by
  simpa only [hfix] using getElem_bsPerm_permIndex r hi

theorem bsPerm_of_equal_registers {r : Slices} {v : Word} (hr : ∀ i (h : i < 64), r[i] = v) :
    bsPerm r = r := by
  apply Vector.ext
  intro q hq
  rw [getElem_bsPerm r hq, hr _ (permSource_lt hq), hr q hq]

/-- A file of equal registers, substituted: in every group the four formulas of the one word. -/
theorem bsSub_group_of_equal_registers {r : Slices} {v : Word} (hr : ∀ i (h : i < 64), r[i] = v)
    {g : Nat} (hg : g < 16) :
    (bsSub r)[4 * g] = bsSbox4 v v v v 0 ∧ (bsSub r)[4 * g + 1] = bsSbox4 v v v v 1 ∧
    (bsSub r)[4 * g + 2] = bsSbox4 v v v v 2 ∧ (bsSub r)[4 * g + 3] = bsSbox4 v v v v 3 := by
  simpa only [hr] using bsSub_group r hg

end Sys2Proof.Machine

open Sys2Proof Sys2Proof.Machine

/-- Settles O34: the effect of `BS_ARK`, its refusals, and what the key mix can do to a register. -/
theorem bsArkMixesTheRoundKey : Obligations.BsArkMixesTheRoundKey := by
  refine ⟨rfl, decode_eq_ok_iff.mpr ⟨rfl, rfl⟩,
    fun s hidle => exec_of_accepted_eq (accepted_bsArk _) rfl hidle, fun s hbusy => exec_of_busy hbusy _,
    fun s w _ hopc hrest => command_of_plain_opcode .bsArk rfl hopc hrest s,
    fun r k k' h => bsArk_congr r h, fun r k i hi => ?_,
    fun s hidle hkey hslice => ⟨_, exec_of_accepted_eq (accepted_bsArk _) rfl hidle, fun i hi => ?_⟩⟩
  · rw [getElem_bsArk_eq_ite r k hi]
    cases (roundKey k).getLsbD i
    · exact .inl rfl
    · exact .inr rfl
  · simp only [State.withRegs_regs, hkey]
    exact getElem_bsArk_example hi (hslice i hi)

/-- Settles O35: the effect of `BS_SBOX`, its refusals, and the two files of equal registers. -/
theorem bsSboxSubstitutesTheSlices : Obligations.BsSboxSubstitutesTheSlices := by
  refine ⟨rfl, decode_eq_ok_iff.mpr ⟨rfl, rfl⟩,
    fun s hidle => exec_of_accepted_eq (accepted_bsSbox _) rfl hidle, fun s hbusy => exec_of_busy hbusy _,
    fun s w _ hopc hrest => command_of_plain_opcode .bsSbox rfl hopc hrest s,
    fun r hr g hg => bsSub_group_of_equal_registers hr hg,
    fun r hr g hg => bsSub_group_of_equal_registers hr hg,
    fun s hidle h0 h1 h2 h3 => ⟨_, exec_of_accepted_eq (accepted_bsSbox _) rfl hidle, ?_⟩⟩
  obtain ⟨hy0, hy1, hy2, hy3⟩ := bsSub_group s.regs.slice (g := 0) (by decide)
  simp only [Nat.mul_zero, Nat.zero_add, h0, h1, h2, h3] at hy0 hy1 hy2 hy3
  exact ⟨hy0.trans (by decide), hy1.trans (by decide), hy2.trans (by decide), hy3.trans (by decide)⟩

/-- Settles O36: the effect of `BS_PERM`, its refusals, and the registers and files it leaves alone. -/
theorem bsPermPermutesTheSlices : Obligations.BsPermPermutesTheSlices :=
  ⟨rfl, decode_eq_ok_iff.mpr ⟨rfl, rfl⟩,
    fun _ hidle => exec_of_accepted_eq (accepted_bsPerm _) rfl hidle, fun _ hbusy => exec_of_busy hbusy _,
    fun s _ _ hopc hrest => command_of_plain_opcode .bsPerm rfl hopc hrest s,
    fun r => ⟨getElem_bsPerm_fixed r _ rfl, getElem_bsPerm_fixed r _ rfl,
      getElem_bsPerm_fixed r _ rfl, getElem_bsPerm_fixed r _ rfl⟩,
    fun _ _ hr => bsPerm_of_equal_registers hr,
    fun _ hidle hslice => ⟨_, exec_of_accepted_eq (accepted_bsPerm _) rfl hidle, bsPerm_example hslice⟩⟩

end SlicedCommands

/-! ## O37: the single bit-sliced round (R153) -/

section SlicedRoundCommand

namespace Sys2Proof.Machine

theorem bsArk_zero_key (r : Slices) : bsArk r 0 = r := by
  apply Vector.ext
  intro i hi
  have hbit : (roundKey 0).getLsbD i = false := by simp [roundKey]
  rw [getElem_bsArk_eq_ite r 0 hi, hbit, if_neg Bool.false_ne_true]

theorem bsSbox4_zero : ∀ t, t < 4 → bsSbox4 0 0 0 0 t = if t < 2 then 0 else 0xFFFFFFFF := by
  decide

/-- R153's example, the all-zero file with the all-zero key: register `q` is output `q / 16` of the S-box
at 0. -/
theorem getElem_bsRound_zero {r : Slices} (hr : ∀ i (h : i < 64), r[i] = 0) {q : Nat} (hq : q < 64) :
    (bsRound r 0)[q] = if q < 32 then 0 else 0xFFFFFFFF := by
  have ht : q / 16 < 4 := by omega
  have hhalf : q / 16 < 2 ↔ q < 32 := by omega
  rw [bsRound, bsArk_zero_key, getElem_bsPerm _ hq]
  simp only [permSource, getElem_bsSub r (Nat.mod_lt q (show 0 < 16 by decide)) ht, hr,
    bsSbox4_zero _ ht, hhalf]

end Sys2Proof.Machine

open Sys2Proof Sys2Proof.Machine

/-- Settles O37: the effect of `BS_ROUND` and its refusals, and its example. -/
theorem bsRoundRunsOneSlicedRound : Obligations.BsRoundRunsOneSlicedRound := by
  refine ⟨fun r => BitVec.or_comm _ _,
    fun s r hidle hr => exec_of_accepted_eq (accepted_bsRound _ r) (inDomain_iff.mpr hr) hidle,
    fun s hidle => exec_of_not_wellFormed rfl hidle, fun s r hbusy => exec_of_busy hbusy _,
    fun s w _ hopc hbad => command_of_round_opcode (.bsRound 0) rfl hopc hbad s,
    fun s hidle hslice hkey => ⟨_, exec_of_accepted_eq (accepted_bsRound _ 1) rfl hidle, ?_⟩⟩
  simp only [State.withRegs_regs, hkey]
  exact ⟨by decide +kernel, fun i hi => getElem_bsRound_zero hslice hi⟩

end SlicedRoundCommand

/-! ## O38: the whole batch encryption (R154) -/

section BatchEncryptCommand

namespace Sys2Proof.Machine

theorem getLsbD_toSliced (b : Batch) {i : Nat} (hi : i < 64) {j : Nat} (hj : j < 32) :
    (toSliced b)[i].getLsbD j = b[j].getLsbD i := by
  rw [toSliced, Vector.getElem_ofFn, getLsbD_ofBits, dif_pos hj, decide_eq_true hj, Bool.true_and]

/-- Lane `j` of a sliced batch is its block `j` (R170, R172). -/
theorem lane_toSliced (b : Batch) {j : Nat} (hj : j < 32) : lane (toSliced b) j = b[j] := by
  apply BitVec.eq_of_getLsbD_eq
  intro i hi
  rw [getLsbD_lane _ j hi, getLsbD_toSliced b hi hj]

theorem toSliced_fromSliced (r : Slices) : toSliced (fromSliced r) = r := by
  apply Vector.ext
  intro i hi
  apply BitVec.eq_of_getLsbD_eq
  intro j hj
  rw [getLsbD_toSliced _ hi hj, getElem_fromSliced r hj, getLsbD_lane r j hi]

/-- The batch that `BS_ENCRYPT` leaves: block `j` encrypted by itself (R154). -/
theorem getElem_completed_bsEncrypt_blk (c : CoreRegs) {j : Nat} (hj : j < 32) :
    (completed .bsEncrypt c).blk[j] = (present80 c.blk[j] c.key).1 := by
  rw [completed, getElem_fromSliced _ hj, lane_bsEncryptSlices _ _ hj, lane_toSliced _ hj]

/-- The slice file that `BS_ENCRYPT` leaves is its batch, sliced (R154). -/
theorem completed_bsEncrypt_slice (c : CoreRegs) :
    (completed .bsEncrypt c).slice = toSliced (completed .bsEncrypt c).blk :=
  (toSliced_fromSliced _).symm

/-- While `BS_ENCRYPT` runs: one step in `BS_IN`, 31 in `BS_ROUND`, one in `BS_FINAL`, one in `BS_OUT`,
`DONE` untouched (R200, R208). -/
theorem CoreRegs.engineSteps_bsEncrypt_running {c : CoreRegs} (hphase : c.phase = .bsIn) {n : Nat}
    (hn : n < 34) :
    (c.engineSteps n).phase =
        (if n = 0 then .bsIn else if n < 32 then .bsRound else if n = 32 then .bsFinal else .bsOut) ∧
      (c.engineSteps n).done = c.done := by
  have hin : c.engineSteps 1 = _ := engineStep_bsIn hphase
  have hrounds : c.engineSteps 32 = _ :=
    (c.engineSteps_add 1 31).trans (by rw [hin, engineSteps_bsRounds rfl rfl])
  obtain rfl | hround | rfl | rfl : n = 0 ∨ (0 < n ∧ n < 32) ∨ n = 32 ∨ n = 33 := by omega
  · exact ⟨hphase, rfl⟩
  · obtain ⟨m, rfl⟩ := Nat.exists_eq_add_of_le hround.1
    rw [engineSteps_add, hin, engineSteps_bsRound rfl rfl (by omega), if_neg (by omega),
      if_pos hround.2]
    exact ⟨rfl, rfl⟩
  · rw [hrounds]
    exact ⟨rfl, rfl⟩
  · rw [engineSteps, hrounds, engineStep_bsFinal rfl]
    exact ⟨rfl, rfl⟩

end Sys2Proof.Machine

open Sys2Proof Sys2Proof.Machine

/-- Settles O38: the phases of the engine's 34 steps, and their end lane by lane. -/
theorem bsEncryptRunsTheBatchCipher : Obligations.BsEncryptRunsTheBatchCipher := by
  refine ⟨rfl, decode_eq_ok_iff.mpr ⟨rfl, rfl⟩, fun s hidle => exec_of_idle rfl hidle,
    fun s hbusy => exec_of_busy hbusy _,
    fun s w _ hopc hrest => command_of_plain_opcode .bsEncrypt rfl hopc hrest s,
    fun s t hidle hexec => ⟨fun n hn => ?_, (completed .bsEncrypt s.regs).blk,
      fun j hj => getElem_completed_bsEncrypt_blk _ hj, ?_⟩,
    fun s t hidle hexec hkey hblk j hj => ?_, fun s t hidle hexec hkey hblk => ?_⟩
  · rw [exec_of_idle rfl hidle] at hexec
    cases hexec
    obtain ⟨hphase, hdone⟩ := CoreRegs.engineSteps_bsEncrypt_running
      (c := accepted .bsEncrypt s.regs) rfl hn
    refine ⟨?_, hdone⟩
    rw [State.withRegs_regs, hphase]
    split_ifs <;> simp
  · rw [engineSteps_of_exec rfl hidle hexec, ← completed_bsEncrypt_slice]
    rfl
  · simp only [engineSteps_of_exec rfl hidle hexec, getElem_completed_bsEncrypt_blk _ hj, hkey,
      hblk j hj, present80_zero]
  · simp only [engineSteps_of_exec rfl hidle hexec, getElem_completed_bsEncrypt_blk, hkey, hblk]
    decide +kernel

end BatchEncryptCommand

/-! ## O24: the layout conversions (R170, R171, R172) -/

section LayoutConversions

namespace Sys2Proof.Machine

/-- A register of the sliced batch is the word whose bits are its column of the batch (R170). -/
theorem getElem_toSliced_eq {b : Batch} {i : Nat} (hi : i < 64) {v : Word}
    (h : ∀ j (hj : j < 32), b[j].getLsbD i = v.getLsbD j) : (toSliced b)[i] = v :=
  BitVec.eq_of_getLsbD_eq fun j hj => by rw [getLsbD_toSliced b hi hj, h j hj]

/-- A block of the rebuilt batch is the block whose bits are its lane of the slice file (R171). -/
theorem getElem_fromSliced_eq {r : Slices} {j : Nat} (hj : j < 32) {v : Block}
    (h : ∀ i (hi : i < 64), r[i].getLsbD j = v.getLsbD i) : (fromSliced r)[j] = v :=
  BitVec.eq_of_getLsbD_eq fun i hi => by rw [getElem_fromSliced r hj, getLsbD_lane r j hi, h i hi]

theorem fromSliced_toSliced (b : Batch) : fromSliced (toSliced b) = b :=
  Vector.ext fun j hj => by rw [getElem_fromSliced _ hj, lane_toSliced b hj]

theorem getLsbD_one_shiftLeft {w i : Nat} (hi : i < w) (n : Nat) :
    (1#w <<< n).getLsbD i = decide (i = n) := by
  rw [← BitVec.twoPow_eq, BitVec.getLsbD_twoPow, Bool.eq_iff_iff, Bool.and_eq_true]
  simp only [decide_eq_true_eq]
  omega

/-- The two diagonals of R170's and R171's examples are each other's transpose. -/
theorem getLsbD_diagonal {i j : Nat} (hi : i < 64) (hj : j < 32) :
    (if i < 32 then 1#32 <<< i else 0#32).getLsbD j = (1#64 <<< j).getLsbD i := by
  rw [getLsbD_one_shiftLeft hi]
  split_ifs with hlow
  · rw [getLsbD_one_shiftLeft hj, decide_eq_decide, eq_comm]
  · rw [BitVec.getLsbD_zero, eq_comm, decide_eq_false_iff_not]
    omega

/-- Lane 0 set in every register is block 0 set in every bit (R170, R175). -/
theorem getLsbD_firstLane {i j : Nat} (hi : i < 64) (hj : j < 32) :
    (0x00000001 : Word).getLsbD j =
      (if j = 0 then 0xFFFFFFFFFFFFFFFF else 0 : Block).getLsbD i := by
  have hword : (0x00000001 : Word).getLsbD j = decide (j = 0) := getLsbD_one_shiftLeft hj 0
  rw [hword]
  split_ifs with hzero
  · exact (decide_eq_true hzero).trans (BitVec.getLsbD_allOnes.trans (decide_eq_true hi)).symm
  · exact (decide_eq_false hzero).trans BitVec.getLsbD_zero.symm

theorem getElem_toSliced_diagonal {b : Batch} (hb : ∀ j (h : j < 32), b[j] = 1#64 <<< j) {i : Nat}
    (hi : i < 64) : (toSliced b)[i] = if i < 32 then 1#32 <<< i else 0#32 :=
  getElem_toSliced_eq hi fun j hj => by rw [hb j hj, getLsbD_diagonal hi hj]

end Sys2Proof.Machine

open Sys2Proof.Machine

/-- Settles O24: each output bit is one input bit, and the examples bit by bit from that. -/
theorem layoutConversionsTranspose : Obligations.LayoutConversionsTranspose :=
  ⟨fun b _ _ hi hj => getLsbD_toSliced b hi hj,
    fun r j _ _ hj _ _ => by rw [getElem_fromSliced r hj, getLsbD_lane r j],
    fromSliced_toSliced, toSliced_fromSliced,
    fun _ hb _ hi => getElem_toSliced_diagonal hb hi,
    fun _ hb _ hi => getElem_toSliced_eq hi fun j hj => by rw [hb j hj, getLsbD_firstLane hi hj],
    fun _ v hb i hi => getElem_toSliced_eq hi fun j hj => by
      rw [hb j hj, getLsbD_bcast (v.getLsbD i) hj],
    fun _ hr _ hj => getElem_fromSliced_eq hj fun i hi => by rw [hr i hi, getLsbD_diagonal hi hj]⟩

end LayoutConversions

/-! ## O32, O33: the layout commands (R174, R175) -/

section LayoutCommands

namespace Sys2Proof.Machine

/-- `BS_ENSLICE` then `BS_UNSLICE` leaves `BLK` as it was (R175). -/
theorem execAll_bsEnslice_bsUnslice {s : State} (hidle : s.regs.phase = .idle) :
    execAll [.bsEnslice, .bsUnslice] s =
      .next (s.withRegs { s.regs with slice := toSliced s.regs.blk, done := true }) := by
  rw [execAll_cons (exec_of_idle rfl hidle),
    execAll_cons (exec_of_idle rfl (accepted_phase_idle hidle (by simp) (by simp)))]
  simp only [execAll, accepted_bsEnslice, accepted_bsUnslice, State.withRegs, fromSliced_toSliced]

/-- `BS_UNSLICE` then `BS_ENSLICE` leaves `SLICE` as it was (R175). -/
theorem execAll_bsUnslice_bsEnslice {s : State} (hidle : s.regs.phase = .idle) :
    execAll [.bsUnslice, .bsEnslice] s =
      .next (s.withRegs { s.regs with blk := fromSliced s.regs.slice, done := true }) := by
  rw [execAll_cons (exec_of_idle rfl hidle),
    execAll_cons (exec_of_idle rfl (accepted_phase_idle hidle (by simp) (by simp)))]
  simp only [execAll, accepted_bsEnslice, accepted_bsUnslice, State.withRegs, toSliced_fromSliced]

end Sys2Proof.Machine

open Sys2Proof Sys2Proof.Machine

/-- Settles O32: the effect of `BS_ENSLICE`, its refusals, and the diagonal batch. -/
theorem bsEnsliceSlicesTheBatch : Obligations.BsEnsliceSlicesTheBatch :=
  ⟨rfl, decode_eq_ok_iff.mpr ⟨rfl, rfl⟩,
    fun _ hidle => ⟨_, exec_of_accepted_eq (accepted_bsEnslice _) rfl hidle, rfl,
      fun _ _ hi hj => getLsbD_toSliced _ hi hj⟩,
    fun _ hbusy => exec_of_busy hbusy _,
    fun s _ _ hopc hrest => command_of_plain_opcode .bsEnslice rfl hopc hrest s,
    fun _ hidle hblk => ⟨_, exec_of_accepted_eq (accepted_bsEnslice _) rfl hidle,
      fun _ hi => getElem_toSliced_diagonal hblk hi⟩⟩

/-- Settles O33: the effect of `BS_UNSLICE`, its refusals, and the two round trips. -/
theorem bsUnsliceRebuildsTheBatch : Obligations.BsUnsliceRebuildsTheBatch := by
  refine ⟨rfl, decode_eq_ok_iff.mpr ⟨rfl, rfl⟩,
    fun s hidle => ⟨_, exec_of_accepted_eq (accepted_bsUnslice _) rfl hidle, rfl,
      fun i j hi hj => ?_⟩,
    fun s hbusy => exec_of_busy hbusy _,
    fun s w _ hopc hrest => command_of_plain_opcode .bsUnslice rfl hopc hrest s,
    fun s hidle => ⟨⟨_, execAll_bsEnslice_bsUnslice hidle, by rw [State.withRegs_regs]⟩,
      ⟨_, execAll_bsUnslice_bsEnslice hidle, by rw [State.withRegs_regs]⟩⟩,
    fun s hidle hslice => ⟨_, exec_of_accepted_eq (accepted_bsUnslice _) rfl hidle,
      fun j hj => getElem_fromSliced_eq hj fun i hi => ?_⟩⟩
  · rw [getElem_fromSliced _ hj, getLsbD_lane _ j hi]
  · rw [hslice i hi, getLsbD_firstLane hi hj]

end LayoutCommands

/-! ## O16, O17, O18: the key advance and its three stages (R181 to R186) -/

section KeyAdvance

namespace Sys2Proof.Machine

theorem getLsbD_rot (k : Key) {i : Nat} (hi : i < 80) :
    (rot k).getLsbD i = k.getLsbD ((i + 19) % 80) := by
  rw [rot, BitVec.getLsbD_append]
  by_cases hlow : i < 61
  · have hsource : (i + 19) % 80 = 19 + i := by omega
    simp [hlow, hsource]
  · have hsource : (i + 19) % 80 = i - 61 := by omega
    have hhigh : i - 61 < 19 := by omega
    simp [hlow, hhigh, hsource]

/-- Where a key bit goes, 61 places up around the key (R181, C1). -/
theorem getLsbD_rot_target (k : Key) {i : Nat} (hi : i < 80) :
    (rot k).getLsbD ((i + 61) % 80) = k.getLsbD i := by
  have hsource : ((i + 61) % 80 + 19) % 80 = i := by omega
  rw [getLsbD_rot k (Nat.mod_lt _ (by decide)), hsource]

theorem rot_injective : Function.Injective rot := fun a b hab =>
  BitVec.eq_of_getLsbD_eq fun i hi => by
    rw [← getLsbD_rot_target a hi, hab, getLsbD_rot_target b hi]

theorem splice_high (k : Key) : (splice k).extractLsb' 76 4 = sbox (k.extractLsb' 76 4) :=
  BitVec.extractLsb'_append_eq_left

theorem splice_low (k : Key) : (splice k).extractLsb' 0 76 = k.extractLsb' 0 76 :=
  BitVec.extractLsb'_append_eq_right

theorem getLsbD_splice_low (k : Key) {i : Nat} (hi : i < 76) :
    (splice k).getLsbD i = k.getLsbD i := by
  have hbit := congrArg (·.getLsbD i) (splice_low k)
  simpa [hi] using hbit

/-- The S-box is injective on the top nibble, and the other bits stand. -/
theorem splice_injective : Function.Injective splice := by
  intro a b hab
  have hhigh : a.extractLsb' 76 4 = b.extractLsb' 76 4 := sbox_injective <| by
    rw [← splice_high, hab, splice_high]
  have hlow : a.extractLsb' 0 76 = b.extractLsb' 0 76 := by
    rw [← splice_low, hab, splice_low]
  have hjoin : ∀ k : Key, k.extractLsb' 76 4 ++ k.extractLsb' 0 76 = k := fun _ =>
    BitVec.extractLsb'_append_extractLsb'
  rw [← hjoin a, ← hjoin b, hhigh, hlow]

/-- The counter injection is an exclusive or with `r`, moved up to key bit 15 (R183). -/
theorem getLsbD_inject (k : Key) (r : Round) {i : Nat} (hi : i < 80) :
    (inject k r).getLsbD i = (k.getLsbD i ^^ (decide (15 ≤ i) && r.getLsbD (i - 15))) := by
  rw [inject, BitVec.getLsbD_append, BitVec.getLsbD_append, BitVec.getLsbD_xor]
  simp only [BitVec.getLsbD_extractLsb']
  by_cases hlow : i < 15
  · simp [hlow, Nat.not_le.mpr hlow]
  · have hsource : 15 + (i - 15) = i := by omega
    by_cases hmid : i - 15 < 5
    · simp [hlow, hmid, hsource, Nat.not_lt.mp hlow]
    · have hzero : r.getLsbD (i - 15) = false := BitVec.getLsbD_of_ge _ _ (Nat.not_lt.mp hmid)
      have hhigh : 20 + (i - 15 - 5) = i := by omega
      have hin : i - 15 - 5 < 60 := by omega
      simp [hlow, hmid, hzero, hhigh, hin]

theorem getLsbD_inject_counter (k : Key) (r : Round) {t : Nat} (ht : t < 5) :
    (inject k r).getLsbD (15 + t) = (k.getLsbD (15 + t) ^^ r.getLsbD t) := by
  simp [getLsbD_inject k r (show 15 + t < 80 by omega)]

theorem getLsbD_inject_other (k : Key) (r : Round) {i : Nat} (hi : i < 80) (hout : i < 15 ∨ 19 < i) :
    (inject k r).getLsbD i = k.getLsbD i := by
  rw [getLsbD_inject k r hi]
  obtain hlow | hhigh := hout
  · simp [Nat.not_le.mpr hlow]
  · simp [BitVec.getLsbD_of_ge r (i - 15) (by omega)]

/-- Key bit 15, the lowest counter bit, is bit 7 of key byte 1 (R183). -/
theorem keyByte_one_inject (k : Key) (r : Round) :
    (keyByte 1 (inject k r)).getLsbD 7 = ((keyByte 1 k).getLsbD 7 ^^ r.getLsbD 0) := by
  simpa [keyByte] using getLsbD_inject_counter k r (t := 0) (by decide)

/-- Key bits 19 to 16, the other counter bits, are the low nibble of key byte 2 (R183). -/
theorem keyByte_two_inject (k : Key) (r : Round) :
    (keyByte 2 (inject k r)).extractLsb' 0 4 =
      (keyByte 2 k).extractLsb' 0 4 ^^^ r.extractLsb' 1 4 := by
  apply BitVec.eq_of_getLsbD_eq
  intro t ht
  have hbyte : t < 8 := by omega
  have hbit : 16 + t = 15 + (1 + t) := by omega
  simpa [keyByte, ht, hbyte, hbit] using getLsbD_inject_counter k r (t := 1 + t) (by omega)

theorem inject_inject (k : Key) (r : Round) : inject (inject k r) r = k :=
  BitVec.eq_of_getLsbD_eq fun i hi => by
    rw [getLsbD_inject _ r hi, getLsbD_inject k r hi, Bool.xor_assoc, Bool.xor_self, Bool.xor_false]

theorem inject_injective (r : Round) : Function.Injective (inject · r) :=
  Function.LeftInverse.injective (g := (inject · r)) fun k => inject_inject k r

theorem ksAdvance_injective (r : Round) : Function.Injective (ksAdvance · r) :=
  (inject_injective r).comp (splice_injective.comp rot_injective)

theorem keyAfter_zero_thirty : keyAfter 0 30 = 0x8BA27A0EB8783AC96D59 := by decide +kernel

/-- The last key of the known answer (R123, R186). -/
theorem keyAfter_zero_thirtyOne : keyAfter 0 31 = 0x6DAB31744F41D7008759 :=
  congrArg Prod.snd present80_zero

end Sys2Proof.Machine

open Sys2Proof.Machine

/-- Settles O16: each bit by its source and by its target. -/
theorem rotatorMovesEveryKeyBit : Obligations.RotatorMovesEveryKeyBit :=
  ⟨fun _ => rfl, fun k _ hi => getLsbD_rot k hi, fun k _ hi => getLsbD_rot_target k hi,
    by decide +kernel, by decide +kernel, by decide +kernel, by decide +kernel⟩

/-- Settles O17: the stages bit by bit, and the examples of the whole advance. -/
theorem keyAdvanceStages : Obligations.KeyAdvanceStages :=
  ⟨fun k => ⟨splice_high k, fun _ hi => getLsbD_splice_low k hi⟩,
    fun k r => ⟨fun _ ht => getLsbD_inject_counter k r ht,
      fun _ hi hout => getLsbD_inject_other k r hi hout,
      keyByte_one_inject k r, keyByte_two_inject k r⟩,
    fun _ _ => rfl, by decide +kernel, by decide +kernel, by decide +kernel, by decide +kernel⟩

/-- Settles O18: each stage is injective, and the keys are finitely many. -/
theorem keyAdvanceIsABijection : Obligations.KeyAdvanceIsABijection := by
  refine ⟨fun r => (ksAdvance_injective r).bijective_of_finite, fun k n => rfl,
    keyAfter_zero_thirty, keyAfter_zero_thirtyOne, ?_⟩
  rw [keyAfter_zero_thirty, keyAfter_zero_thirtyOne]
  decide

end KeyAdvance

/-! ## O31: the key advance as a command (R187) -/

section KeyAdvanceCommand

namespace Sys2Proof.Machine

/-- `KS_ADV r` with an operand of R94's domain, from an idle state (R187). -/
theorem exec_ksAdv {s : State} (hidle : s.regs.phase = .idle) {r : Round} (hr : r ≠ 0) :
    exec (.ksAdv r) s =
      .next (s.withRegs { s.regs with key := ksAdvance s.regs.key r, done := true }) :=
  exec_of_accepted_eq (accepted_ksAdv _ r) (inDomain_iff.mpr hr) hidle

end Sys2Proof.Machine

open Sys2Proof Sys2Proof.Machine

/-- Settles O31: the effect of `KS_ADV`, its refusals, and the first two advances of the all-zero key. -/
theorem ksAdvAdvancesTheKey : Obligations.KsAdvAdvancesTheKey := by
  refine ⟨fun r => BitVec.or_comm _ _, fun s r hidle hr => exec_ksAdv hidle hr,
    fun s hidle => exec_of_not_wellFormed rfl hidle, fun s r hbusy => exec_of_busy hbusy _,
    fun s w _ hopc hbad => command_of_round_opcode (.ksAdv 0) rfl hopc hbad s,
    fun s hidle hkey => ?_⟩
  have hidle_advanced : (s.withRegs { s.regs with
      key := ksAdvance s.regs.key 1, done := true }).regs.phase = .idle := hidle
  refine ⟨_, _, exec_ksAdv hidle (by decide), ?_, exec_ksAdv hidle_advanced (by decide), ?_⟩
  all_goals
    simp only [State.withRegs_regs, hkey]
    decide +kernel

end KeyAdvanceCommand

/-! ## O2, O4: the control invariant, event by event (R209) -/

section ControlInvariant

namespace Sys2Proof.Machine

/-- The range of R209 is all of the 5-bit field but 0. -/
theorem roundIndex_range_iff {r : Round} : (1 ≤ r.toNat ∧ r.toNat ≤ 31) ↔ r ≠ 0 := by
  bv_omega

/-- The count goes on within the range (R202, R205). -/
theorem roundIndex_add_one_ne_zero {r : Round} (h : r ≠ 31) : r + 1 ≠ 0 := by
  bv_omega

section ControlFields

variable {c d : CoreRegs}

theorem CoreRegs.controlOk_iff : c.controlOk = true ↔
    ((c.phase = .seRound ∨ c.phase = .bsRound) ↔ c.rnd ≠ 0) := by
  cases hp : c.phase <;> simp [controlOk, Phase.isRound, hp]

theorem CoreRegs.rnd_eq_zero (hok : c.controlOk = true)
    (hphase : ¬(c.phase = .seRound ∨ c.phase = .bsRound)) : c.rnd = 0 :=
  not_not.mp (mt (controlOk_iff.mp hok).mpr hphase)

/-- The invariant speaks of `phase` and `rnd` alone. -/
theorem CoreRegs.controlOk_of_control_eq (h : d.phase = c.phase ∧ d.rnd = c.rnd)
    (hok : c.controlOk = true) : d.controlOk = true := by
  rwa [controlOk, h.1, h.2]

theorem CoreRegs.controlOk_engineStep (hok : c.controlOk = true) :
    c.engineStep.controlOk = true := by
  cases hp : c.phase with
  | idle => rwa [engineStep_idle hp]
  | bsIn => rw [engineStep_bsIn hp]; rfl
  | seRound =>
    rw [engineStep_seRound hp, controlOk_iff]
    by_cases hlast : c.rnd = 31
    · simp [hlast]
    · simpa only [hlast, if_false, true_or, or_true, true_iff] using roundIndex_add_one_ne_zero hlast
  | bsRound =>
    rw [engineStep_bsRound hp, controlOk_iff]
    by_cases hlast : c.rnd = 31
    · simp [hlast]
    · simpa only [hlast, if_false, true_or, or_true, true_iff] using roundIndex_add_one_ne_zero hlast
  | seFinal | bsFinal | bsOut =>
    have hrnd : c.rnd = 0 := rnd_eq_zero hok (by simp [hp])
    simp [controlOk_iff, hp, hrnd]

@[simp] theorem CoreRegs.writePort_rnd (p : Port) (v : Word) : (c.writePort p v).rnd = c.rnd := by
  cases p <;> rfl

/-- A primitive command leaves `phase` and `rnd` alone (R199). -/
theorem accepted_control_frame {i : Instr} (hse : i ≠ .seEncrypt) (hbs : i ≠ .bsEncrypt) :
    (accepted i c).phase = c.phase ∧ (accepted i c).rnd = c.rnd := by
  cases i with
  | seEncrypt => exact absurd rfl hse
  | bsEncrypt => exact absurd rfl hbs
  | _ => simp [accepted]

theorem controlOk_accepted (i : Instr) (hok : c.controlOk = true) :
    (accepted i c).controlOk = true := by
  cases i with
  | seEncrypt | bsEncrypt => rfl
  | _ => exact CoreRegs.controlOk_of_control_eq (accepted_control_frame nofun nofun) hok

end ControlFields

/-- Every event keeps the control invariant (R209). -/
theorem CoreEvent.controlOk {s : State} {c : CoreRegs} (h : CoreEvent s c)
    (hok : s.regs.controlOk = true) : c.controlOk = true := by
  cases h with
  | reset => rfl
  | engine => exact CoreRegs.controlOk_engineStep hok
  | command w i => exact controlOk_accepted i hok
  | dataWord p v => exact CoreRegs.controlOk_of_control_eq (by simp) hok
  | noWrite => exact hok
  | clearStatus | refusedBusy | illegalWord => exact CoreRegs.controlOk_of_control_eq ⟨rfl, rfl⟩ hok

theorem exec_control_frame {i : Instr} {s t : State} (hse : i ≠ .seEncrypt) (hbs : i ≠ .bsEncrypt)
    (h : exec i s = .next t) : t.regs.phase = s.regs.phase ∧ t.regs.rnd = s.regs.rnd := by
  rw [exec_eq_present] at h
  rcases present_cases i.wellFormed (accepted i) s with ⟨_, heq⟩ | ⟨_, _, heq⟩ | ⟨_, _, heq⟩ <;>
    rw [heq] at h <;> cases h
  · exact ⟨rfl, rfl⟩
  · exact ⟨rfl, rfl⟩
  · exact accepted_control_frame hse hbs

theorem memWrite_control_frame {off n : Nat} {v : Word} {s t : State} (hoff : off ≠ 0x000)
    (h : memWrite off n v s = .next t) :
    t.regs.phase = s.regs.phase ∧ t.regs.rnd = s.regs.rnd := by
  rcases memWrite_cases off n v s with ⟨p, hacc, heq⟩ | ⟨f, _, heq⟩ | ⟨r, _, heq⟩ <;> rw [heq] at h
  · obtain ⟨rfl, -⟩ := access_eq_next_iff.mp hacc
    rcases writeWord_cases p v s with ⟨_, heq⟩ | ⟨_, _, heq⟩ | ⟨rfl, _, _⟩ | ⟨_, _, _, heq⟩
    · cases heq.symm.trans h
      exact ⟨rfl, rfl⟩
    · cases heq.symm.trans h
      exact ⟨rfl, rfl⟩
    · exact absurd rfl hoff
    · cases heq.symm.trans h
      simp
  · cases h
  · cases h

end Sys2Proof.Machine

open Sys2Proof Sys2Proof.Machine

/-- Settles O2: reset is idle with `rnd = 0`, and its host has no variables. -/
theorem invariantHoldsAtReset : Obligations.InvariantHoldsAtReset := rfl

/-- Settles O4: the invariant is `controlOk`, which every event of a step keeps; what only a `CMD` write of a
compound command changes is said by the frames of `exec` and `memWrite`. -/
theorem roundIndexInvariant : Obligations.RoundIndexInvariant := by
  refine ⟨by decide, fun s t hstep hok => ?_, fun i s t => exec_control_frame,
    fun s t off n v => memWrite_control_frame, fun s t off n x h => ?_, fun p => by cases p <;> decide⟩
  · simp only [roundIndex_range_iff, ← CoreRegs.controlOk_iff] at hok ⊢
    have hok' := (coreEvent_of_step hstep).controlOk hok
    exact ⟨hok', CoreRegs.rnd_eq_zero hok'⟩
  · simp [hostOp_read_regs h]

end ControlInvariant

/-! ## O3, O5: whose turn it is, and what the turn does (R97, R98, R195, R201, R260) -/

section TurnEffects

namespace Sys2Proof.Machine

/-- `withFetchWord` places the write of its word at the host's next line, and the host comes next (R77). -/
theorem step_withFetchWord {w : Word} {i : Instr} (hw : decode w = .ok i) (s : State) :
    step (s.withFetchWord 32 w.toNat) =
      exec i ({ s.withFetchWord 32 w.toNat with turns := s.turns } : State).advance := by
  have hword : BitVec.ofNat 32 (w.toNat % 2 ^ 32) = w := by
    rw [Nat.mod_eq_of_lt w.isLt, BitVec.ofNat_toNat, BitVec.setWidth_eq]
  have hop : (s.withFetchWord 32 w.toNat).currentOp = some (.write 0x000 4 w) :=
    (progWithLine_get (Nat.min_le_right _ _) _).trans (by rw [w32, hword])
  rw [step_of_currentOp hop]
  exact memWrite_cmd hw

/-- A step that ends in an assignment: the variable holds the value, the host is one line on, and nothing
else has changed (R97). -/
theorem step_assigns {s : State} {x : Nat} {v : HostVal}
    (h : step s = .next (({ s with turns := s.turns.tail } : State).advance.setVar x v)) :
    ∃ t : State, step s = .next t ∧ t.regs = s.regs ∧ t.turns = s.turns.tail ∧
      t.host.prog = s.host.prog ∧ t.host.pc = s.host.pc + 1 ∧ varsGet t.host.vars x = v ∧
      ∀ y, y ≠ x → varsGet t.host.vars y = varsGet s.host.vars y :=
  ⟨_, h, rfl, rfl, rfl, rfl, varsGet_varsSet_same _ x v, fun _ => varsGet_varsSet_other v⟩

/-- `RDKEY`'s value takes only the low half of its third word (R98). -/
theorem keyOfWords_varWord (s : State) (a b c : Nat) :
    keyOfWords (s.varWord a) (s.varWord b) (s.varWord c) = (varsGet s.host.vars c).extractLsb' 0 16 ++
      (varsGet s.host.vars b).extractLsb' 0 32 ++ (varsGet s.host.vars a).extractLsb' 0 32 := by
  rw [keyOfWords, State.varWord, extractLsb'_extractLsb'_of_add_le _ (by decide)]
  rfl

/-- Every step keeps the canonical form of the variables (log entry 5). -/
theorem step_varsSorted {s t : State} (hsorted : varsSorted s.host.vars = true)
    (h : step s = .next t) : varsSorted t.host.vars = true := by
  rcases step_next_cases h with ⟨_, rfl⟩ | ⟨_, rfl⟩ | ⟨_, _, rfl⟩ | ⟨_, _, _, _, hw⟩ |
    ⟨_, _, x, v, _, _, rfl⟩ | ⟨_, _, _, _, rfl⟩ | ⟨x, v, _, rfl⟩
  · exact hsorted
  · exact hsorted
  · exact hsorted
  · obtain ⟨c, rfl, _⟩ := memWrite_control hw
    exact hsorted
  · exact varsSet_sorted x _ hsorted
  · split <;> exact hsorted
  · exact varsSet_sorted x v hsorted

end Sys2Proof.Machine

open Sys2Proof Sys2Proof.Machine

/-- Settles O3: the line is a `CMD` write, and so is the line that `withFetchWord` places. -/
theorem stepRunsTheDecodedCommand : Obligations.StepRunsTheDecodedCommand := by
  refine ⟨fun s w i hturn hline hw => ?_, fun s w i hw =>
    ⟨({ s.withFetchWord 32 w.toNat with turns := s.turns } : State).advance, rfl, rfl, rfl, step_withFetchWord hw s⟩⟩
  rw [step_host hturn hline]
  exact memWrite_cmd hw

/-- Settles O5, turn by turn and line by line. -/
theorem turnsActAsTheirAgents : Obligations.TurnsActAsTheirAgents := by
  refine ⟨fun s => step_reset, fun s hturn hidle => ?_, fun s => step_engine,
    fun s off size v hop => step_of_currentOp hop, fun s off size x v hop hread => step_assigns ?_,
    fun s x bit target hop => ?_, fun s n a b hop => step_assigns (step_of_currentOp hop),
    fun s n a b c hop => ?_,
    fun s hturn hend => step_host_none hturn (List.getElem?_eq_none hend),
    fun s t => step_varsSorted⟩
  · rw [step_engine hturn, CoreRegs.engineStep_idle hidle]
  · rw [step_of_currentOp hop]
    simp only [hostOp, hread]
  · rw [step_of_currentOp hop]
    simp only [hostOp]
    split <;> rfl
  · rw [← keyOfWords_varWord]
    exact step_assigns (step_of_currentOp hop)

end TurnEffects

/-! ## O25, O48: what becomes of a word written to `CMD` (R196, R198) -/

section CommandWords

namespace Sys2Proof.Machine

/-- A primitive command sets `DONE` (R199). -/
theorem accepted_done_of_primitive {i : Instr} (hnop : i ≠ .nop) (hse : i ≠ .seEncrypt)
    (hbs : i ≠ .bsEncrypt) (c : CoreRegs) : (accepted i c).done = true := by
  rw [accepted_done, if_neg hnop]
  exact decide_eq_true ⟨hse, hbs⟩

/-- Every legal word but that of `NOP` changes the CORE of reset (R198). -/
theorem command_reset_ne_self {w : Word} (hw : legal w = true) (hne : w ≠ 0x00000000) :
    command w State.reset ≠ .next State.reset := by
  obtain ⟨i, hi⟩ := legal_iff_decode.mp hw
  have hnop : i ≠ .nop := mt (eq_nop_iff_of_decode hi).mp hne
  rw [command_of_decode hi rfl]
  exact fun hsame => accepted_ne_self hnop rfl rfl (congrArg State.regs (Host.Outcome.next.inj hsame))

end Sys2Proof.Machine

open Sys2Proof Sys2Proof.Machine

/-- Settles O25: the effect of `NOP`, its refusals, and that no other legal word is without effect. -/
theorem nopChangesNothing : Obligations.NopChangesNothing :=
  ⟨rfl, rfl, fun _ hidle => exec_of_idle rfl hidle, fun _ hbusy => exec_of_busy hbusy _,
    fun s _ _ hopc hrest => command_of_plain_opcode .nop rfl hopc hrest s,
    fun _ hw hne => ⟨State.reset, rfl, command_reset_ne_self hw hne⟩,
    ⟨State.reset, rfl, rfl⟩⟩

/-- Settles O48: a word is refused while busy; while idle it is illegal, one of three named commands, or
a primitive command that decodes. -/
theorem commandWordsAreAcceptedOrRefused : Obligations.CommandWordsAreAcceptedOrRefused := by
  refine ⟨fun s w hbusy => memWrite_of_busy hbusy (p := .cmd) nofun w, fun s w hidle =>
    ⟨memWrite_cmd_of_idle hidle w, fun hw => command_of_illegal hw s, ?_, ?_, ?_, fun hw hwords => ?_⟩⟩
  · rintro rfl
    exact command_of_decode (i := .nop) rfl hidle
  · rintro rfl
    exact command_of_decode (i := .seEncrypt) rfl hidle
  · rintro rfl
    exact command_of_decode (i := .bsEncrypt) rfl hidle
  · obtain ⟨i, hi⟩ := legal_iff_decode.mp hw
    simp only [List.mem_cons, List.not_mem_nil, or_false, not_or] at hwords
    obtain ⟨hnopWord, hseWord, hbsWord⟩ := hwords
    have hnop : i ≠ .nop := mt (eq_nop_iff_of_decode hi).mp hnopWord
    have hse : i ≠ .seEncrypt := mt (eq_seEncrypt_iff_of_decode hi).mp hseWord
    have hbs : i ≠ .bsEncrypt := mt (eq_bsEncrypt_iff_of_decode hi).mp hbsWord
    obtain ⟨hphase, hrnd⟩ := accepted_control_frame (c := s.regs) hse hbs
    exact ⟨i, accepted i s.regs, hi, exec_of_idle (decode_eq_ok_iff.mp hi).2 hidle,
      command_of_decode hi hidle, accepted_done_of_primitive hnop hse hbs _, hphase.trans hidle, hrnd,
      accepted_errCmd _ i, accepted_errBusy _ i⟩

end CommandWords

/-! ## O49, O50, O51: the engine steps and their sequence (R202 to R208) -/

section EngineSequences

namespace Sys2Proof.Machine

theorem roundIndex_toNat {n : Nat} (hn : n < 31) : (BitVec.ofNat 5 (n + 1) : Round).toNat = n + 1 := by
  rw [BitVec.toNat_ofNat]
  omega

section Sequences

variable {c : CoreRegs}

/-- `SE_ROUND` with `rnd` in 1..31 (R208). -/
theorem CoreRegs.engineSteps_seRound_control (hphase : c.phase = .seRound) (hrnd : c.rnd = 1) {n : Nat}
    (hn : n < 31) : (c.engineSteps n).phase = .seRound ∧ (c.engineSteps n).rnd.toNat = n + 1 := by
  rw [engineSteps_seRound hphase hrnd (by omega)]
  exact ⟨rfl, roundIndex_toNat hn⟩

/-- `BS_ROUND` with `rnd` in 1..31 (R208). -/
theorem CoreRegs.engineSteps_bsRound_control (hphase : c.phase = .bsRound) (hrnd : c.rnd = 1) {n : Nat}
    (hn : n < 31) : (c.engineSteps n).phase = .bsRound ∧ (c.engineSteps n).rnd.toNat = n + 1 := by
  rw [engineSteps_bsRound hphase hrnd (by omega)]
  exact ⟨rfl, roundIndex_toNat hn⟩

/-- The first step of `BS_ENCRYPT`, apart from those that follow it (R204). -/
theorem CoreRegs.engineSteps_succ_bsIn (hphase : c.phase = .bsIn) (n : Nat) :
    c.engineSteps (n + 1) =
      { c with slice := toSliced c.blk, phase := .bsRound, rnd := 1 }.engineSteps n := by
  rw [Nat.add_comm, engineSteps_add, ← engineStep_bsIn hphase]
  rfl

end Sequences

end Sys2Proof.Machine

open Sys2Proof Sys2Proof.Machine

/-- Settles O49: the two scalar phases, `SE_ROUND` split at its last round. -/
theorem scalarEngineSteps : Obligations.ScalarEngineSteps := by
  refine ⟨fun c hphase hlast => ?_, fun c hphase _ hmore => ?_, fun c => CoreRegs.engineStep_seFinal⟩
  · simp only [CoreRegs.engineStep_seRound hphase, hlast, if_true]
  · simp only [CoreRegs.engineStep_seRound hphase, hmore, if_false, hphase]

/-- Settles O50: the four batch phases, `BS_ROUND` split at its last round. -/
theorem batchEngineSteps : Obligations.BatchEngineSteps := by
  refine ⟨fun c => CoreRegs.engineStep_bsIn, fun c hphase hlast => ?_, fun c hphase _ hmore => ?_,
    fun c => CoreRegs.engineStep_bsFinal, fun c => CoreRegs.engineStep_bsOut⟩
  · simp only [CoreRegs.engineStep_bsRound hphase, hlast, if_true]
  · simp only [CoreRegs.engineStep_bsRound hphase, hmore, if_false, hphase]

/-- Settles O51: the rounds counted from the accepted command, and the phases after the last of them. -/
theorem phaseSequencesAndStepCounts : Obligations.PhaseSequencesAndStepCounts := by
  refine ⟨fun s t hidle hexec => ?_, fun s t hidle hexec => ?_, fun s t i hidle hse hbs hexec => ?_⟩
  · cases (exec_of_idle rfl hidle).symm.trans hexec
    refine ⟨fun n hn => CoreRegs.engineSteps_seRound_control rfl rfl hn, ?_⟩
    rw [CoreRegs.engineSteps_seEncrypt rfl rfl, CoreRegs.engineSteps_seRounds rfl rfl]
    exact ⟨rfl, rfl, rfl⟩
  · cases (exec_of_idle rfl hidle).symm.trans hexec
    have hin (n : Nat) := CoreRegs.engineSteps_succ_bsIn (c := accepted .bsEncrypt s.regs) rfl n
    have hfinal := (hin 31).trans (CoreRegs.engineSteps_bsRounds rfl rfl)
    have hout := (congrArg CoreRegs.engineStep hfinal).trans (CoreRegs.engineStep_bsFinal rfl)
    have hend := (congrArg CoreRegs.engineStep hout).trans (CoreRegs.engineStep_bsOut rfl)
    refine ⟨rfl, rfl, fun n hn => ?_, congrArg CoreRegs.phase hfinal, congrArg CoreRegs.rnd hfinal,
      congrArg CoreRegs.phase hout, congrArg CoreRegs.rnd hout, congrArg CoreRegs.phase hend⟩
    rw [State.withRegs_regs, hin n]
    exact CoreRegs.engineSteps_bsRound_control rfl rfl hn
  · exact (exec_control_frame hse hbs hexec).1.trans hidle

end EngineSequences

/-! ## O52: a busy period ends (R208, R210) -/

section BusyPeriods

namespace Sys2Proof.Machine

/-- How many engine steps the CORE is away from idle (R202 to R207). -/
def CoreRegs.stepsLeft (c : CoreRegs) : Nat :=
  match c.phase with
  | .idle => 0
  | .seRound => 33 - c.rnd.toNat
  | .seFinal => 1
  | .bsIn => 34
  | .bsRound => 34 - c.rnd.toNat
  | .bsFinal => 2
  | .bsOut => 1

section StepsLeft

variable {c : CoreRegs}

theorem CoreRegs.stepsLeft_le (c : CoreRegs) : c.stepsLeft ≤ 34 := by
  cases hp : c.phase <;> simp only [stepsLeft, hp] <;> omega

theorem CoreRegs.phase_idle_of_stepsLeft (h : c.stepsLeft = 0) : c.phase = .idle := by
  have hrnd := c.rnd.isLt
  cases hp : c.phase with
  | idle => rfl
  | _ => simp only [stepsLeft, hp] at h; omega

theorem roundIndex_toNat_add_one {r : Round} (h : r ≠ 31) : (r + 1).toNat = r.toNat + 1 := by
  bv_omega

/-- Each engine step brings a busy CORE one nearer to idle. -/
theorem CoreRegs.stepsLeft_engineStep (hbusy : c.phase ≠ .idle) :
    c.engineStep.stepsLeft + 1 = c.stepsLeft := by
  have hrnd := c.rnd.isLt
  cases hp : c.phase with
  | idle => exact absurd hp hbusy
  | seRound | bsRound =>
    by_cases hlast : c.rnd = 31
    · simp [stepsLeft, hp, hlast]
    · simp only [stepsLeft, hp, hlast, if_false, engineStep_seRound, engineStep_bsRound,
        roundIndex_toNat_add_one hlast]
      have : c.rnd.toNat ≠ 31 := fun h => hlast (BitVec.eq_of_toNat_eq h)
      omega
  | _ => simp [stepsLeft, hp]

end StepsLeft

theorem run_succ_of_step {s t : State} (h : step s = .next t) (n : Nat) :
    core.run (n + 1) s = core.run n t := by
  rw [run_succ, h]

/-- With no turn named, a busy CORE has the engine's turn (R210, log entry 2). -/
theorem step_of_busy_default {s : State} (hturns : s.turns = []) (hbusy : s.regs.phase ≠ .idle) :
    step s = .next (s.withRegs s.regs.engineStep) := by
  have hturn : s.currentTurn = .engine := by
    simp [State.currentTurn, hturns, defaultTurn, CoreRegs.busy_eq_true.mpr hbusy]
  rw [step_engine hturn, hturns]
  simp [State.withRegs, hturns]

/-- With no turn named, the engine runs until the CORE is idle. -/
theorem run_default_to_idle {n : Nat} {s : State} (hturns : s.turns = [])
    (hleft : s.regs.stepsLeft = n) : ∃ t, core.run n s = .next t ∧ t.regs.phase = .idle := by
  induction n generalizing s with
  | zero => exact ⟨s, rfl, CoreRegs.phase_idle_of_stepsLeft hleft⟩
  | succ n ih =>
    have hbusy : s.regs.phase ≠ .idle := fun hidle => by simp [CoreRegs.stepsLeft, hidle] at hleft
    have hnext : s.regs.engineStep.stepsLeft = n := by
      have := CoreRegs.stepsLeft_engineStep hbusy
      omega
    rw [run_succ_of_step (step_of_busy_default hturns hbusy)]
    exact ih hturns hnext

/-- The next event is an access the window does not take (R60, R62, R63). -/
def State.stopsAtAccess (s : State) : Prop :=
  ∃ off size, goodAccess off size = false ∧
    ((∃ v, s.currentOp = some (.write off size v)) ∨ ∃ x, s.currentOp = some (.read off size x))

/-- A step gives a next state, or stands at a wrong access. -/
theorem step_next_or_stopsAtAccess (s : State) : (∃ t, step s = .next t) ∨ s.stopsAtAccess := by
  rcases step_outcome s with hnext | ⟨op, off, size, hop, hacc, _, hbad, _⟩ |
    ⟨op, off, size, hop, hacc, hout, _⟩
  · exact .inl hnext
  · exact .inr ⟨off, size, hbad, currentOp_of_accesses hop hacc⟩
  · have hbad : goodAccess off size = false := by simp [goodAccess, Nat.not_lt.mpr hout]
    exact .inr ⟨off, size, hbad, currentOp_of_accesses hop hacc⟩

end Sys2Proof.Machine

open Sys2Proof Sys2Proof.Machine

/-- Settles O52, by induction on the turns: each event uses one up, and when none is left the engine has at
most 34 steps to go. -/
theorem busyPeriodEnds : Obligations.BusyPeriodEnds := by
  intro s
  generalize hturns : s.turns = turns
  induction turns generalizing s with
  | nil =>
    obtain ⟨t, hrun, hidle⟩ := run_default_to_idle hturns rfl
    exact ⟨_, by simpa using s.regs.stepsLeft_le, t, hrun, .inl hidle⟩
  | cons turn turns ih =>
    rcases step_next_or_stopsAtAccess s with ⟨t, hstep⟩ | hstop
    · obtain ⟨n, hn, u, hrun, hend⟩ := ih t (by rw [step_turns hstep, hturns]; rfl)
      refine ⟨n + 1, ?_, u, (run_succ_of_step hstep n).trans hrun, hend⟩
      rw [List.length_cons]
      omega
    · exact ⟨0, Nat.zero_le _, s, run_zero s, .inr hstop⟩

end BusyPeriods

/-! ## O53, O54, O55: the results of the compound commands, however the host interleaves (R211) -/

section InterleavedRuns

namespace Sys2Proof.Machine

/-- The CORE apart from the flags, which are all that the host reaches while it is busy (R70, R71). -/
def CoreRegs.withoutFlags (c : CoreRegs) : CoreRegs :=
  { c with done := false, errCmd := false, errBusy := false }

section EngineAndFlags

variable {c d : CoreRegs}

theorem CoreRegs.data_eq_of_withoutFlags_eq (h : d.withoutFlags = c.withoutFlags) :
    d.state = c.state ∧ d.key = c.key ∧ d.blk = c.blk ∧ d.slice = c.slice :=
  ⟨(congrArg state h :), (congrArg key h :), (congrArg blk h :), (congrArg slice h :)⟩

/-- The engine does not read the flags. -/
theorem CoreRegs.withoutFlags_engineStep (c : CoreRegs) :
    c.engineStep.withoutFlags = c.withoutFlags.engineStep.withoutFlags := by
  cases hp : c.phase <;> simp [withoutFlags, hp]

theorem CoreRegs.engineSteps_congr_withoutFlags (h : d.withoutFlags = c.withoutFlags) (n : Nat) :
    (d.engineSteps n).withoutFlags = (c.engineSteps n).withoutFlags := by
  induction n with
  | zero => exact h
  | succ n ih =>
    rw [engineSteps, engineSteps, withoutFlags_engineStep, ih, ← withoutFlags_engineStep]

/-- Two ends of one run of the engine are one. -/
theorem CoreRegs.engineSteps_eq_of_idle {m n : Nat} (hm : (c.engineSteps m).phase = .idle)
    (hn : (c.engineSteps n).phase = .idle) : c.engineSteps m = c.engineSteps n := by
  rcases Nat.le_total m n with h | h <;> obtain ⟨k, rfl⟩ := Nat.exists_eq_add_of_le h
  · rw [engineSteps_add, engineSteps_of_idle hm]
  · rw [engineSteps_add, engineSteps_of_idle hn]

/-- The engine ends a run with `DONE = 1` (R203, R207). -/
theorem CoreRegs.engineStep_done_of_idle (hbusy : c.phase ≠ .idle) (hidle : c.engineStep.phase = .idle) :
    c.engineStep.done = true := by
  cases hp : c.phase with
  | idle => exact absurd hp hbusy
  | seRound | bsRound =>
    simp only [engineStep_seRound, engineStep_bsRound, hp] at hidle
    split at hidle <;> cases hidle
  | bsIn | bsFinal => simp [hp] at hidle
  | seFinal | bsOut => simp [hp]

end EngineAndFlags

/-- While the CORE is busy, an event other than reset is an engine step, or it leaves all but the flags
alone (R70, R211). -/
theorem CoreEvent.busy_cases {s : State} {c : CoreRegs} (h : CoreEvent s c)
    (hreset : s.currentTurn ≠ .reset) (hbusy : s.regs.phase ≠ .idle) :
    c = s.regs.engineStep ∨ c.withoutFlags = s.regs.withoutFlags := by
  cases h with
  | reset hturn => exact absurd hturn hreset
  | engine => exact .inl rfl
  | noWrite | clearStatus | refusedBusy => exact .inr rfl
  | illegalWord _ _ hidle | command _ _ _ hidle | dataWord _ _ _ _ _ hidle => exact absurd hidle hbusy

theorem State.noResetAhead_iff {s : State} : s.noResetAhead = true ↔ .reset ∉ s.turns := by
  simp [noResetAhead]

theorem State.currentTurn_ne_reset {s : State} (h : s.noResetAhead = true) :
    s.currentTurn ≠ .reset := by
  rw [noResetAhead_iff] at h
  cases hturns : s.turns with
  | nil => simp only [currentTurn, hturns, defaultTurn]; split <;> nofun
  | cons turn turns =>
    rw [hturns, List.mem_cons, not_or] at h
    simpa only [currentTurn, hturns] using Ne.symm h.1

theorem noResetAhead_of_step {s t : State} (h : s.noResetAhead = true) (hstep : step s = .next t) :
    t.noResetAhead = true := by
  rw [State.noResetAhead_iff] at h ⊢
  rw [step_turns hstep]
  exact mt List.mem_of_mem_tail h

/-- `t` is the first idle state of the run from `s`, after `n` events. -/
structure FirstIdle (n : Nat) (s t : State) : Prop where
  run : core.run n s = .next t
  idle : t.regs.phase = .idle
  first : ∀ m u, m < n → core.run m s = .next u → u.regs.phase ≠ .idle

theorem FirstIdle.tail {n : Nat} {s t u : State} (h : FirstIdle (n + 1) s t) (hstep : step s = .next u) :
    FirstIdle n u t where
  run := (run_succ_of_step hstep n).symm.trans h.run
  idle := h.idle
  first m v hm hrun := h.first (m + 1) v (by omega) ((run_succ_of_step hstep m).trans hrun)

theorem FirstIdle.step {n : Nat} {s t : State} (h : FirstIdle (n + 1) s t) :
    ∃ u, Machine.step s = .next u ∧ FirstIdle n u t := by
  cases hstep : Machine.step s with
  | next u => exact ⟨u, rfl, h.tail hstep⟩
  | fault f => simpa [run_succ, hstep] using h.run
  | refused r => simpa [run_succ, hstep] using h.run

/-- An idle state ends its run at once. -/
theorem FirstIdle.eq_of_idle {n : Nat} {s t : State} (h : FirstIdle n s t)
    (hidle : s.regs.phase = .idle) : s = t := by
  cases n with
  | zero => exact Host.Outcome.next.inj h.run
  | succ n => exact absurd hidle (h.first 0 s (Nat.succ_pos n) (run_zero s))

/-- Until the CORE is idle, the run from a busy CORE is a run of its engine, and the host reaches the flags
alone: the data registers end as the engine leaves them, and its last step sets `DONE` (R211). -/
theorem FirstIdle.engine_result {n : Nat} {s t : State} (h : FirstIdle n s t)
    (hnoreset : s.noResetAhead = true) (hbusy : s.regs.phase ≠ .idle) :
    t.regs.done = true ∧ ∃ k, t.regs.withoutFlags = (s.regs.engineSteps k).withoutFlags := by
  induction n generalizing s with
  | zero =>
    cases h.run
    exact absurd h.idle hbusy
  | succ n ih =>
    obtain ⟨u, hstep, htail⟩ := h.step
    have hevent := (coreEvent_of_step hstep).busy_cases (State.currentTurn_ne_reset hnoreset) hbusy
    by_cases hidle : u.regs.phase = .idle
    · cases htail.eq_of_idle hidle
      rcases hevent with hengine | hflags
      · exact ⟨hengine ▸ CoreRegs.engineStep_done_of_idle hbusy (hengine ▸ hidle),
          1, congrArg CoreRegs.withoutFlags hengine⟩
      · exact absurd ((congrArg CoreRegs.phase hflags).symm.trans hidle) hbusy
    · obtain ⟨hdone, k, hk⟩ := ih htail (noResetAhead_of_step hnoreset hstep) hidle
      refine ⟨hdone, ?_⟩
      rcases hevent with hengine | hflags
      · exact ⟨1 + k, by rw [hk, hengine, CoreRegs.engineSteps_add]; rfl⟩
      · exact ⟨k, hk.trans (CoreRegs.engineSteps_congr_withoutFlags hflags k)⟩

/-- A compound command, accepted and run under any interleaving without reset, ends as `completed` says, the
error bits aside (R211). -/
theorem FirstIdle.completed {n : Nat} {i : Instr} {s s0 t : State} (h : FirstIdle n s0 t)
    (hcompound : i = .seEncrypt ∨ i = .bsEncrypt) (hidle : s.regs.phase = .idle)
    (hexec : exec i s = .next s0) (hnoreset : s0.noResetAhead = true) :
    t.regs.done = true ∧ t.regs.withoutFlags = (completed i s.regs).withoutFlags := by
  have hwf : i.wellFormed = true := by rcases hcompound with rfl | rfl <;> rfl
  have hbusy : s0.regs.phase ≠ .idle := by
    cases (exec_of_idle hwf hidle).symm.trans hexec
    rcases hcompound with rfl | rfl <;> nofun
  have hend : (s0.regs.engineSteps 34).phase = .idle := by
    rw [engineSteps_of_exec hwf hidle hexec]
    rcases hcompound with rfl | rfl <;> rfl
  obtain ⟨hdone, k, hk⟩ := h.engine_result hnoreset hbusy
  have hkidle : (s0.regs.engineSteps k).phase = .idle := (congrArg CoreRegs.phase hk).symm.trans h.idle
  rw [CoreRegs.engineSteps_eq_of_idle hkidle hend, engineSteps_of_exec hwf hidle hexec] at hk
  exact ⟨hdone, hk⟩

end Sys2Proof.Machine

open Sys2Proof Sys2Proof.Machine

/-- Settles O53: the first idle state holds what a run of the engine alone leaves. -/
theorem scalarResultUnderEveryInterleaving : Obligations.ScalarResultUnderEveryInterleaving := by
  intro s s0 t n hidle hexec hnoreset hrun htidle hfirst
  obtain ⟨hdone, hregs⟩ :=
    FirstIdle.completed ⟨hrun, htidle, hfirst⟩ (.inl rfl) hidle hexec hnoreset
  obtain ⟨hstate, hkey, hblk, hslice⟩ := CoreRegs.data_eq_of_withoutFlags_eq hregs
  exact ⟨Prod.ext hstate hkey, hblk, hslice, hdone⟩

/-- Settles O54: the first idle state holds what a run of the engine alone leaves, block by block. -/
theorem batchResultUnderEveryInterleaving : Obligations.BatchResultUnderEveryInterleaving := by
  intro s s0 t n hidle hexec hnoreset hrun htidle hfirst
  obtain ⟨hdone, hregs⟩ :=
    FirstIdle.completed ⟨hrun, htidle, hfirst⟩ (.inr rfl) hidle hexec hnoreset
  obtain ⟨hstate, hkey, hblk, hslice⟩ := CoreRegs.data_eq_of_withoutFlags_eq hregs
  refine ⟨fun j hj => ?_, hkey, ?_, hstate, hdone⟩
  · simp only [hblk, getElem_completed_bsEncrypt_blk _ hj]
  · rw [hslice, hblk, completed_bsEncrypt_slice]

/-- Settles O55: both runs end in `PRESENT80` of the one block and the one key. -/
theorem bothEnginesAgree : Obligations.BothEnginesAgree := by
  intro s t u v hs ht hkey hblk hse hbs
  cases (exec_of_idle rfl hs).symm.trans hse
  rw [engineSteps_of_exec rfl ht hbs, State.withRegs_regs, engineSteps_accepted_seEncrypt]
  refine ⟨congrArg (keyAfter · Config.rounds) hkey, fun j hj => ?_⟩
  rw [getElem_completed_bsEncrypt_blk _ hj, hblk j hj, ← hkey]
  rfl

end InterleavedRuns

/-! ## O45, O60: the conditions of an access, and the error bits under commands (R230, R231, R234, R236) -/

section ErrorConditions

namespace Sys2Proof.Machine

theorem currentOp_withHostOp (s : State) (op : HostOp) : (s.withHostOp op).currentOp = some op :=
  progWithLine_get (Nat.min_le_right _ _) op

/-- A write that gives a next state is the event of the machine that is about to run its line. -/
theorem coreEvent_of_memWrite {s t : State} {off n : Nat} {v : Word}
    (h : memWrite off n v s = .next t) : CoreEvent (s.withHostOp (.write off n v)) t.regs :=
  coreEvent_of_write (u := s) (currentOp_withHostOp s _) rfl h

/-- `ERR_BUSY` rises only while busy and `ERR_CMD` only while idle, so no event raises both (R234). -/
theorem CoreEvent.not_raises_both {s : State} {c : CoreRegs} (h : CoreEvent s c)
    (hbusy : s.regs.errBusy = false ∧ c.errBusy = true) :
    ¬(s.regs.errCmd = false ∧ c.errCmd = true) := by
  obtain ⟨hphase, _⟩ := (h.errBusy_eq_true_iff hbusy.1).mp hbusy.2
  rintro ⟨hlow, hhigh⟩
  obtain ⟨hidle, _⟩ := (h.errCmd_eq_true_iff hlow).mp hhigh
  exact hphase hidle

/-- The CORE with other values in the error bits (R39, R40). -/
def CoreRegs.setErrors (c : CoreRegs) (a b : Bool) : CoreRegs := { c with errCmd := a, errBusy := b }

/-- A command reads neither error bit: it does the same with any values of them (R236). -/
theorem accepted_setErrors (i : Instr) (c : CoreRegs) (a b : Bool) :
    accepted i (c.setErrors a b) = (accepted i c).setErrors a b := by
  cases i <;> simp only [CoreRegs.setErrors, accepted_nop, accepted_seArk, accepted_seSbox,
    accepted_sePerm, accepted_seRound, accepted_seEncrypt, accepted_ksAdv, accepted_bsEnslice,
    accepted_bsUnslice, accepted_bsArk, accepted_bsSbox, accepted_bsPerm, accepted_bsRound,
    accepted_bsEncrypt]

/-- A command, accepted or refused, gives a next state and clears no error bit (R230, R236). -/
theorem exec_keeps_raised_errors (i : Instr) (s : State) :
    ∃ c : CoreRegs, exec i s = .next (s.withRegs c) ∧
      (s.regs.errCmd = true → c.errCmd = true) ∧ (s.regs.errBusy = true → c.errBusy = true) := by
  by_cases hidle : s.regs.phase = .idle
  · cases hwf : i.wellFormed with
    | true =>
      exact ⟨_, exec_of_idle hwf hidle, (accepted_errCmd s.regs i).trans,
        (accepted_errBusy s.regs i).trans⟩
    | false => exact ⟨_, exec_of_not_wellFormed hwf hidle, fun _ => rfl, id⟩
  · exact ⟨_, exec_of_busy hidle i, id, fun _ => rfl⟩

end Sys2Proof.Machine

open Sys2Proof Sys2Proof.Machine

/-- Settles O45: the checks in their order, and the phase that each error bit needs to rise. -/
theorem oneConditionPerAccess : Obligations.OneConditionPerAccess := by
  refine ⟨fun s off n v hlt hbad => memWrite_of_bad hlt hbad v s, fun s v => ?_,
    fun s off v hbusy hgood hstatus => ?_, fun s w hidle hw => ?_, fun s w hbusy _ => ?_,
    fun s t off n v h => (coreEvent_of_memWrite h).not_raises_both⟩
  · refine ⟨_, memWrite_status v s, ?_, ?_⟩ <;> simp +contextual
  · obtain ⟨p, rfl, -⟩ := goodAccess_iff.mp hgood
    exact memWrite_of_busy hbusy (mt Port.offset_eq_status.mpr hstatus) v
  · exact (memWrite_cmd_of_idle hidle w).trans (command_of_illegal hw s)
  · exact ⟨_, memWrite_of_busy hbusy (p := .cmd) nofun w, rfl, rfl⟩

/-- Settles O60: each outcome of a command keeps the error bits that are set, and an accepted command
commutes with a change of the error bits. -/
theorem errorBitsAreStickyAndHarmless : Obligations.ErrorBitsAreStickyAndHarmless := by
  refine ⟨exec_keeps_raised_errors, fun c => ⟨c.engineStep_errCmd, c.engineStep_errBusy⟩,
    fun i s a b hidle hwf => ⟨accepted i s.regs, exec_of_idle hwf hidle, accepted_errCmd _ i,
      accepted_errBusy _ i, ?_⟩⟩
  calc exec i (s.withRegs (s.regs.setErrors a b))
      = .next (s.withRegs (accepted i (s.regs.setErrors a b))) := exec_of_idle hwf hidle
    _ = .next (s.withRegs ((accepted i s.regs).setErrors a b)) := by rw [accepted_setErrors]

end ErrorConditions

/-! ## O56: `phase` and `rnd` move the same way whatever the data (R271) -/

section DataIndependence

namespace Sys2Proof.Machine

/-- Two COREs at the same point of the round state machine; their data registers and flags are free. -/
structure CoreRegs.SameControl (c d : CoreRegs) : Prop where
  phase : c.phase = d.phase
  rnd : c.rnd = d.rnd

section TwoCores

variable {c d : CoreRegs}

theorem CoreRegs.SameControl.busy (h : c.SameControl d) : c.busy = d.busy := by
  rw [CoreRegs.busy, CoreRegs.busy, h.phase]

/-- Frames carry the agreement of two COREs on to what they become. -/
theorem CoreRegs.SameControl.of_frames {c' d' : CoreRegs} (h : c.SameControl d)
    (hc : c'.phase = c.phase ∧ c'.rnd = c.rnd) (hd : d'.phase = d.phase ∧ d'.rnd = d.rnd) :
    c'.SameControl d' :=
  ⟨hc.1.trans (h.phase.trans hd.1.symm), hc.2.trans (h.rnd.trans hd.2.symm)⟩

/-- The engine chooses the next phase and index by `phase` alone, and by `rnd` where it ends a round (R202 to
R207). -/
theorem CoreRegs.SameControl.engineStep (h : c.SameControl d) :
    c.engineStep.SameControl d.engineStep := by
  cases hc : c.phase with
  | seRound | bsRound =>
    have hd := h.phase.symm.trans hc
    exact ⟨by simp [hc, hd, h.rnd], by simp [hc, hd, h.rnd]⟩
  | _ =>
    have hd := h.phase.symm.trans hc
    exact ⟨by simp [hc, hd], by simp [hc, hd, h.rnd]⟩

theorem CoreRegs.SameControl.engineSteps (h : c.SameControl d) (n : Nat) :
    (c.engineSteps n).SameControl (d.engineSteps n) := by
  induction n with
  | zero => exact h
  | succ n ih => exact ih.engineStep

/-- A compound command sets `phase` and `rnd` to fixed values, any other leaves them (R199, R200). -/
theorem CoreRegs.SameControl.accepted (h : c.SameControl d) (i : Instr) :
    (accepted i c).SameControl (accepted i d) := by
  cases i with
  | seEncrypt | bsEncrypt => exact ⟨rfl, rfl⟩
  | _ => exact h.of_frames (accepted_control_frame nofun nofun) (accepted_control_frame nofun nofun)

end TwoCores

section TwoRuns

variable {s t s' t' : State}

/-- A command meets the same fate in both COREs: accepted, refused as illegal, or refused as busy. -/
theorem exec_sameControl {i : Instr} (h : s.regs.SameControl t.regs)
    (hs : exec i s = .next s') (ht : exec i t = .next t') : s'.regs.SameControl t'.regs := by
  rw [exec_eq_present, present] at hs ht
  cases hs
  cases ht
  simp only [State.withRegs_regs, ← h.busy]
  split_ifs
  · exact h.of_frames ⟨rfl, rfl⟩ ⟨rfl, rfl⟩
  · exact h.accepted i
  · exact h.of_frames ⟨rfl, rfl⟩ ⟨rfl, rfl⟩

/-- A write that gives a next state is one of four bytes (R62). -/
theorem memWrite_size {off n : Nat} {v : Word} (h : memWrite off n v s = .next s') : n = 4 := by
  rcases memWrite_cases off n v s with ⟨p, hacc, _⟩ | ⟨f, _, heq⟩ | ⟨r, _, heq⟩
  · exact (access_eq_next_iff.mp hacc).2
  · cases heq.symm.trans h
  · cases heq.symm.trans h

/-- A word that is no command leaves `phase` and `rnd` alone, in every phase (R95, R196). -/
theorem memWrite_illegal_control_frame {w : Word} (hw : legal w = false)
    (h : memWrite 0x000 4 w s = .next s') :
    s'.regs.phase = s.regs.phase ∧ s'.regs.rnd = s.regs.rnd := by
  by_cases hidle : s.regs.phase = .idle
  · rw [memWrite_cmd_of_idle hidle, command_of_illegal hw] at h
    cases h
    exact ⟨rfl, rfl⟩
  · cases (memWrite_of_busy hidle (p := .cmd) nofun w).symm.trans h
    exact ⟨rfl, rfl⟩

/-- The same word written to `CMD` is the same command for both COREs, or no command (R196). -/
theorem memWrite_cmd_sameControl {n : Nat} {w : Word} (h : s.regs.SameControl t.regs)
    (hs : memWrite 0x000 n w s = .next s') (ht : memWrite 0x000 n w t = .next t') :
    s'.regs.SameControl t'.regs := by
  obtain rfl : n = 4 := memWrite_size hs
  cases hw : decode w with
  | ok i =>
    rw [memWrite_cmd hw] at hs ht
    exact exec_sameControl h hs ht
  | error e =>
    have hillegal := illegal_of_decode_error hw
    exact h.of_frames (memWrite_illegal_control_frame hillegal hs)
      (memWrite_illegal_control_frame hillegal ht)

/-- A write elsewhere than `CMD` leaves `phase` and `rnd` alone, so there the words may differ (R68, R70). -/
theorem memWrite_sameControl {off n : Nat} {v w : Word} (h : s.regs.SameControl t.regs)
    (hword : off = 0x000 → v = w) (hs : memWrite off n v s = .next s')
    (ht : memWrite off n w t = .next t') : s'.regs.SameControl t'.regs := by
  rcases eq_or_ne off 0x000 with rfl | hoff
  · cases hword rfl
    exact memWrite_cmd_sameControl h hs ht
  · exact h.of_frames (memWrite_control_frame hoff hs) (memWrite_control_frame hoff ht)

end TwoRuns

end Sys2Proof.Machine

open Sys2Proof Sys2Proof.Machine

/-- Settles O56: engine steps, commands and writes keep two COREs at the same point of the round state machine,
and a primitive command leaves an idle CORE at its phase. -/
theorem progressIsDataIndependent : Obligations.ProgressIsDataIndependent := by
  refine ⟨fun c d n hphase hrnd => ?_, fun s t s' t' i hphase hrnd hs ht => ?_,
    fun s t s' t' off n v w hphase hrnd hword hs ht => ?_, fun s t i hidle hse hbs h => ?_⟩
  · have h := CoreRegs.SameControl.engineSteps ⟨hphase, hrnd⟩ n
    exact ⟨h.phase, h.rnd, h.busy⟩
  · have h := exec_sameControl ⟨hphase, hrnd⟩ hs ht
    exact ⟨h.phase, h.rnd⟩
  · have h := memWrite_sameControl ⟨hphase, hrnd⟩ hword hs ht
    exact ⟨h.phase, h.rnd⟩
  · exact (exec_control_frame hse hbs h).1.trans hidle

end DataIndependence
